-- ==== Sys2Proof/Word.lean ====
section
/-! DEFINITION. The machine word of the block (spec/00_scope.md rules R8, R10). -/

namespace Sys2Proof

/-- A machine word of `W` bits: a slot word, a control word, `CLOSED`, a value (R8). `W` is OPEN in rule R8
and an argument of everything here; a state says which width it has (log entry 1). Arithmetic on a word is
modulo `2^W` (R10). -/
abbrev Word (W : Nat) := BitVec W

end Sys2Proof
end

