-- ==== Sys2Proof/Config.lean ====
section
/-! DEFINITION. The parameters of spec/00_scope.md rule R8 and the free value of the block. -/

namespace Sys2Proof

/-- The parameters rule R8 leaves to the implementation, fixed for the life of the hardware (R191). The
state carries them, and no step writes them, so that a statement about every state is a statement about
every choice of them (log entry 2). Two more stand elsewhere in the state: `W` is the width of its words
(log entry 1) and `NCTX` the number of contexts it holds. -/
structure Params where
  /-- `ORDER_MAX`, the largest order `CREATE` accepts. -/
  orderMax : Nat
  /-- `ROT`, the rotation of `map`; a cache line is `2^ROT` words. -/
  rot : Nat
  /-- `SPIN_LIMIT`, the re-reads a dequeuer makes before it forces a slot. -/
  spinLimit : Nat
  /-- `FQ_HINT`, the `nonempty_hint` the composer drives on the free-ring. -/
  fqHint : Bool
  deriving DecidableEq, Repr

/-- The constraints rule R8 puts on the parameters: `ORDER_MAX + 4 <= W` (40_slot_encoding.md R117) and
`NCTX >= 1`. -/
def Params.wf (W nctx : Nat) (p : Params) : Bool := decide (p.orderMax + 4 ≤ W) && decide (1 ≤ nctx)

/-- `W` after reset: the default of rule R8 (log entry 1). -/
def Config.width : Nat := 64

/-- The parameters after reset: `SPIN_LIMIT` and `FQ_HINT` at the spec's defaults; `ORDER_MAX` the
largest its constraint admits and `ROT` the one of the spec's examples. DESIGN CHOICE, log entry 2. -/
def Params.default : Params where
  orderMax := 60
  rot := 3
  spinLimit := 10000
  fqHint := false

/-- `NCTX` after reset (R8: OPEN, at least 1). DESIGN CHOICE, log entry 2. -/
def Config.nctx : Nat := 4

/-- The word a location of the backing block reads as when nothing has been stored to it since
`CREATE` (42_bounded_queue.md R162, 93_implementation_defined.md U11): a free value, one for each
queue life and word offset, so that a repeated load reads the same (20_memory.md R55). Log entry 6. -/
opaque Config.freeWord (W : Nat) : Nat → Nat → Word W

end Sys2Proof
end

