-- ==== Sys2Proof/Syntax.lean ====
section
/-! DEFINITION. The operations of the block: one constructor for each row of spec/opcode_table.json, the
locations they name, and the packets the three formats of spec/30_encoding.md carry them in. -/

namespace Sys2Proof

/-- The two rings (00_scope.md R16): `AQ` the occupied-ring, `FQ` the free-ring. -/
inductive Ring where
  | aq
  | fq
  deriving DecidableEq, Repr

/-- The shared locations (20_memory.md R50), named symbolically as every rule names them. -/
inductive Loc where
  | head (r : Ring)
  | threshold (r : Ring)
  | tail (r : Ring)
  /-- `r.array[p]` -/
  | slot (r : Ring) (p : Nat)
  /-- `VAL[i]` -/
  | val (i : Nat)
  /-- the `CLOSED` register of the queue record -/
  | closed
  deriving DecidableEq, Repr

/-- The operations (00_scope.md R3). An operand word is held as the number its bits write, so that an
operation is the same at every width (log entry 1). A format Q command keeps its whole `arg`, also where
it is ignored (30_encoding.md R83 writes it to `x[arg]`). None of them is a fence or a barrier (20_memory.md
R67). -/
inductive Instr where
  -- format Q
  | create (arg : Nat)
  | enqueue (arg : Nat)
  | dequeue (arg : Nat)
  | close (arg : Nat)
  | destroy (arg : Nat)
  | dump (arg : Nat)
  -- format R
  | ringInitEmpty (r : Ring)
  | ringInitFill (r : Ring) (start fin : Nat)
  | ringTryEnq (r : Ring) (hint : Bool) (vidx : Nat)
  | ringTryDeq (r : Ring) (hint : Bool)
  | ringCatchup (r : Ring) (tl hd : Nat)
  -- format M
  | ld (l : Loc)
  | st (l : Loc) (v : Nat)
  | faa (l : Loc) (d : Nat)
  | fsub (l : Loc) (d : Nat)
  | fetchOr (l : Loc) (m : Nat)
  | cas (l : Loc) (expected new : Nat)
  deriving DecidableEq, Repr

/-- What an interface carries in one transaction, in a block whose words have `W` bits.
`q`: the command word, `op` in bits `[W+2:W]` above `arg` (R81).
`r`: the five select bits and the operand words beside them (R87); `a`, `b` carry `start`, `end`, or
`tl`, `hd`, and `a` carries `vidx`.
`m`: the three `mop` bits, the location and the data words beside them (R88); `CAS` has `expected` in
`a` and `new` in `b`, the others their one data word in `a`. -/
inductive Packet (W : Nat) where
  | q (word : BitVec (3 + W))
  | r (select : BitVec 5) (a b : Word W)
  | m (mop : BitVec 3) (l : Loc) (a b : Word W)
  deriving DecidableEq, Repr

end Sys2Proof
end

