-- ==== Sys2Proof/Machine/Operands.lean ====
section
/-! DEFINITION. How operands are assembled: the sizes of a queue, the Slot Encoding functions
(spec/40_slot_encoding.md) and the word offsets of the backing block (spec/20_memory.md rule R62). -/

namespace Sys2Proof.Machine

variable {W : Nat}

/-! ### Sizes (R102, 00_scope.md R8) -/

/-- `CAP = 2^order`. -/
def capOf (order : Nat) : Nat := 2 ^ order

/-- `K = order + 1`, the width of the index field and of a position. -/
def kOf (order : Nat) : Nat := order + 1

/-- `N = 2^(order+1)`, the slots of one ring array. -/
def nOf (order : Nat) : Nat := 2 ^ (order + 1)

/-- `ones(k) = 2^k - 1` (R11). -/
def ones (k : Nat) : Word W := BitVec.ofNat W (2 ^ k - 1)

/-- `ALL1 = ones(W)` (R11, R114). -/
def all1 : Word W := BitVec.allOnes W

/-- `BOT = ones(K)`: no index here (R100). -/
def bot (k : Nat) : Word W := ones k

/-- `N` as a word: the `SAFE` bit (R100). -/
def nBit (k : Nat) : Word W := BitVec.ofNat W (2 ^ k)

/-- `THRESH = 3*CAP - 1` (R110). -/
def thresh (order : Nat) : Word W := BitVec.ofNat W (3 * 2 ^ order - 1)

/-! ### Position permutation, cycle words, packing -/

/-- `map(c)`: the low `K` bits of a counter, rotated left by `ROT` inside `K` bits; the plain mask when
`K <= ROT` (R103). -/
def mapPos (rot k : Nat) (c : Word W) : Word W :=
  if k ≤ rot then c &&& ones k
  else ((c &&& ones k) >>> (k - rot)) ||| ((c <<< rot) &&& ones k)

/-- `cyc(c) = (c << 1) | ones(K+1)` (R105). -/
def cyc (k : Nat) (c : Word W) : Word W := (c <<< 1) ||| ones (k + 1)

/-- `enc(i) = i ^ ones(K)` (R106). -/
def enc (k : Nat) (i : Word W) : Word W := i ^^^ ones k

/-- `pack(c, i) = cyc(c) ^ enc(i)` (R106). -/
def pack (k : Nat) (c i : Word W) : Word W := cyc k c ^^^ enc k i

/-- `ecyc(w) = w | ones(K+1)` (R108). -/
def ecyc (k : Nat) (w : Word W) : Word W := w ||| ones (k + 1)

/-- `idx_of(w) = w & ones(K)` (R109). -/
def idxOf (k : Nat) (w : Word W) : Word W := w &&& ones k

/-- `clear_safe(w) = w & ~N` (R111). -/
def clearSafe (k : Nat) (w : Word W) : Word W := w &&& ~~~ nBit k

/-- `force(hcyc, w) = hcyc ^ (~w & N)` (R112). -/
def forceWord (k : Nat) (hcyc w : Word W) : Word W := hcyc ^^^ (~~~ w &&& nBit k)

/-- The consume mask `ones(K)` (R113). -/
def consumeMask (k : Nat) : Word W := ones k

/-- The word `RING_INIT_FILL` writes for an entry it holds: `N + i` (41_ring_buffer.md R122). -/
def fillWord (k i : Nat) : Word W := BitVec.ofNat W (2 ^ k + i)

/-! ### Layout of the backing block (20_memory.md R62) -/

/-- `CLW = 2^ROT`, words per cache line. -/
def clw (rot : Nat) : Nat := 2 ^ rot

/-- `RS = 3*CLW + N`, words per ring region. -/
def ringWords (rot order : Nat) : Nat := 3 * clw rot + nOf order

/-- Where a ring's region begins. -/
def ringBase (rot order : Nat) : Ring → Nat
  | .aq => 0
  | .fq => ringWords rot order

/-- The size of the block in words, `6*CLW + 2*N + CAP` (R62). -/
def blockWords (rot order : Nat) : Nat := 2 * ringWords rot order + capOf order

/-- The word offset of a location (R62). `CLOSED` is no word of the block (10_state.md R31): what stands
here for it is the offset just past the block, which no word has. -/
def offset (rot order : Nat) : Loc → Nat
  | .head r => ringBase rot order r
  | .threshold r => ringBase rot order r + clw rot
  | .tail r => ringBase rot order r + 2 * clw rot
  | .slot r p => ringBase rot order r + 3 * clw rot + p
  | .val i => 2 * ringWords rot order + i
  | .closed => blockWords rot order

end Sys2Proof.Machine
end

