-- ==== Sys2Proof/Machine/Flags.lean ====
section
/-! DEFINITION. The tests a phase branches on. The block has no condition codes (spec/10_state.md rule R26): a
test is made on the words of the running phase and nothing is kept of it. -/

namespace Sys2Proof.Machine

variable {W : Nat}

/-! ### Signed-difference comparison (spec/40_slot_encoding.md rule R107), for words of any width -/

/-- `scmp(x, <, y)`. -/
def scmpLt {w : Nat} (x y : BitVec w) : Bool := decide ((x - y).toInt < 0)

/-- `scmp(x, <=, y)`. -/
def scmpLe {w : Nat} (x y : BitVec w) : Bool := decide ((x - y).toInt ≤ 0)

/-- `scmp(x, >=, y)`. -/
def scmpGe {w : Nat} (x y : BitVec w) : Bool := decide (0 ≤ (x - y).toInt)

/-! ### Tests on a threshold word and on `CLOSED` -/

/-- `signed(th) < 0` (41_ring_buffer.md R132). -/
def thNegative (th : Word W) : Bool := decide (th.toInt < 0)

/-- `signed(th) <= 0` (R139). -/
def thNonPositive (th : Word W) : Bool := decide (th.toInt ≤ 0)

/-- `CLOSED != 0` (10_state.md R26). -/
def isClosed (cl : Word W) : Bool := decide (cl ≠ 0)

/-! ### Classes of a slot word (40_slot_encoding.md R101) -/

/-- The class of a slot word. -/
inductive SlotClass where
  | emptySafe
  | emptyUnsafe
  | fullSafe
  | fullUnsafe
  deriving DecidableEq, Repr

/-- The tests of R101 on a word `w`, with `e = ecyc(w)`. -/
def slotClass (k : Nat) (w : Word W) : SlotClass :=
  if w = ecyc k w then .emptySafe
  else if w = ecyc k w ^^^ nBit k then .emptyUnsafe
  else if w.getLsbD k then .fullSafe
  else .fullUnsafe

/-- A word that holds an index: `(w | N) != ecyc(w)` (R101). -/
def isFull (k : Nat) (w : Word W) : Bool := decide (w ||| nBit k ≠ ecyc k w)

/-! ### Admissibility of a slot for a producer (41_ring_buffer.md R126) -/

/-- The slot is `EMPTY_SAFE` of an older traversal. -/
def admissibleSafe (k : Nat) (tcyc entry : Word W) : Bool :=
  scmpLt (ecyc k entry) tcyc && decide (entry = ecyc k entry)

/-- The slot is `EMPTY_UNSAFE` of an older traversal. -/
def admissibleUnsafe (k : Nat) (tcyc entry : Word W) : Bool :=
  scmpLt (ecyc k entry) tcyc && decide (entry = ecyc k entry ^^^ nBit k)

end Sys2Proof.Machine
end

