-- ==== Sys2Proof/WellFormed.lean ====
section
/-! DEFINITION. Which operations meet the operand ranges the spec gives them, for a queue of a given order. -/

namespace Sys2Proof

/-- The index of a location is in range for a queue of order `order` (20_memory.md R50, R52). -/
def Loc.inRange (order : Nat) : Loc → Bool
  | .head _ => true
  | .threshold _ => true
  | .tail _ => true
  | .slot _ p => decide (p < 2 ^ (order + 1))
  | .val i => decide (i < 2 ^ order)
  | .closed => true

/-- Every operand word of the operation fits in `W` bits (30_encoding.md R81, R87, R88). -/
def Instr.fits (W : Nat) : Instr → Bool
  | .create arg => decide (arg < 2 ^ W)
  | .enqueue arg => decide (arg < 2 ^ W)
  | .dequeue arg => decide (arg < 2 ^ W)
  | .close arg => decide (arg < 2 ^ W)
  | .destroy arg => decide (arg < 2 ^ W)
  | .dump arg => decide (arg < 2 ^ W)
  | .ringInitEmpty _ => true
  | .ringInitFill _ start fin => decide (start < 2 ^ W) && decide (fin < 2 ^ W)
  | .ringTryEnq _ _ vidx => decide (vidx < 2 ^ W)
  | .ringTryDeq _ _ => true
  | .ringCatchup _ tl hd => decide (tl < 2 ^ W) && decide (hd < 2 ^ W)
  | .ld _ => true
  | .st _ v => decide (v < 2 ^ W)
  | .faa _ d => decide (d < 2 ^ W)
  | .fsub _ d => decide (d < 2 ^ W)
  | .fetchOr _ m => decide (m < 2 ^ W)
  | .cas _ e v => decide (e < 2 ^ W) && decide (v < 2 ^ W)

/-- The ranges the spec gives operands beyond the word: `order <= ORDER_MAX` (30_encoding.md R84);
`start <= end <= CAP` (41_ring_buffer.md R122, 93 U16); `vidx < CAP` (R123, 93 U15); a location that
exists (20_memory.md R50). Every other operand is a whole word. -/
def Instr.ranges (p : Params) (order : Nat) : Instr → Bool
  | .create arg => decide (arg ≤ p.orderMax)
  | .enqueue _ => true
  | .dequeue _ => true
  | .close _ => true
  | .destroy _ => true
  | .dump _ => true
  | .ringInitEmpty _ => true
  | .ringInitFill _ start fin => decide (start ≤ fin) && decide (fin ≤ 2 ^ order)
  | .ringTryEnq _ _ vidx => decide (vidx < 2 ^ order)
  | .ringTryDeq _ _ => true
  | .ringCatchup _ _ _ => true
  | .ld l => l.inRange order
  | .st l _ => l.inRange order
  | .faa l _ => l.inRange order
  | .fsub l _ => l.inRange order
  | .fetchOr l _ => l.inRange order
  | .cas l _ _ => l.inRange order

/-- The operation is well formed in a block of width `W` with the given parameters and a queue of the given
order. -/
def Instr.wf (W : Nat) (p : Params) (order : Nat) (i : Instr) : Bool := i.fits W && i.ranges p order

end Sys2Proof
end

