-- ==== Sys2Proof/Decode.lean ====
section
/-! DEFINITION. Decoding and encoding of the three formats (spec/30_encoding.md rules R81, R82, R87 to R89). -/

namespace Sys2Proof

/-- Why a packet is no operation: a reserved code (30_encoding.md R89). -/
inductive DecodeError where
  | reservedOp (op : BitVec 3)
  | reservedRop (rop : BitVec 3)
  | reservedMop (mop : BitVec 3)
  deriving DecidableEq, Repr

variable {W : Nat}

/-- The `op` field, bits `[W+2:W]` of a command word (R81). -/
def qOp (w : BitVec (3 + W)) : BitVec 3 := w.extractLsb' W 3

/-- The `arg` field, bits `[W-1:0]` of a command word (R81). -/
def qArg (w : BitVec (3 + W)) : Word W := w.extractLsb' 0 W

/-- The command word of an operation code and an argument (R81). -/
def qWord (op : BitVec 3) (arg : Word W) : BitVec (3 + W) := op ++ arg

/-- The operation codes of format Q (R82); 110 and 111 are reserved (R89). -/
def decodeOp (op : BitVec 3) (arg : Word W) : Except DecodeError Instr :=
  match op.toNat with
  | 0 => .ok (.create arg.toNat)
  | 1 => .ok (.enqueue arg.toNat)
  | 2 => .ok (.dequeue arg.toNat)
  | 3 => .ok (.close arg.toNat)
  | 4 => .ok (.destroy arg.toNat)
  | 5 => .ok (.dump arg.toNat)
  | _ => .error (.reservedOp op)

/-- The `ring` bit, bit 4 of the select (R87). -/
def selRing (sel : BitVec 5) : Ring := if sel.getLsbD 4 then .fq else .aq

/-- The `rop` field, bits `[3:1]` of the select (R87). -/
def selRop (sel : BitVec 5) : BitVec 3 := sel.extractLsb' 1 3

/-- The `hint` bit, bit 0 of the select (R87). -/
def selHint (sel : BitVec 5) : Bool := sel.getLsbD 0

/-- The ring operations of format R (R87). `hint` has a meaning for the two try operations only; the
others ignore it (log entry 12). -/
def decodeSelect (sel : BitVec 5) (a b : Word W) : Except DecodeError Instr :=
  match (selRop sel).toNat with
  | 0 => .ok (.ringInitEmpty (selRing sel))
  | 1 => .ok (.ringInitFill (selRing sel) a.toNat b.toNat)
  | 2 => .ok (.ringTryEnq (selRing sel) (selHint sel) a.toNat)
  | 3 => .ok (.ringTryDeq (selRing sel) (selHint sel))
  | 4 => .ok (.ringCatchup (selRing sel) a.toNat b.toNat)
  | _ => .error (.reservedRop (selRop sel))

/-- The atomic primitives of format M (R88). -/
def decodeMop (mop : BitVec 3) (l : Loc) (a b : Word W) : Except DecodeError Instr :=
  match mop.toNat with
  | 0 => .ok (.ld l)
  | 1 => .ok (.st l a.toNat)
  | 2 => .ok (.faa l a.toNat)
  | 3 => .ok (.fsub l a.toNat)
  | 4 => .ok (.fetchOr l a.toNat)
  | 5 => .ok (.cas l a.toNat b.toNat)
  | _ => .error (.reservedMop mop)

/-- The operation a packet carries, or the reserved code it holds (R80 to R90). -/
def decode : Packet W → Except DecodeError Instr
  | .q w => decodeOp (qOp w) (qArg w)
  | .r sel a b => decodeSelect sel a b
  | .m mop l a b => decodeMop mop l a b

/-- The select bits `{ring, rop, hint}` (R87). -/
def selectBits (r : Ring) (rop : BitVec 3) (hint : Bool) : BitVec 5 :=
  (match r with
   | .aq => 0#1
   | .fq => 1#1) ++ rop ++ BitVec.ofBool hint

/-- The packet of an operation in a block of width `W`, every bit and operand the format does not use zero
(R81, R87, R88). An operand word that does not fit (`Instr.fits`) loses its high bits. -/
def encode (W : Nat) : Instr → Packet W
  | .create arg => .q (qWord 0 (BitVec.ofNat W arg))
  | .enqueue arg => .q (qWord 1 (BitVec.ofNat W arg))
  | .dequeue arg => .q (qWord 2 (BitVec.ofNat W arg))
  | .close arg => .q (qWord 3 (BitVec.ofNat W arg))
  | .destroy arg => .q (qWord 4 (BitVec.ofNat W arg))
  | .dump arg => .q (qWord 5 (BitVec.ofNat W arg))
  | .ringInitEmpty r => .r (selectBits r 0 false) 0 0
  | .ringInitFill r start fin => .r (selectBits r 1 false) (BitVec.ofNat W start) (BitVec.ofNat W fin)
  | .ringTryEnq r hint vidx => .r (selectBits r 2 hint) (BitVec.ofNat W vidx) 0
  | .ringTryDeq r hint => .r (selectBits r 3 hint) 0 0
  | .ringCatchup r tl hd => .r (selectBits r 4 false) (BitVec.ofNat W tl) (BitVec.ofNat W hd)
  | .ld l => .m 0 l 0 0
  | .st l v => .m 1 l (BitVec.ofNat W v) 0
  | .faa l d => .m 2 l (BitVec.ofNat W d) 0
  | .fsub l d => .m 3 l (BitVec.ofNat W d) 0
  | .fetchOr l m => .m 4 l (BitVec.ofNat W m) 0
  | .cas l e v => .m 5 l (BitVec.ofNat W e) (BitVec.ofNat W v)

/-- The packet an instruction of spec/opcode_table.json stands for, its bits numbered as the table numbers
them, in a block of width `W`. The table gives a row its select bits only (R93), and the three formats
share their numbers, because they stand on three interfaces; a number is read as a command where it is
one, else as a ring select (log entry 13). A number of more than `W` bits is a whole command word (R81). -/
def tablePacket (W nbits w : Nat) : Option (Packet W) :=
  if W < nbits then
    if w < 2 ^ (3 + W) then some (.q (BitVec.ofNat (3 + W) w)) else none
  else if w < 6 then some (.q (qWord (BitVec.ofNat 3 w) 0))
  else if w < 32 then some (.r (BitVec.ofNat 5 w) 0 0)
  else none

/-- The instruction the decoder reads from a table number, at the default width; `none` where it refuses. -/
def decodeTableWord (nbits w : Nat) : Option Instr :=
  match tablePacket Config.width nbits w with
  | none => none
  | some p =>
    match decode p with
    | .ok i => some i
    | .error _ => none

end Sys2Proof
end

