-- ==== Sys2Proof/Machine/Memory.lean ====
section
/-! DEFINITION. The backing block as plain data: cells of one word each, in one canonical form
(spec/10_state.md rule R34, spec/20_memory.md rule R62). -/

namespace Sys2Proof.Machine

variable {W : Nat}

/-- The backing block: (word offset, word) cells. The block is word-addressed and holds nothing smaller
than a word (10_state.md R34, 20_memory.md R51, R55; log entry 5). -/
abbrev Mem (W : Nat) := List (Nat × Word W)

/-- The canonical form: offsets strictly rising. An offset that is not listed holds no value, so no
listed cell could equal what an unlisted one reads as (log entry 6). -/
def Mem.wf : Mem W → Bool
  | [] => true
  | [_] => true
  | (a, _) :: (b, w) :: m => decide (a < b) && Mem.wf ((b, w) :: m)

/-- The word at an offset; `none` when nothing has been stored there. -/
def Mem.read : Mem W → Nat → Option (Word W)
  | [], _ => none
  | (b, w) :: m, a => if a = b then some w else Mem.read m a

/-- Stores a word at an offset, keeping the canonical form. -/
def Mem.write : Mem W → Nat → Word W → Mem W
  | [], a, v => [(a, v)]
  | (b, w) :: m, a, v =>
    if a < b then (a, v) :: (b, w) :: m
    else if a = b then (a, v) :: m
    else (b, w) :: Mem.write m a v

end Sys2Proof.Machine
end

