-- ==== Sys2Proof/Machine/State.lean ====
section
/-! DEFINITION. The state of the block (spec/10_state.md rules R20 to R40), its outputs, its inputs and the
reasons a step can stop. -/

namespace Sys2Proof.Machine

/-- The phases of `RING_TRY_ENQ` (41_ring_buffer.md R124 to R130). -/
inductive EnqPhase where
  | e0 | e1 | e2 | e3 | e4 | e5
  deriving DecidableEq, Repr

/-- The phases of `RING_TRY_DEQ` (R132 to R140). -/
inductive DeqPhase where
  | d0 | d1 | d2 | d3 | d4 | d5 | d6 | d7
  deriving DecidableEq, Repr

/-- The phases of `RING_CATCHUP` (R142 to R144). -/
inductive CatPhase where
  | c0 | c1 | c2
  deriving DecidableEq, Repr

/-- The values of the phase register `ph` other than `IDLE` (10_state.md R24); `IDLE` is `Ctx.idle`. -/
inductive Phase where
  | x0 | y0 | u0 | k0 | q0 | q1 | p0 | p1
  | enq (e : EnqPhase)
  | deq (d : DeqPhase)
  | cat (c : CatPhase)
  deriving DecidableEq, Repr

/-- The working registers of a context that is not `IDLE` (10_state.md R21), each under the spec's name.
The `K`-bit ones are held zero-extended to a word, because `K` depends on `ORDER` (log entry 17).
`attemptWraps` is the MODEL's own: how often `attempt` has wrapped since the running reservation began
(log entry 30). `drv` is the MODEL's own: the ring operation driven directly at the context's R port, none while a
command runs (log entry 10). -/
structure Regs (W : Nat) where
  op : BitVec 3
  arg : Word W
  r : Ring
  hint : Bool
  vidx : Word W
  t : Word W
  tcyc : Word W
  h : Word W
  hcyc : Word W
  pos : Word W
  entry : Word W
  new : Word W
  attempt : Word W
  attemptWraps : Nat
  hd : Word W
  tl : Word W
  th : Word W
  cl : Word W
  idx : Word W
  val : Word W
  di : Word W
  drv : Option Instr
  deriving DecidableEq, Repr

/-- What the registers that acceptance does not write hold in a context that has just left `IDLE`. The
spec gives them no value and no rule reads them before writing them (R22). DESIGN CHOICE, log entry 8. -/
def Regs.blank {W : Nat} : Regs W where
  op := 0
  arg := 0
  r := .aq
  hint := false
  vidx := 0
  t := 0
  tcyc := 0
  h := 0
  hcyc := 0
  pos := 0
  entry := 0
  new := 0
  attempt := 0
  attemptWraps := 0
  hd := 0
  tl := 0
  th := 0
  cl := 0
  idx := 0
  val := 0
  di := 0
  drv := none

/-- A requester context (60_exceptions.md R181): `IDLE`, when it has no working registers (10_state.md
R22), or at a phase with its registers. -/
inductive Ctx (W : Nat) where
  | idle
  | busy (ph : Phase) (x : Regs W)
  deriving DecidableEq, Repr

/-- The status of a response (30_encoding.md R86); its three-bit code is `Status.code`. -/
inductive Status where
  | ok | full | empty | closed | allocFail
  deriving DecidableEq, Repr

/-- A response (R85): its status, and its data where the spec defines one. The `3 + W` bits it is made of
are `Response.word`. -/
structure Response (W : Nat) where
  status : Status
  data : Option (Word W)
  deriving DecidableEq, Repr

/-- The result of a ring operation driven directly (R87): completion only, or `(found, idx)`, with no
index where `found = 0`. -/
inductive RingResult (W : Nat) where
  | done
  | notFound
  | found (idx : Word W)
  deriving DecidableEq, Repr

/-- The result of a primitive driven directly (R88): none, one word, or `(success, observed)`. -/
inductive PrimResult (W : Nat) where
  | stored
  | word (w : Word W)
  | swapped (success : Bool) (observed : Word W)
  deriving DecidableEq, Repr

/-- What the block has produced: the responses of its contexts (R80, R85), and the results of formats R
and M at the test port (R87, R88; log entries 10, 11). -/
inductive Output (W : Nat) where
  | response (c : Nat) (resp : Response W)
  | ringResult (c : Nat) (res : RingResult W)
  | primResult (c : Nat) (res : PrimResult W)
  deriving DecidableEq, Repr

/-- What the environment can do (10_state.md R20, 20_memory.md R64): present a packet to a context; let
a context take its next step, with the `alloc_ok` drawn for it (42_bounded_queue.md R150); power the
block on (10_state.md R39). Log entries 3, 15, 16. -/
inductive Event (W : Nat) where
  | present (c : Nat) (p : Packet W)
  | run (c : Nat) (allocOk : Bool)
  | reset
  deriving DecidableEq, Repr

/-- The state of a block whose words have `W` bits. -/
structure Block (W : Nat) where
  /-- The parameters of 00_scope.md R8; the MODEL's own, written by no step (log entry 2). -/
  cfg : Params
  /-- `LIVE` (10_state.md R32). -/
  live : Bool
  /-- `ORDER` (R31). -/
  order : Nat
  /-- `CLOSED` (R26, R30). -/
  closed : Word W
  /-- The backing block (20_memory.md R62): the control words and slot arrays of both rings, and `VAL`. -/
  mem : Mem W
  /-- The contexts (60_exceptions.md R181); `NCTX` is how many there are. -/
  ctxs : List (Ctx W)
  /-- How many queues have been created; the MODEL's own, the index of `Config.freeWord` (log entry 6). -/
  life : Nat
  /-- The context the last event named; the MODEL's own (log entry 25). -/
  cur : Nat
  /-- The `alloc_ok` drawn with the last granted step; the MODEL's own (log entry 15). -/
  allocOk : Bool
  /-- What the environment does next, first event first; the MODEL's own (log entry 3). -/
  env : List (Event W)
  /-- What the block has produced, newest first; the MODEL's own (log entry 11). -/
  out : List (Output W)
  deriving DecidableEq, Repr

/-- The state of the machine: the width of its words, which is a parameter of the hardware and is written
by no step (00_scope.md R8, 70_reset_and_hazards.md R191; log entry 1), and the block of that width. -/
structure State where
  width : Nat
  block : Block width
  deriving DecidableEq, Repr

/-- Where the model stops without the spec refusing anything. The hardware itself has no fault
(60_exceptions.md R172). -/
inductive Fault where
  /-- An access to a shared location that does not exist: no queue is live, or an index is out of range
  (20_memory.md R50, R52). Raised by every primitive. Safe: the spec gives such an access no effect (log
  entry 7). -/
  | noSuchLocation
  /-- A context stands at a phase that no rule gives the operation it runs. Raised by the sequencers, only
  in states no run reaches. Safe (log entry 19). -/
  | strayPhase
  deriving DecidableEq, Repr

/-- What the model refuses: the violations of 60_exceptions.md R171, which the hardware does not detect
and for which the spec's step relation has no transition. Each is safe: the model picks no behaviour. -/
inductive Refusal where
  /-- An instruction without a meaning; raised by no arm of this model. Safe. -/
  | notModelled (mnemonic : String)
  /-- A reserved `op` (30_encoding.md R89, 93 U6). Raised by the step. Safe. -/
  | reservedOp (op : BitVec 3)
  /-- A reserved `rop` (R87, R89, 93 U7). Raised by the step. Safe. -/
  | reservedRop (rop : BitVec 3)
  /-- A reserved `mop` (R88, R89, 93 U7). Raised by the step. Safe. -/
  | reservedMop (mop : BitVec 3)
  /-- A packet for a context the block does not have (60_exceptions.md R181). Raised by the step, every
  command and every looping ring operation. Safe. -/
  | noSuchContext
  /-- A command for a context that is not `IDLE` (10_state.md R25, 93 U5); also a packet of formats R and M at
  the test port of one (DESIGN CHOICE, log entry 27). Raised by the step, every command and every looping
  ring operation. Safe. -/
  | contextBusy
  /-- Any command but `CREATE`, or a ring operation driven directly, while `LIVE = 0` (30_encoding.md R83,
  93 U1). Safe. -/
  | noQueue
  /-- `CREATE` while `LIVE = 1` (R83, 93 U2). Safe. -/
  | queueLive
  /-- `CREATE` with `order > ORDER_MAX` (30_encoding.md R84, 93 U3). Safe. -/
  | orderTooLarge
  /-- `CREATE` or `DESTROY` while another context is not `IDLE` (R171, 93 U4). Safe. -/
  | notQuiescent
  /-- `ENQUEUE`, `DEQUEUE`, `CLOSE` or `DUMP` while `X0` or `Y0` is pending in another context (R171, 93 U4),
  and a looping ring operation driven then. `RING_INIT_*` and the primitives are not refused so (log entry
  28). Safe. -/
  | lifecyclePending
  /-- `RING_TRY_ENQ` driven directly on a ring that already holds `CAP` entries (41_ring_buffer.md R123,
  R147, 93 U15). Safe. -/
  | ringFull
  /-- `RING_TRY_ENQ` driven directly with `vidx >= CAP` (R123, 93 U15). Safe. -/
  | badValueIndex
  /-- `RING_INIT_FILL` driven directly with `end > CAP` or `start > end` (R122, 93 U16). Safe. -/
  | badFillRange
  deriving DecidableEq, Repr

/-- The block right after hardware reset with the given parameters and number of contexts (10_state.md
R39, 70_reset_and_hazards.md R190): `LIVE = 0`, every context `IDLE`, no backing block. `ORDER` and
`CLOSED` hold no value in the spec: DESIGN CHOICE 0, log entry 9. The MODEL's own fields: log entry 25. -/
def Block.resetWith {W : Nat} (p : Params) (nctx : Nat) : Block W where
  cfg := p
  live := false
  order := 0
  closed := 0
  mem := []
  ctxs := List.replicate nctx .idle
  life := 0
  cur := 0
  allocOk := true
  env := []
  out := []

/-- The machine right after hardware reset: the default width of rule R8 (log entry 1) and the parameters of
log entry 2. -/
def State.reset : State where
  width := Config.width
  block := Block.resetWith Params.default Config.nctx

end Sys2Proof.Machine
end

