-- ==== Sys2Proof/Machine/Ops.lean ====
section
/-! DEFINITION. The named operations over the shared state and the contexts that every meaning is made of: the
atomic primitives (spec/20_memory.md rules R54 to R61), phase changes, command acceptance (30_encoding.md
rule R83), and the report of a status, which is all this hardware has of taking an exception
(60_exceptions.md rule R175). -/

namespace Sys2Proof.Machine

variable {W : Nat}

/-- The outcome of a step of a block. -/
abbrev Res (W : Nat) := Host.Outcome (Block W) Fault Refusal

/-- The outcome of a step of the machine. -/
abbrev Out := Host.Outcome State Fault Refusal

/-- What a step of the block is for the machine: the width of its words never changes
(70_reset_and_hazards.md R191). -/
def ofBlock {W : Nat} : Res W → Out
  | .next t => .next ⟨W, t⟩
  | .fault e => .fault e
  | .refused e => .refused e

/-- A step of the machine is a step of its block. -/
def State.onBlock (s : State) (f : Block s.width → Res s.width) : Out := ofBlock (f s.block)

/-! ### Shared locations -/

/-- `K` of the live queue. -/
def Block.k (s : Block W) : Nat := kOf s.order

/-- The location exists: a queue is live and the index is in range (20_memory.md R50, R52). -/
def Block.hasLoc (s : Block W) (l : Loc) : Bool := s.live && l.inRange s.order

/-- The word offset of a location in the state's block (R62). -/
def Block.addr (s : Block W) (l : Loc) : Nat := offset s.cfg.rot s.order l

/-- `MemRead(a, 1)` (00_scope.md R13). A word nothing has been stored to since `CREATE` is a free value
(log entry 6). -/
def Block.memRead (s : Block W) (l : Loc) : Word W :=
  match l with
  | .closed => s.closed
  | l => (Mem.read s.mem (s.addr l)).getD (Config.freeWord W s.life (s.addr l))

/-- `MemWrite(a, 1, v)` (R13). -/
def Block.memWrite (s : Block W) (l : Loc) (v : Word W) : Block W :=
  match l with
  | .closed => { s with closed := v }
  | l => { s with mem := Mem.write s.mem (s.addr l) v }

/-! ### The atomic primitives: one shared access each

Ordering is a property of each primitive (20_memory.md R67): each of the four below acts whole on the one block in
the step that runs it, a load reads what the latest store before it in the order of steps left (R64), and
nothing else orders accesses; there is no fence and no scope but the block. No primitive waits for another
context: each answers in its own step, and only `CAS` can fail, on a word that another context changed (R68). -/

/-- `LD(a)` (20_memory.md R56). -/
def ldOp (l : Loc) (s : Block W) (next : Word W → Res W) : Res W :=
  if s.hasLoc l then next (s.memRead l) else .fault .noSuchLocation

/-- `ST(a, v)` (R57). -/
def stOp (l : Loc) (v : Word W) (s : Block W) (next : Block W → Res W) : Res W :=
  if s.hasLoc l then next (s.memWrite l v) else .fault .noSuchLocation

/-- A fetch-and-modify: the old word is returned and `f` of it is stored, in one indivisible action. -/
def fetchOp (f : Word W → Word W) (l : Loc) (s : Block W) (next : Word W → Block W → Res W) : Res W :=
  if s.hasLoc l then next (s.memRead l) (s.memWrite l (f (s.memRead l)))
  else .fault .noSuchLocation

/-- `FAA(a, d)` (R58), addition modulo `2^W`. -/
def faaOp (l : Loc) (d : Word W) (s : Block W) (next : Word W → Block W → Res W) : Res W :=
  fetchOp (fun old => old + d) l s next

/-- `FSUB(a, d)` (R59), subtraction modulo `2^W`. -/
def fsubOp (l : Loc) (d : Word W) (s : Block W) (next : Word W → Block W → Res W) : Res W :=
  fetchOp (fun old => old - d) l s next

/-- `FOR(a, m)` (R60). -/
def forOp (l : Loc) (m : Word W) (s : Block W) (next : Word W → Block W → Res W) : Res W :=
  fetchOp (fun old => old ||| m) l s next

/-- `CAS(a, e, v)` (R61), strong: it fails only when the word differs from `e` (log entry 20). -/
def casOp (l : Loc) (e v : Word W) (s : Block W) (next : Bool → Word W → Block W → Res W) : Res W :=
  if s.hasLoc l then
    if s.memRead l = e then next true (s.memRead l) (s.memWrite l v)
    else next false (s.memRead l) s
  else .fault .noSuchLocation

/-! ### Contexts -/

/-- Context `c`, where the block has one (60_exceptions.md R181). -/
def Block.ctx (s : Block W) (c : Nat) : Option (Ctx W) := s.ctxs[c]?

/-- Replaces context `c`. -/
def Block.setCtx (s : Block W) (c : Nat) (x : Ctx W) : Block W := { s with ctxs := s.ctxs.set c x }

/-- Adds an output. -/
def Block.emit (s : Block W) (o : Output W) : Block W := { s with out := o :: s.out }

/-- The context is not `IDLE`. -/
def Ctx.isBusy : Ctx W → Bool
  | .idle => false
  | .busy _ _ => true

/-- `X0` or `Y0` is pending in the context (60_exceptions.md R171). -/
def Ctx.inLifecycle : Ctx W → Bool
  | .busy .x0 _ => true
  | .busy .y0 _ => true
  | _ => false

/-- The operation a context is running: the ring operation driven at its R port, else the command its
registers `op` and `arg` hold (10_state.md R21, 30_encoding.md R83). -/
def Ctx.instr : Ctx W → Option Instr
  | .idle => none
  | .busy _ x =>
    match x.drv with
    | some i => some i
    | none =>
      match decode (.q (qWord x.op x.arg)) with
      | .ok i => some i
      | .error _ => none

/-- The context the last event named stands at phase `ph` of operation `i` with registers `x`. -/
def Block.running (s : Block W) (i : Instr) (ph : Phase) (x : Regs W) : Prop :=
  s.ctx s.cur = some (.busy ph x) ∧ Ctx.instr (.busy ph x) = some i

/-- One step of an operation in the context the last event named: its acceptance when the context is
`IDLE`, the phase it stands at when the context is running it. A context that runs something else
accepts nothing (10_state.md R25). Log entry 4. -/
def onContext (i : Instr) (s : Block W) (start : Res W) (resume : Phase → Regs W → Res W) : Res W :=
  match s.ctx s.cur with
  | none => .refused .noSuchContext
  | some .idle => start
  | some (.busy ph x) =>
    if Ctx.instr (.busy ph x) = some i then resume ph x else .refused .contextBusy

/-- `ph <- P`, with the working registers as the phase leaves them. -/
def goto (ph : Phase) (x : Regs W) (s : Block W) : Res W := .next (s.setCtx s.cur (.busy ph x))

/-- The context's operation ends: `ph <- IDLE`, and the working registers hold no value any more
(10_state.md R22, R25). -/
def Block.finish (s : Block W) : Block W := s.setCtx s.cur .idle

/-- `return S`: the response is produced and `ph <- IDLE` in the same step. This is the one way the block
reports a condition; no state is saved and control goes nowhere (60_exceptions.md R170, R175). -/
def respond (status : Status) (data : Option (Word W)) (s : Block W) : Res W :=
  .next (s.finish.emit (.response s.cur ⟨status, data⟩))

/-- A ring operation driven directly ends with its result (30_encoding.md R87; log entry 10). -/
def finishRing (res : RingResult W) (s : Block W) : Res W :=
  .next (s.finish.emit (.ringResult s.cur res))

/-- A primitive driven directly ends with its result (R88; log entry 10). -/
def finishPrim (res : PrimResult W) (s : Block W) : Res W :=
  .next (s.emit (.primResult s.cur res))

/-! ### The words on the response interface (30_encoding.md R85, R86) -/

/-- The status codes (R86); 101 to 111 are reserved. -/
def Status.code : Status → BitVec 3
  | .ok => 0b000#3
  | .full => 0b001#3
  | .empty => 0b010#3
  | .closed => 0b011#3
  | .allocFail => 0b100#3

/-- The status of a code; none for a reserved one, which is never produced (R86). -/
def Status.ofCode (c : BitVec 3) : Option Status :=
  match c.toNat with
  | 0 => some .ok
  | 1 => some .full
  | 2 => some .empty
  | 3 => some .closed
  | 4 => some .allocFail
  | _ => none

/-- The `3 + W` bits of a response: `status` in bits `[W+2:W]` above `data` (R85). `undef` stands for the
data bits of a response whose data the spec leaves without a value: a model should not define them, so
whoever asks for the word supplies them (log entry 11). -/
def Response.word (r : Response W) (undef : Word W) : BitVec (3 + W) :=
  r.status.code ++ r.data.getD undef

/-! ### Acceptance (30_encoding.md R83) and its preconditions (60_exceptions.md R171) -/

/-- `LIVE = 1`, or the packet is refused. -/
def needLive (s : Block W) (next : Res W) : Res W := if s.live then next else .refused .noQueue

/-- No `X0` or `Y0` is pending, or the packet is refused. The rule speaks of commands; that the looping ring
operations at the test port are refused so, and `RING_INIT_*` and the primitives are not, is a DESIGN
CHOICE, log entry 28. -/
def needNoLifecycle (s : Block W) (next : Res W) : Res W :=
  if s.ctxs.any Ctx.inLifecycle then .refused .lifecyclePending else next

/-- Every context is `IDLE`, or the packet is refused. -/
def needQuiescent (s : Block W) (next : Res W) : Res W :=
  if s.ctxs.any Ctx.isBusy then .refused .notQuiescent else next

/-- The registers of a context that has just accepted a command: `op` and `arg` (R83). -/
def acceptedRegs (op : BitVec 3) (arg : Word W) : Regs W := { Regs.blank with op := op, arg := arg }

/-- The registers of a context at whose R port a ring operation has just been driven. -/
def drivenRegs (i : Instr) : Regs W := { Regs.blank with drv := some i }

/-! ### Starting a ring operation: no shared access, part of the step that does it -/

/-- Start of `RING_TRY_ENQ(r, vidx, hint)` (41_ring_buffer.md R123). -/
def startTryEnq (r : Ring) (hint : Bool) (vidx : Word W) (x : Regs W) (s : Block W) : Res W :=
  goto (.enq .e0) { x with r := r, hint := hint, vidx := vidx } s

/-- Start of `RING_TRY_DEQ(r, hint)`: at `D0`, or at `D1` with the hint (R131). -/
def startTryDeq (r : Ring) (hint : Bool) (x : Regs W) (s : Block W) : Res W :=
  goto (.deq (if hint then .d1 else .d0)) { x with r := r, hint := hint } s

/-- Start of `RING_CATCHUP(r, tl, hd)` (R141). -/
def startCatchup (r : Ring) (tl hd : Word W) (x : Regs W) (s : Block W) : Res W :=
  goto (.cat .c0) { x with r := r, tl := tl, hd := hd } s

/-! ### Hardware reset and hardware's lifecycle -/

/-- Hardware reset (10_state.md R39): `LIVE = 0`, every context `IDLE`, nothing else holds a value (log
entries 9, 16). The parameters, what the environment does next and what has been produced stay, and the
free values of a later queue are new ones. -/
def Block.hwReset (s : Block W) : Block W :=
  { s with
    live := false, order := 0, closed := 0, mem := [],
    ctxs := List.replicate s.ctxs.length .idle }

/-- The queue is gone (42_bounded_queue.md R161): `LIVE <- 0`, and the shared state and `ORDER` hold no
value (log entry 9). -/
def Block.release (s : Block W) : Block W :=
  { s with live := false, order := 0, closed := 0, mem := [] }

/-- A backing block for a queue of order `order` has been obtained: `ORDER` holds the order, and no word of
the block holds a value yet (42_bounded_queue.md R150; log entry 26). -/
def Block.allocate (s : Block W) (order : Nat) : Block W :=
  { s with order := order, mem := [], life := s.life + 1 }

/-- The last assignments of `X0`: `CLOSED <- 0`, `LIVE <- 1` (R150). -/
def Block.open (s : Block W) : Block W := { s with closed := 0, live := true }

end Sys2Proof.Machine
end

