-- ==== Sys2Proof/Machine/Ring.lean ====
section
/-! DEFINITION. The ring controller: initialisation, and the phases of `RING_TRY_ENQ`, `RING_TRY_DEQ` and
`RING_CATCHUP` (spec/41_ring_buffer.md rules R121 to R144). One phase is one step. -/

namespace Sys2Proof.Machine

variable {W : Nat}

/-! ### Initialisation -/

/-- The three control words of a ring. -/
def initControl (r : Ring) (head threshold tail : Word W) (s : Block W) : Block W :=
  ((s.memWrite (.head r) head).memWrite (.threshold r) threshold).memWrite (.tail r) tail

/-- `RING_INIT_EMPTY(r)` (R121): every slot `ALL1`, `head = tail = 0`, `threshold = -1`. -/
def initEmpty (r : Ring) (s : Block W) : Block W :=
  initControl r 0 all1 0
    ((List.range (nOf s.order)).foldl (fun s p => s.memWrite (.slot r p) all1) s)

/-- The word `RING_INIT_FILL` writes for counter `i` (R122). -/
def fillEntry (k start fin i : Nat) : Word W :=
  if i < start then ones (k + 1)
  else if i < fin then fillWord k i
  else all1

/-- `RING_INIT_FILL(r, start, end)` (R122). -/
def initFill (r : Ring) (start fin : Nat) (s : Block W) : Block W :=
  initControl r (BitVec.ofNat W start) (thresh s.order) (BitVec.ofNat W fin)
    ((List.range (nOf s.order)).foldl
      (fun s i =>
        s.memWrite (.slot r (mapPos s.cfg.rot s.k (BitVec.ofNat W i)).toNat)
          (fillEntry s.k start fin i)) s)

/-! ### `RING_TRY_ENQ` -/

/-- `r.array[x[pos]]`. -/
def slotOf (x : Regs W) : Loc := .slot x.r x.pos.toNat

/-- The local function `enq_next` (R126). -/
def enqNext (x : Regs W) (s : Block W) : Res W :=
  if admissibleSafe s.k x.tcyc x.entry then goto (.enq .e3) x s
  else if admissibleUnsafe s.k x.tcyc x.entry then goto (.enq .e2) x s
  else goto (.enq .e0) x s

/-- `E0`, reserve (R124). -/
def phaseE0 (x : Regs W) (s : Block W) : Res W :=
  faaOp (.tail x.r) 1 s fun t s =>
    goto (.enq .e1) { x with t := t, tcyc := cyc s.k t, pos := mapPos s.cfg.rot s.k t } s

/-- `E1`, read the slot (R125). -/
def phaseE1 (x : Regs W) (s : Block W) : Res W :=
  ldOp (slotOf x) s fun w => enqNext { x with entry := w } s

/-- `E2`, consult `head` for an unsafe empty slot (R127). -/
def phaseE2 (x : Regs W) (s : Block W) : Res W :=
  ldOp (.head x.r) s fun hd =>
    goto (.enq (if scmpLe hd x.t then .e3 else .e0)) { x with hd := hd } s

/-- `E3`, install (R128). -/
def phaseE3 (x : Regs W) (s : Block W) (ret : Regs W → Block W → Res W) : Res W :=
  casOp (slotOf x) x.entry (pack s.k x.t x.vidx) s fun ok cur s =>
    if ok then
      if x.hint then ret x s else goto (.enq .e4) x s
    else enqNext { x with entry := cur } s

/-- `E4`, read the threshold (R129). -/
def phaseE4 (x : Regs W) (s : Block W) (ret : Regs W → Block W → Res W) : Res W :=
  ldOp (.threshold x.r) s fun th =>
    if th ≠ thresh s.order then goto (.enq .e5) { x with th := th } s
    else ret { x with th := th } s

/-- `E5`, reset the threshold (R130). -/
def phaseE5 (x : Regs W) (s : Block W) (ret : Regs W → Block W → Res W) : Res W :=
  stOp (.threshold x.r) (thresh s.order) s fun s => ret x s

/-- The phases of `RING_TRY_ENQ`; `ret` is what its return does (R123, R148). -/
def tryEnqPhase (e : EnqPhase) (x : Regs W) (s : Block W) (ret : Regs W → Block W → Res W) : Res W :=
  match e with
  | .e0 => phaseE0 x s
  | .e1 => phaseE1 x s
  | .e2 => phaseE2 x s
  | .e3 => phaseE3 x s ret
  | .e4 => phaseE4 x s ret
  | .e5 => phaseE5 x s ret

/-! ### `RING_CATCHUP` -/

/-- `C0`, try to move the tail (R142). -/
def phaseC0 (x : Regs W) (s : Block W) (leave : Regs W → Block W → Res W) : Res W :=
  casOp (.tail x.r) x.tl x.hd s fun ok _ s =>
    if ok then leave x s else goto (.cat .c1) x s

/-- `C1`, reload the shared head (R143). -/
def phaseC1 (x : Regs W) (s : Block W) : Res W :=
  ldOp (.head x.r) s fun hd => goto (.cat .c2) { x with hd := hd } s

/-- `C2`, reload the tail and decide (R144). -/
def phaseC2 (x : Regs W) (s : Block W) (leave : Regs W → Block W → Res W) : Res W :=
  ldOp (.tail x.r) s fun tl =>
    if scmpGe tl x.hd then leave { x with tl := tl } s
    else goto (.cat .c0) { x with tl := tl } s

/-- The phases of `RING_CATCHUP`; `leave` is where it continues (R141). -/
def catchupPhase (c : CatPhase) (x : Regs W) (s : Block W) (leave : Regs W → Block W → Res W) : Res W :=
  match c with
  | .c0 => phaseC0 x s leave
  | .c1 => phaseC1 x s
  | .c2 => phaseC2 x s leave

/-! ### `RING_TRY_DEQ` -/

/-- `giveup` (R135): a new reservation with the hint, the emptiness check without it. -/
def giveup (x : Regs W) (s : Block W) : Res W := goto (.deq (if x.hint then .d1 else .d5)) x s

/-- `deq_next` on a full word of another traversal (R135). -/
def deqNextFull (x : Regs W) (s : Block W) : Res W :=
  let x' := { x with new := clearSafe s.k x.entry }
  if x.entry = x'.new then giveup x' s
  else if scmpLt (ecyc s.k x.entry) x.hcyc then goto (.deq .d4) x' s
  else giveup x' s

/-- How many empty words of another traversal the running reservation has read: `attempt`, and `2^W` more for each
time it has wrapped. DESIGN CHOICE, log entry 30: this count is what `SPIN_LIMIT` is compared with, so that
the spin ends after `SPIN_LIMIT + 1` loads for every `SPIN_LIMIT` (70_reset_and_hazards.md R203), also one that
no word of `W` bits passes. -/
def Regs.spins (x : Regs W) : Nat := x.attemptWraps * 2 ^ W + x.attempt.toNat

/-- `x[attempt] <- x[attempt] + 1` (R135), modulo `2^W` (40_slot_encoding.md R115), with its wraps counted (log
entry 30). -/
def Regs.countSpin (x : Regs W) : Regs W :=
  { x with
    attempt := x.attempt + 1
    attemptWraps := if x.attempt + 1 = 0 then x.attemptWraps + 1 else x.attemptWraps }

/-- `deq_next` on an empty word of another traversal (R135): spin, then force, by the count `spins` (log entry
30). -/
def deqNextEmpty (x : Regs W) (s : Block W) : Res W :=
  let x' := x.countSpin
  if x'.spins ≤ s.cfg.spinLimit then goto (.deq .d2) x' s
  else
    let x'' := { x' with new := forceWord s.k x.hcyc x.entry }
    if scmpLt (ecyc s.k x.entry) x.hcyc then goto (.deq .d4) x'' s
    else giveup x'' s

/-- The local function `deq_next` (R135). -/
def deqNext (x : Regs W) (s : Block W) : Res W :=
  if ecyc s.k x.entry = x.hcyc then goto (.deq .d3) x s
  else if isFull s.k x.entry then deqNextFull x s
  else deqNextEmpty x s

/-- `D0`, fast empty test (R132). -/
def phaseD0 (x : Regs W) (s : Block W) (ret : Bool → Regs W → Block W → Res W) : Res W :=
  ldOp (.threshold x.r) s fun th =>
    if thNegative th then ret false { x with th := th } s
    else goto (.deq .d1) { x with th := th } s

/-- `D1`, reserve (R133). -/
def phaseD1 (x : Regs W) (s : Block W) : Res W :=
  faaOp (.head x.r) 1 s fun h s =>
    goto (.deq .d2)
      { x with
        h := h, hcyc := cyc s.k h, pos := mapPos s.cfg.rot s.k h, attempt := 0,
        attemptWraps := 0 } s

/-- `D2`, read the slot (R134). -/
def phaseD2 (x : Regs W) (s : Block W) : Res W :=
  ldOp (slotOf x) s fun w => deqNext { x with entry := w } s

/-- `D3`, consume (R136). -/
def phaseD3 (x : Regs W) (s : Block W) (ret : Bool → Regs W → Block W → Res W) : Res W :=
  forOp (slotOf x) (consumeMask s.k) s fun _ s =>
    ret true { x with idx := idxOf s.k x.entry } s

/-- `D4`, mark or force (R137). -/
def phaseD4 (x : Regs W) (s : Block W) : Res W :=
  casOp (slotOf x) x.entry x.new s fun ok cur s =>
    if ok then giveup x s else deqNext { x with entry := cur } s

/-- `D5`, emptiness check (R138). -/
def phaseD5 (x : Regs W) (s : Block W) : Res W :=
  ldOp (.tail x.r) s fun tl =>
    if scmpLe tl (x.h + 1) then startCatchup x.r tl (x.h + 1) x s
    else goto (.deq .d6) { x with tl := tl } s

/-- `D6`, spend one unit of threshold; the test is on the value before the decrement (R139). -/
def phaseD6 (x : Regs W) (s : Block W) (ret : Bool → Regs W → Block W → Res W) : Res W :=
  fsubOp (.threshold x.r) 1 s fun th s =>
    if thNonPositive th then ret false { x with th := th } s
    else goto (.deq .d1) { x with th := th } s

/-- `D7`, decrement after catch-up and report empty (R140). -/
def phaseD7 (x : Regs W) (s : Block W) (ret : Bool → Regs W → Block W → Res W) : Res W :=
  fsubOp (.threshold x.r) 1 s fun _ s => ret false x s

/-- The phases `D0` to `D7` of `RING_TRY_DEQ`; `ret` is what its return does, told whether an index was
found (R131, R148). -/
def tryDeqPhase (d : DeqPhase) (x : Regs W) (s : Block W) (ret : Bool → Regs W → Block W → Res W) : Res W :=
  match d with
  | .d0 => phaseD0 x s ret
  | .d1 => phaseD1 x s
  | .d2 => phaseD2 x s
  | .d3 => phaseD3 x s ret
  | .d4 => phaseD4 x s
  | .d5 => phaseD5 x s
  | .d6 => phaseD6 x s ret
  | .d7 => phaseD7 x s ret

/-- Catch-up inside a dequeue continues at `D7` (R141). -/
def leaveToD7 (x : Regs W) (s : Block W) : Res W := goto (.deq .d7) x s

/-! ### What a ring holds -/

/-- The slot at position `p` holds an index (40_slot_encoding.md R101). -/
def Block.slotFull (s : Block W) (r : Ring) (p : Nat) : Bool := isFull s.k (s.memRead (.slot r p))

/-- How many indices are present in a ring: its full slots (42_bounded_queue.md R163; log entry 24). -/
def Block.present (s : Block W) (r : Ring) : Nat :=
  (List.range (nOf s.order)).countP fun p => s.slotFull r p

end Sys2Proof.Machine
end

