-- ==== Sys2Proof/Machine/Commands.lean ====
section
/-! DEFINITION. The meanings of format Q: the six commands of the composer (spec/42_bounded_queue.md), each as
its acceptance (30_encoding.md rule R83) and the phases its context runs. -/

namespace Sys2Proof.Machine

variable {W : Nat}

/-! ### CREATE (R150) -/

/-- The queue `X0` builds (R150, 10_state.md R40). -/
def Block.create (s : Block W) (order : Nat) : Block W :=
  (initEmpty .aq (initFill .fq 0 (capOf order) (s.allocate order))).open

/-- `X0`, the whole of `CREATE` in one step (R150). -/
def phaseX0 (x : Regs W) (s : Block W) : Res W :=
  if s.allocOk then respond .ok none (s.create x.arg.toNat)
  else respond .allocFail none s

/-- `CREATE(order)`: accepted while `LIVE = 0`, `order <= ORDER_MAX` and every context is `IDLE` (R150,
60_exceptions.md R171); then `X0`. -/
def blockCreate (arg : Nat) (s : Block W) : Res W :=
  onContext (.create arg) s
    (if s.live then .refused .queueLive
    else if s.cfg.orderMax < arg then .refused .orderTooLarge
    else needQuiescent s (goto .x0 (acceptedRegs 0 (BitVec.ofNat W arg)) s))
    fun ph x =>
      match ph with
      | .x0 => phaseX0 x s
      | _ => .fault .strayPhase

/-- The meaning of `CREATE`, in a machine of any width. -/
def execCreate (arg : Nat) (s : State) : Out := s.onBlock (blockCreate arg)

/-! ### ENQUEUE (R151 to R155) -/

/-- `Q0`, closed test (R152). -/
def phaseQ0 (x : Regs W) (s : Block W) : Res W :=
  ldOp .closed s fun cl =>
    if isClosed cl then respond .closed none s
    else startTryDeq .fq s.cfg.fqHint { x with cl := cl } s

/-- The claim of a free index returns (R153). -/
def claimedFree (found : Bool) (x : Regs W) (s : Block W) : Res W :=
  if found then goto .q1 x s else respond .full none s

/-- `Q1`, write the value and start the publication (R154). -/
def phaseQ1 (x : Regs W) (s : Block W) : Res W :=
  stOp (.val x.idx.toNat) x.arg s fun s => startTryEnq .aq false x.idx x s

/-- The publication returns (R155). -/
def published (_ : Regs W) (s : Block W) : Res W := respond .ok none s

/-- `ENQUEUE(value)`: accepted while `LIVE = 1`; then `Q0`, `RING_TRY_DEQ` on `FQ`, `Q1`, `RING_TRY_ENQ` on
`AQ` (R151). -/
def blockEnqueue (arg : Nat) (s : Block W) : Res W :=
  onContext (.enqueue arg) s
    (needLive s (needNoLifecycle s (goto .q0 (acceptedRegs 1 (BitVec.ofNat W arg)) s)))
    fun ph x =>
      match ph with
      | .q0 => phaseQ0 x s
      | .deq d => tryDeqPhase d x s claimedFree
      | .cat c => catchupPhase c x s leaveToD7
      | .q1 => phaseQ1 x s
      | .enq e => tryEnqPhase e x s published
      | _ => .fault .strayPhase

/-- The meaning of `ENQUEUE`, in a machine of any width. -/
def execEnqueue (arg : Nat) (s : State) : Out := s.onBlock (blockEnqueue arg)

/-! ### DEQUEUE (R156 to R159) -/

/-- The claim of a value returns (R157). -/
def claimedValue (found : Bool) (x : Regs W) (s : Block W) : Res W :=
  goto (if found then .p1 else .p0) x s

/-- `P0`, closed test after an empty result (R158). -/
def phaseP0 (_ : Regs W) (s : Block W) : Res W :=
  ldOp .closed s fun cl => respond (if isClosed cl then .closed else .empty) none s

/-- `P1`, read the value and start the release of its index (R159). -/
def phaseP1 (x : Regs W) (s : Block W) : Res W :=
  ldOp (.val x.idx.toNat) s fun v =>
    startTryEnq .fq s.cfg.fqHint x.idx { x with val := v } s

/-- The release returns (R159). -/
def released (x : Regs W) (s : Block W) : Res W := respond .ok (some x.val) s

/-- `DEQUEUE()`: accepted while `LIVE = 1`, which starts `RING_TRY_DEQ` on `AQ` (R157); then `P0`, or `P1`
and `RING_TRY_ENQ` on `FQ` (R156). -/
def blockDequeue (arg : Nat) (s : Block W) : Res W :=
  onContext (.dequeue arg) s
    (needLive s (needNoLifecycle s (startTryDeq .aq false (acceptedRegs 2 (BitVec.ofNat W arg)) s)))
    fun ph x =>
      match ph with
      | .deq d => tryDeqPhase d x s claimedValue
      | .cat c => catchupPhase c x s leaveToD7
      | .p0 => phaseP0 x s
      | .p1 => phaseP1 x s
      | .enq e => tryEnqPhase e x s released
      | _ => .fault .strayPhase

/-- The meaning of `DEQUEUE`, in a machine of any width. -/
def execDequeue (arg : Nat) (s : State) : Out := s.onBlock (blockDequeue arg)

/-! ### CLOSE (R160) -/

/-- `K0` (R160). -/
def phaseK0 (_ : Regs W) (s : Block W) : Res W :=
  faaOp .closed 1 s fun _ s => respond .ok none s

/-- `CLOSE()`: accepted while `LIVE = 1`; then `K0`. -/
def blockClose (arg : Nat) (s : Block W) : Res W :=
  onContext (.close arg) s
    (needLive s (needNoLifecycle s (goto .k0 (acceptedRegs 3 (BitVec.ofNat W arg)) s)))
    fun ph x =>
      match ph with
      | .k0 => phaseK0 x s
      | _ => .fault .strayPhase

/-- The meaning of `CLOSE`, in a machine of any width. -/
def execClose (arg : Nat) (s : State) : Out := s.onBlock (blockClose arg)

/-! ### DESTROY (R161) -/

/-- `Y0` (R161). -/
def phaseY0 (_ : Regs W) (s : Block W) : Res W := respond .ok none s.release

/-- `DESTROY()`: accepted while `LIVE = 1` and every context is `IDLE` (R161, 60_exceptions.md R171); then
`Y0`. -/
def blockDestroy (arg : Nat) (s : Block W) : Res W :=
  onContext (.destroy arg) s
    (needLive s (needQuiescent s (goto .y0 (acceptedRegs 4 (BitVec.ofNat W arg)) s)))
    fun ph x =>
      match ph with
      | .y0 => phaseY0 x s
      | _ => .fault .strayPhase

/-- The meaning of `DESTROY`, in a machine of any width. -/
def execDestroy (arg : Nat) (s : State) : Out := s.onBlock (blockDestroy arg)

/-! ### DUMP (R162) -/

/-- `U0`: one response; the last one ends the command (R162). -/
def phaseU0 (x : Regs W) (s : Block W) : Res W :=
  ldOp (.val x.di.toNat) s fun d =>
    if x.di = BitVec.ofNat W (capOf s.order - 1) then respond .ok (some d) s
    else goto .u0 { x with di := x.di + 1 } (s.emit (.response s.cur ⟨.ok, some d⟩))

/-- `DUMP()`: accepted while `LIVE = 1`, with `x[di] <- 0`; then `U0`, `CAP` times. -/
def blockDump (arg : Nat) (s : Block W) : Res W :=
  onContext (.dump arg) s
    (needLive s (needNoLifecycle s (goto .u0 { acceptedRegs 5 (BitVec.ofNat W arg) with di := 0 } s)))
    fun ph x =>
      match ph with
      | .u0 => phaseU0 x s
      | _ => .fault .strayPhase

/-- The meaning of `DUMP`, in a machine of any width. -/
def execDump (arg : Nat) (s : State) : Out := s.onBlock (blockDump arg)

end Sys2Proof.Machine
end

