-- ==== Sys2Proof/Machine/Primitives.lean ====
section
/-! DEFINITION. The meanings of format M: the atomic primitives (spec/20_memory.md rules R56 to R61) driven
directly, each one shared access and its result (30_encoding.md rule R88; log entry 10). The spec gives the test
port no rule of acceptance: a primitive is run whenever its location exists, whatever the other contexts are at,
also while `Y0` is pending in one (DESIGN CHOICE, log entry 28). -/

namespace Sys2Proof.Machine

variable {W : Nat}

/-- `LD(a)` (R56); accepted as log entry 28 says. -/
def blockLd (l : Loc) (s : Block W) : Res W :=
  ldOp l s fun w => finishPrim (.word w) s

/-- The meaning of `LD`, in a machine of any width; when it is accepted is a DESIGN CHOICE, log entry 28. -/
def execLd (l : Loc) (s : State) : Out := s.onBlock (blockLd l)

/-- `ST(a, v)` (R57); accepted as log entry 28 says. -/
def blockSt (l : Loc) (v : Nat) (s : Block W) : Res W :=
  stOp l (BitVec.ofNat W v) s fun s => finishPrim .stored s

/-- The meaning of `ST`, in a machine of any width; when it is accepted is a DESIGN CHOICE, log entry 28. -/
def execSt (l : Loc) (v : Nat) (s : State) : Out := s.onBlock (blockSt l v)

/-- `FAA(a, d)` (R58); accepted as log entry 28 says. -/
def blockFaa (l : Loc) (d : Nat) (s : Block W) : Res W :=
  faaOp l (BitVec.ofNat W d) s fun old s => finishPrim (.word old) s

/-- The meaning of `FAA`, in a machine of any width; when it is accepted is a DESIGN CHOICE, log entry 28. -/
def execFaa (l : Loc) (d : Nat) (s : State) : Out := s.onBlock (blockFaa l d)

/-- `FSUB(a, d)` (R59); accepted as log entry 28 says. -/
def blockFsub (l : Loc) (d : Nat) (s : Block W) : Res W :=
  fsubOp l (BitVec.ofNat W d) s fun old s => finishPrim (.word old) s

/-- The meaning of `FSUB`, in a machine of any width; when it is accepted is a DESIGN CHOICE, log entry 28. -/
def execFsub (l : Loc) (d : Nat) (s : State) : Out := s.onBlock (blockFsub l d)

/-- `FOR(a, m)` (R60); accepted as log entry 28 says. -/
def blockFor (l : Loc) (m : Nat) (s : Block W) : Res W :=
  forOp l (BitVec.ofNat W m) s fun old s => finishPrim (.word old) s

/-- The meaning of `FOR`, in a machine of any width; when it is accepted is a DESIGN CHOICE, log entry 28. -/
def execFor (l : Loc) (m : Nat) (s : State) : Out := s.onBlock (blockFor l m)

/-- `CAS(a, e, v)` (R61); accepted as log entry 28 says. -/
def blockCas (l : Loc) (e v : Nat) (s : Block W) : Res W :=
  casOp l (BitVec.ofNat W e) (BitVec.ofNat W v) s fun ok cur s => finishPrim (.swapped ok cur) s

/-- The meaning of `CAS`, in a machine of any width; when it is accepted is a DESIGN CHOICE, log entry 28. -/
def execCas (l : Loc) (e v : Nat) (s : State) : Out := s.onBlock (blockCas l e v)

end Sys2Proof.Machine
end

