-- ==== Sys2Proof/Machine/RingOps.lean ====
section
/-! DEFINITION. The meanings of format R: the ring operations (spec/41_ring_buffer.md) driven directly at a
context's R port (30_encoding.md rule R87; log entry 10). The composer runs the same phases. Which
contexts may be busy meanwhile is log entry 28. -/

namespace Sys2Proof.Machine

variable {W : Nat}

/-- `RING_INIT_EMPTY(r)` (R121), one step. The spec runs it inside `X0` only, with no other context active;
driven at the test port it is accepted whenever a queue is live, also while other contexts are in the middle
of operations or at `Y0` (DESIGN CHOICE, log entry 28). -/
def blockRingInitEmpty (r : Ring) (s : Block W) : Res W :=
  needLive s (.next ((initEmpty r s).emit (.ringResult s.cur .done)))

/-- The meaning of `RING_INIT_EMPTY`, in a machine of any width; when it is accepted is a DESIGN CHOICE, log entry 28. -/
def execRingInitEmpty (r : Ring) (s : State) : Out := s.onBlock (blockRingInitEmpty r)

/-- `RING_INIT_FILL(r, start, end)` (R122), one step; its range is a precondition (93 U16). Driven at the test
port it is accepted as `RING_INIT_EMPTY` is (DESIGN CHOICE, log entry 28). -/
def blockRingInitFill (r : Ring) (start fin : Nat) (s : Block W) : Res W :=
  needLive s
    (if start ≤ fin ∧ fin ≤ capOf s.order then
      .next ((initFill r start fin s).emit (.ringResult s.cur .done))
    else .refused .badFillRange)

/-- The meaning of `RING_INIT_FILL`, in a machine of any width; when it is accepted is a DESIGN CHOICE, log entry 28. -/
def execRingInitFill (r : Ring) (start fin : Nat) (s : State) : Out := s.onBlock (blockRingInitFill r start fin)

/-- `RING_TRY_ENQ(r, vidx, hint)` (R123 to R130): its start, whose preconditions are 93 U15's, or the phase
the context stands at; its return is completion only. -/
def blockRingTryEnq (r : Ring) (hint : Bool) (vidx : Nat) (s : Block W) : Res W :=
  onContext (.ringTryEnq r hint vidx) s
    (needLive s (needNoLifecycle s
      (if capOf s.order ≤ vidx then .refused .badValueIndex
      else if capOf s.order ≤ s.present r then .refused .ringFull
      else startTryEnq r hint (BitVec.ofNat W vidx) (drivenRegs (.ringTryEnq r hint vidx)) s)))
    fun ph x =>
      match ph with
      | .enq e => tryEnqPhase e x s fun _ s => finishRing .done s
      | _ => .fault .strayPhase

/-- The meaning of `RING_TRY_ENQ`, in a machine of any width. -/
def execRingTryEnq (r : Ring) (hint : Bool) (vidx : Nat) (s : State) : Out :=
  s.onBlock (blockRingTryEnq r hint vidx)

/-- `RING_TRY_DEQ(r, hint)` (R131 to R140): its start, or the phase the context stands at; it returns
`(found, idx)`. -/
def blockRingTryDeq (r : Ring) (hint : Bool) (s : Block W) : Res W :=
  onContext (.ringTryDeq r hint) s
    (needLive s (needNoLifecycle s (startTryDeq r hint (drivenRegs (.ringTryDeq r hint)) s)))
    fun ph x =>
      match ph with
      | .deq d =>
        tryDeqPhase d x s fun found x s => finishRing (if found then .found x.idx else .notFound) s
      | .cat c => catchupPhase c x s leaveToD7
      | _ => .fault .strayPhase

/-- The meaning of `RING_TRY_DEQ`, in a machine of any width. -/
def execRingTryDeq (r : Ring) (hint : Bool) (s : State) : Out := s.onBlock (blockRingTryDeq r hint)

/-- `RING_CATCHUP(r, tl, hd)` (R141 to R144): its start, or the phase the context stands at. Driven
directly it ends where the composer's would continue at `D7` (log entry 10), and it takes any `tl` and `hd`,
also a `tl` ahead of `hd`, which `D5` never gives it and with which `C0` moves the tail backward (DESIGN
CHOICE, log entry 29). -/
def blockRingCatchup (r : Ring) (tl hd : Nat) (s : Block W) : Res W :=
  onContext (.ringCatchup r tl hd) s
    (needLive s (needNoLifecycle s
      (startCatchup r (BitVec.ofNat W tl) (BitVec.ofNat W hd) (drivenRegs (.ringCatchup r tl hd)) s)))
    fun ph x =>
      match ph with
      | .cat c => catchupPhase c x s fun _ s => finishRing .done s
      | _ => .fault .strayPhase

/-- The meaning of `RING_CATCHUP`, in a machine of any width; that it takes any operands is a DESIGN CHOICE, log
entry 29. -/
def execRingCatchup (r : Ring) (tl hd : Nat) (s : State) : Out := s.onBlock (blockRingCatchup r tl hd)

end Sys2Proof.Machine
end

