-- ==== Sys2Proof/Machine/Dispatch.lean ====
section
/-! DEFINITION. The meaning of every operation, one arm per constructor of Instr. -/

namespace Sys2Proof.Machine

def exec (i : Instr) (s : State) : Host.Outcome State Fault Refusal :=
  match i with
  | .create arg => Sys2Proof.Machine.execCreate arg s
  | .enqueue arg => Sys2Proof.Machine.execEnqueue arg s
  | .dequeue arg => Sys2Proof.Machine.execDequeue arg s
  | .close arg => Sys2Proof.Machine.execClose arg s
  | .destroy arg => Sys2Proof.Machine.execDestroy arg s
  | .dump arg => Sys2Proof.Machine.execDump arg s
  | .ringInitEmpty r => Sys2Proof.Machine.execRingInitEmpty r s
  | .ringInitFill r start fin => Sys2Proof.Machine.execRingInitFill r start fin s
  | .ringTryEnq r hint vidx => Sys2Proof.Machine.execRingTryEnq r hint vidx s
  | .ringTryDeq r hint => Sys2Proof.Machine.execRingTryDeq r hint s
  | .ringCatchup r tl hd => Sys2Proof.Machine.execRingCatchup r tl hd s
  | .ld l => Sys2Proof.Machine.execLd l s
  | .st l v => Sys2Proof.Machine.execSt l v s
  | .faa l d => Sys2Proof.Machine.execFaa l d s
  | .fsub l d => Sys2Proof.Machine.execFsub l d s
  | .fetchOr l m => Sys2Proof.Machine.execFor l m s
  | .cas l expected new => Sys2Proof.Machine.execCas l expected new s

end Sys2Proof.Machine
end

