-- ==== Sys2Proof/Machine/Fetch.lean ====
section
/-! DEFINITION. What the environment makes the block do next: which operation, in which context (spec/20_memory.md
rule R64, spec/30_encoding.md rules R80, R83, R89). -/

namespace Sys2Proof.Machine

variable {W : Nat}

/-- What the next event comes to: an operation to run in a state, or an outcome already settled. -/
inductive Fetched (W : Nat) where
  | run (i : Instr) (s : Block W)
  | settled (r : Res W)

/-- The refusal of a packet the decoder reads no operation from (R89). -/
def refusalOf : DecodeError → Refusal
  | .reservedOp op => .reservedOp op
  | .reservedRop rop => .reservedRop rop
  | .reservedMop mop => .reservedMop mop

/-- A packet presented to context `c`. A context that is not `IDLE` accepts nothing (10_state.md R25). -/
def fetchPresented (c : Nat) (p : Packet W) (s : Block W) : Fetched W :=
  match s.ctx c with
  | none => .settled (.refused .noSuchContext)
  | some (.busy _ _) => .settled (.refused .contextBusy)
  | some .idle =>
    match decode p with
    | .ok i => .run i { s with cur := c }
    | .error e => .settled (.refused (refusalOf e))

/-- A step granted to context `c`, with the `alloc_ok` drawn for it (42_bounded_queue.md R150): the context
goes on with the operation it is running. An `IDLE` context has no phase to execute and nothing happens
(10_state.md R25, 60_exceptions.md R183; log entry 14). -/
def fetchGranted (c : Nat) (allocOk : Bool) (s : Block W) : Fetched W :=
  match s.ctx c with
  | none => .settled (.refused .noSuchContext)
  | some .idle => .settled (.next s)
  | some (.busy ph x) =>
    match Ctx.instr (.busy ph x) with
    | some i => .run i { s with cur := c, allocOk := allocOk }
    | none => .settled (.fault .strayPhase)

/-- Takes the next event of the environment; with no event nothing happens (log entry 3). -/
def fetch (s : Block W) : Fetched W :=
  match s.env with
  | [] => .settled (.next s)
  | .present c p :: rest => fetchPresented c p { s with env := rest }
  | .run c allocOk :: rest => fetchGranted c allocOk { s with env := rest }
  | .reset :: rest => .settled (.next { s with env := rest }.hwReset)

/-- Context 0 is `IDLE` and the next event presents the packet to it (log entry 13). -/
def Block.placePacket (s : Block W) (p : Packet W) : Block W :=
  { s with ctxs := s.ctxs.set 0 .idle, env := .present 0 p :: s.env }

/-- A packet with a reserved operation code, for a number that is no packet of any format. -/
def reservedPacket : Packet W := .q (qWord 7 0)

end Sys2Proof.Machine
end

