-- ==== Sys2Proof/Machine/Step.lean ====
section
/-! DEFINITION. One step of the block: the next event of the environment (log entry 3). -/

namespace Sys2Proof.Machine

/-- One step: an acceptance, one phase of one context (spec/00_scope.md rule R14), a packet at the test
port, a hardware reset, or nothing. The order of the steps is the one order of all accesses (20_memory.md
R64), and no operation only orders others (R67). -/
def step (s : State) : Host.Outcome State Fault Refusal :=
  match fetch s.block with
  | .run i t => exec i ⟨s.width, t⟩
  | .settled r => s.onBlock fun _ => r

/-- `s` with a table number placed where the next step takes its operation from: a packet presented to
context 0 (log entry 13). -/
def State.withFetchWord (s : State) (nbits w : Nat) : State :=
  match tablePacket s.width nbits w with
  | some p => ⟨s.width, s.block.placePacket p⟩
  | none => ⟨s.width, s.block.placePacket reservedPacket⟩

end Sys2Proof.Machine
end

