-- ==== Sys2Proof/Safety.lean ====
section
/-! DEFINITION. What a good state and a good step of the block are, in the terms the statements use: what a step leaves
as it was, what a ring operation's return is for each caller, and the invariant of the block. -/

namespace Sys2Proof.Machine

variable {W : Nat}

/-! ### What a step leaves as it was -/

/-- `t` is `s` but for context `c`, the locations listed and what has been produced: every word of the
block outside them reads as before, `CLOSED` too unless it is listed, and so do the lifecycle registers,
the parameters, the other contexts and what the environment does. -/
structure Frame (s t : Block W) (c : Nat) (locs : List Loc) : Prop where
  mem : ∀ a, (∀ l ∈ locs, l ≠ .closed → a ≠ s.addr l) → Mem.read t.mem a = Mem.read s.mem a
  closed : Loc.closed ∉ locs → t.closed = s.closed
  live : t.live = s.live
  order : t.order = s.order
  cfg : t.cfg = s.cfg
  life : t.life = s.life
  env : t.env = s.env
  cur : t.cur = s.cur
  allocOk : t.allocOk = s.allocOk
  nctx : t.ctxs.length = s.ctxs.length
  others : ∀ d, d ≠ c → t.ctx d = s.ctx d

/-! ### Which operations run which ring phases (41_ring_buffer.md R123, R131, R141, R148) -/

/-- The operation runs the phases of `RING_TRY_ENQ`. -/
def runsEnq : Instr → Bool
  | .enqueue _ => true
  | .dequeue _ => true
  | .ringTryEnq _ _ _ => true
  | _ => false

/-- The operation runs the phases of `RING_TRY_DEQ`. -/
def runsDeq : Instr → Bool
  | .enqueue _ => true
  | .dequeue _ => true
  | .ringTryDeq _ _ => true
  | _ => false

/-- The operation runs the phases of `RING_CATCHUP`. -/
def runsCat : Instr → Bool
  | .enqueue _ => true
  | .dequeue _ => true
  | .ringTryDeq _ _ => true
  | .ringCatchup _ _ _ => true
  | _ => false

/-- What the return of `RING_TRY_ENQ` produces: the `OK` of `ENQUEUE` (42_bounded_queue.md R155), the `OK`
of `DEQUEUE` with the value (R159), or, directly driven, completion (30_encoding.md R87, log entry 10). -/
def enqOutput (c : Nat) (x : Regs W) : Instr → Output W
  | .enqueue _ => .response c ⟨.ok, none⟩
  | .dequeue _ => .response c ⟨.ok, some x.val⟩
  | _ => .ringResult c .done

/-- `RING_TRY_ENQ` has returned: the context is `IDLE` and has produced what its caller says. -/
def EnqReturned (i : Instr) (x : Regs W) (s t : Block W) : Prop :=
  t.ctx s.cur = some .idle ∧ t.out = enqOutput s.cur x i :: s.out

/-- `RING_TRY_DEQ` has returned with registers `x`: `ENQUEUE` goes to `Q1` or answers `FULL` (R153),
`DEQUEUE` goes to `P1` or `P0` (R157), a directly driven one answers `(found, idx)` (30_encoding.md R87, log
entry 10). -/
def DeqReturned (i : Instr) (found : Bool) (x : Regs W) (s t : Block W) : Prop :=
  match i with
  | .enqueue _ =>
    if found then t.ctx s.cur = some (.busy .q1 x) ∧ t.out = s.out
    else t.ctx s.cur = some .idle ∧ t.out = .response s.cur ⟨.full, none⟩ :: s.out
  | .dequeue _ => t.ctx s.cur = some (.busy (if found then .p1 else .p0) x) ∧ t.out = s.out
  | _ =>
    t.ctx s.cur = some .idle ∧
      t.out = .ringResult s.cur (if found then .found x.idx else .notFound) :: s.out

/-- The context stands at phase `ph` with registers `x` and nothing has been produced. -/
def At (ph : Phase) (x : Regs W) (s t : Block W) : Prop :=
  t.ctx s.cur = some (.busy ph x) ∧ t.out = s.out

/-- `RING_CATCHUP` has been left with registers `x`: a dequeue goes on at `D7` (41_ring_buffer.md R141), a
directly driven one has completed (30_encoding.md R87, log entry 10). -/
def CatLeft (i : Instr) (x : Regs W) (s t : Block W) : Prop :=
  match i with
  | .ringCatchup _ _ _ =>
    t.ctx s.cur = some .idle ∧ t.out = .ringResult s.cur .done :: s.out
  | _ => At (.deq .d7) x s t

/-- The responses a command can produce (30_encoding.md R82, R85, R86). -/
def mayAnswer : Instr → Response W → Bool
  | .create _, ⟨.ok, none⟩ => true
  | .create _, ⟨.allocFail, none⟩ => true
  | .enqueue _, ⟨.ok, none⟩ => true
  | .enqueue _, ⟨.full, none⟩ => true
  | .enqueue _, ⟨.closed, none⟩ => true
  | .dequeue _, ⟨.ok, some _⟩ => true
  | .dequeue _, ⟨.empty, none⟩ => true
  | .dequeue _, ⟨.closed, none⟩ => true
  | .close _, ⟨.ok, none⟩ => true
  | .destroy _, ⟨.ok, none⟩ => true
  | .dump _, ⟨.ok, some _⟩ => true
  | _, _ => false

/-! ### The local functions of the ring controller, as relations on the registers -/

/-- The phase `enq_next(entry)` sets (41_ring_buffer.md R126). -/
def enqNextPhase (k : Nat) (tcyc entry : Word W) : Phase :=
  let e := ecyc k entry
  if scmpLt e tcyc = true ∧ entry = e then .enq .e3
  else if scmpLt e tcyc = true ∧ entry = e ^^^ nBit k then .enq .e2
  else .enq .e0

/-- The phase `giveup` sets (R135). -/
def giveupPhase (hint : Bool) : Phase := if hint then .deq .d1 else .deq .d5

/-- What `deq_next(entry)` makes of registers `x`: the phase it sets and the registers it leaves (R135). That
`SPIN_LIMIT` is compared with the count `spins`, which goes on where `attempt` wraps, is log entry 30. -/
def DeqNext (p : Params) (k : Nat) (x : Regs W) (ph : Phase) (y : Regs W) : Prop :=
  let e := ecyc k x.entry
  if e = x.hcyc then ph = .deq .d3 ∧ y = x
  else if x.entry ||| nBit k ≠ e then
    y = { x with new := clearSafe k x.entry } ∧
      ph = if x.entry ≠ clearSafe k x.entry ∧ scmpLt e x.hcyc = true then .deq .d4
        else giveupPhase x.hint
  else if x.spins + 1 ≤ p.spinLimit then
    y = { x with attempt := x.attempt + 1, attemptWraps := (x.spins + 1) / 2 ^ W } ∧ ph = .deq .d2
  else
    y =
        { x with
          attempt := x.attempt + 1, attemptWraps := (x.spins + 1) / 2 ^ W,
          new := forceWord k x.hcyc x.entry } ∧
      ph = if scmpLt e x.hcyc = true then .deq .d4 else giveupPhase x.hint

/-! ### The invariant -/

/-- The phases an operation runs (10_state.md R24; 42_bounded_queue.md; 41_ring_buffer.md). -/
def phaseOf : Instr → Phase → Bool
  | .create _, .x0 => true
  | .destroy _, .y0 => true
  | .dump _, .u0 => true
  | .close _, .k0 => true
  | .enqueue _, .q0 => true
  | .enqueue _, .q1 => true
  | .enqueue _, .enq _ => true
  | .enqueue _, .deq _ => true
  | .enqueue _, .cat _ => true
  | .dequeue _, .p0 => true
  | .dequeue _, .p1 => true
  | .dequeue _, .enq _ => true
  | .dequeue _, .deq _ => true
  | .dequeue _, .cat _ => true
  | .ringTryEnq _ _ _, .enq _ => true
  | .ringTryDeq _ _, .deq _ => true
  | .ringTryDeq _ _, .cat _ => true
  | .ringCatchup _ _ _, .cat _ => true
  | _, _ => false

/-- The ring and the hint a ring phase runs with, by its caller (42_bounded_queue.md R152, R154, R157,
R159): `(x[op], x[r])` identifies the caller. -/
def ringOk (p : Params) : Instr → Phase → Regs W → Prop
  | .enqueue _, .enq _, x => x.r = .aq ∧ x.hint = false
  | .enqueue _, .deq _, x => x.r = .fq ∧ x.hint = p.fqHint
  | .enqueue _, .cat _, x => x.r = .fq ∧ x.hint = p.fqHint
  | .dequeue _, .enq _, x => x.r = .fq ∧ x.hint = p.fqHint
  | .dequeue _, .deq _, x => x.r = .aq ∧ x.hint = false
  | .dequeue _, .cat _, x => x.r = .aq ∧ x.hint = false
  | .ringTryEnq r hint _, _, x => x.r = r ∧ x.hint = hint
  | .ringTryDeq r hint, _, x => x.r = r ∧ x.hint = hint
  | .ringCatchup r _ _, _, x => x.r = r
  | _, _, _ => True

/-- Phases of `RING_TRY_DEQ` and `RING_CATCHUP` that run without the hint only (41_ring_buffer.md R131,
R132, R138). -/
def hintFree : Phase → Bool
  | .deq .d0 => true
  | .deq .d5 => true
  | .deq .d6 => true
  | .deq .d7 => true
  | .cat _ => true
  | _ => false

/-- What holds of a context that is not `IDLE`: it runs one operation, at a phase of it, with the ring and
hint of its caller; its `K`-bit registers fit (10_state.md R21); a queue is live unless it is at `X0`. -/
structure CtxOk (s : Block W) (ph : Phase) (x : Regs W) : Prop where
  instr : ∃ i, Ctx.instr (.busy ph x) = some i ∧ phaseOf i ph = true ∧ ringOk s.cfg i ph x
  noHint : hintFree ph = true → x.hint = false
  pos : x.pos.toNat < nOf s.order
  idx : x.idx.toNat < nOf s.order
  vidx : x.vidx.toNat < nOf s.order
  di : ph = .u0 → x.di.toNat < capOf s.order
  live : s.live = true ↔ ph ≠ .x0
  order : ph = .x0 → x.arg.toNat ≤ s.cfg.orderMax

/-- The invariant of a block. -/
structure Block.Inv (s : Block W) : Prop where
  /-- `ORDER_MAX + 4 <= W` and `NCTX >= 1` (00_scope.md R8). -/
  params : s.cfg.wf W s.ctxs.length = true
  /-- The block is in canonical form. -/
  canonical : Mem.wf s.mem = true
  /-- `ORDER` is a legal order (10_state.md R27). -/
  order_le : s.live = true → s.order ≤ s.cfg.orderMax
  /-- While `LIVE = 0` there is no block (10_state.md R32). -/
  dead : s.live = false → s.mem = [] ∧ s.order = 0 ∧ s.closed = 0
  /-- Only locations hold values: no padding word does, and nothing outside the block (20_memory.md R62). -/
  placed : ∀ a w, Mem.read s.mem a = some w → ∃ l, s.hasLoc l = true ∧ l ≠ .closed ∧ s.addr l = a
  /-- Every context that is not `IDLE` is at a phase of the operation it runs. -/
  ctx_ok : ∀ c ph x, s.ctx c = some (.busy ph x) → CtxOk s ph x
  /-- While `X0` or `Y0` is pending every other context is `IDLE` (60_exceptions.md R171). -/
  alone : ∀ c d x y, s.ctx c = some x → x.inLifecycle = true → s.ctx d = some y → d ≠ c → y = .idle

/-- The invariant of the machine. -/
def State.Inv (s : State) : Prop := s.block.Inv

/-- Every control word and every slot of a live queue holds a value (70_reset_and_hazards.md R191). -/
def Block.Initialised (s : Block W) : Prop :=
  ∀ l, s.hasLoc l = true → l ≠ .closed → (∀ i, l ≠ .val i) → Mem.read s.mem (s.addr l) ≠ none

end Sys2Proof.Machine
end

