-- ==== Sys2Proof/Certificates/Slice0/Obligations.lean ====
section
/-! DEFINITION. The statements about the block, from the numbered rules of the spec. -/

open Sys2Proof
open Sys2Proof.Machine

/-! ### Encoding (30_encoding.md) -/

/-- Words written out from the encodings of R81, R87 and R88, at `W = 64`, decode to the operations they
stand for. -/
def Obligations.SpecWordsDecode : Prop :=
  decode (W := 64) (.q 0x00000000000000001#67) = .ok (.create 1) ∧
  decode (W := 64) (.q 0x10000000000000041#67) = .ok (.enqueue 0x41) ∧
  decode (W := 64) (.q 0x20000000000000000#67) = .ok (.dequeue 0) ∧
  decode (W := 64) (.q 0x30000000000000000#67) = .ok (.close 0) ∧
  decode (W := 64) (.q 0x40000000000000000#67) = .ok (.destroy 0) ∧
  decode (W := 64) (.q 0x50000000000000000#67) = .ok (.dump 0) ∧
  decode (W := 64) (.r 0b10000#5 0 0) = .ok (.ringInitEmpty .fq) ∧
  decode (W := 64) (.r 0b00101#5 3 0) = .ok (.ringTryEnq .aq true 3) ∧
  decode (W := 64) (.r 0b10111#5 0 0) = .ok (.ringTryDeq .fq true) ∧
  decode (W := 64) (.m 0b101#3 (.tail .fq) 1 2) = .ok (.cas (.tail .fq) 1 2)

/-- At every width, decoding what the encoder wrote gives the operation back, for every operation whose
operand words fit in `W` bits, with every operand; and no packet is read as an operation whose operands do
not fit. -/
def Obligations.DecodeInvertsEncode : Prop :=
  ∀ W : Nat,
    (∀ i : Instr, i.fits W = true → decode (encode W i) = .ok i) ∧
    ∀ (p : Packet W) (i : Instr), decode p = .ok i → i.fits W = true

/-- Every command word with a defined `op` has one reading, which encodes back to the whole word; the two
reserved codes are read as nothing (R81, R82, R89). -/
def Obligations.CommandWordsHaveOneReading : Prop :=
  ∀ (W : Nat) (w : BitVec (3 + W)),
    ((qOp w).toNat < 6 → ∃ i, decode (.q w) = .ok i ∧ encode W i = .q w) ∧
    (6 ≤ (qOp w).toNat → decode (.q w) = .error (.reservedOp (qOp w)))

/-- The `3 + W` bits of a response: the status code in bits `[W+2:W]`, the data in bits `[W-1:0]` where there
is data, and bits nothing is said of where there is none (R85); the codes of the five statuses, each read
back from its code alone, and no status for the three reserved codes (R86). -/
def Obligations.ResponseWordFormat : Prop :=
  ∀ (W : Nat) (r : Response W) (u : Word W),
    (r.word u).extractLsb' W 3 = r.status.code ∧
    (∀ d, r.data = some d → (r.word u).extractLsb' 0 W = d) ∧
    (r.data = none → (r.word u).extractLsb' 0 W = u) ∧
    (Status.ok.code = 0b000#3 ∧ Status.full.code = 0b001#3 ∧ Status.empty.code = 0b010#3 ∧
      Status.closed.code = 0b011#3 ∧ Status.allocFail.code = 0b100#3) ∧
    ∀ c : BitVec 3,
      (∀ st, Status.ofCode c = some st ↔ st.code = c) ∧ (Status.ofCode c = none ↔ 5 ≤ c.toNat)

/-! ### The step and the reset -/

/-- A step runs the operation decoded from the packet presented to an idle context, and the next step of
the operation a context is running; with no event, or a step granted to an idle context, nothing happens.
The model's choice in the first clause: a command's acceptance is a step of its own (log entry 3), and
packets of formats R and M, which R80 calls internal, can be presented too, at a test port (log entry 10).
The last two clauses: the model's choice, log entries 3 and 14. -/
def Obligations.StepRunsTheOperation : Prop :=
  ∀ (W : Nat) (s : Block W) (rest : List (Event W)),
    (∀ (c : Nat) (p : Packet W) (i : Instr),
      s.env = .present c p :: rest → s.ctx c = some .idle → decode p = .ok i →
      step ⟨W, s⟩ = exec i ⟨W, { s with env := rest, cur := c }⟩) ∧
    (∀ (c : Nat) (ok : Bool) (ph : Phase) (x : Regs W) (i : Instr),
      s.env = .run c ok :: rest → s.ctx c = some (.busy ph x) →
      Ctx.instr (.busy ph x) = some i →
      step ⟨W, s⟩ = exec i ⟨W, { s with env := rest, cur := c, allocOk := ok }⟩) ∧
    (s.env = [] → step ⟨W, s⟩ = .next ⟨W, s⟩) ∧
    (∀ (c : Nat) (ok : Bool),
      s.env = .run c ok :: rest → s.ctx c = some .idle →
      step ⟨W, s⟩ = .next ⟨W, { s with env := rest }⟩)

/-- A reserved `op` presented to an idle context is refused by name (30_encoding.md R89), and a context that
is not `IDLE` accepts no command (10_state.md R25, 60_exceptions.md R171). That it accepts no packet of
formats R and M either is the model's choice, log entry 27. -/
def Obligations.PresentationsRefused : Prop :=
  ∀ (W : Nat) (s : Block W) (c : Nat) (rest : List (Event W)),
    (∀ w : BitVec (3 + W),
      s.env = .present c (.q w) :: rest → s.ctx c = some .idle → 6 ≤ (qOp w).toNat →
      step ⟨W, s⟩ = .refused (.reservedOp (qOp w))) ∧
    (∀ (p : Packet W) (ph : Phase) (x : Regs W),
      s.env = .present c p :: rest → s.ctx c = some (.busy ph x) →
      step ⟨W, s⟩ = .refused .contextBusy)

/-- After hardware reset no queue is live, every context is idle and the block holds nothing, both in the
reset state and after a reset event (10_state.md R39). That a reset can come at any time is the model's
choice, log entry 16. -/
def Obligations.ResetLeavesNoQueue : Prop :=
  (State.reset.block.live = false ∧ State.reset.block.mem = [] ∧
    ∀ c x, State.reset.block.ctx c = some x → x = .idle) ∧
  ∀ (W : Nat) (s : Block W) (rest : List (Event W)), s.env = .reset :: rest →
    ∃ t, step ⟨W, s⟩ = .next ⟨W, t⟩ ∧ t.live = false ∧ t.mem = [] ∧ t.env = rest ∧ t.cfg = s.cfg ∧
      t.ctxs.length = s.ctxs.length ∧ t.out = s.out ∧ ∀ c x, t.ctx c = some x → x = .idle

/-- The invariant holds at reset. -/
def Obligations.InvariantAtReset : Prop := State.reset.Inv

/-- Every step keeps the invariant, from every state that has it. -/
def Obligations.StepKeepsInvariant : Prop :=
  ∀ s t : State, s.Inv → step s = .next t → t.Inv

/-- Every step keeps every control word and slot of a live queue initialised. -/
def Obligations.StepKeepsInitialised : Prop :=
  ∀ (W : Nat) (s t : Block W), s.Inv → s.Initialised → step ⟨W, s⟩ = .next ⟨W, t⟩ → t.Initialised

/-- A context that is not `IDLE` always has an enabled step: a step granted to it answers a next state, but
for a value index out of range, which index conservation rules out (42_bounded_queue.md R163). -/
def Obligations.BusyContextCanStep : Prop :=
  ∀ (W : Nat) (s : Block W) (c : Nat) (ok : Bool) (ph : Phase) (x : Regs W) (rest : List (Event W)),
    s.Inv → s.env = .run c ok :: rest → s.ctx c = some (.busy ph x) →
    (ph = .q1 ∨ ph = .p1 → x.idx.toNat < capOf s.order) →
    ∃ t, step ⟨W, s⟩ = .next ⟨W, t⟩ ∧ t.env = rest

/-- A step granted to a context changes no other context's phase or registers (60_exceptions.md R181). -/
def Obligations.ContextsArePrivate : Prop :=
  ∀ (W : Nat) (s t : Block W) (c d : Nat) (ok : Bool) (rest : List (Event W)),
    s.env = .run c ok :: rest → step ⟨W, s⟩ = .next ⟨W, t⟩ → d ≠ c → t.ctx d = s.ctx d

/-- `ORDER` never changes while `LIVE = 1` (10_state.md R31), and the parameters `W`, `NCTX`, `ORDER_MAX`,
`ROT`, `SPIN_LIMIT` and `FQ_HINT` never change at all (70_reset_and_hazards.md R191). -/
def Obligations.OrderAndParametersFixed : Prop :=
  (∀ (W : Nat) (s t : Block W), s.Inv → step ⟨W, s⟩ = .next ⟨W, t⟩ → s.live = true →
    t.live = true → t.order = s.order) ∧
  ∀ s t : State, step s = .next t →
    t.width = s.width ∧ t.block.ctxs.length = s.block.ctxs.length ∧ t.block.cfg = s.block.cfg

/-- Only `CREATE` and `DESTROY` change `LIVE`, `ORDER` or which queue it is, and only `CREATE`, `DESTROY`
and `CLOSE` change `CLOSED`, among the commands and ring operations (10_state.md R26, R27, R32). -/
def Obligations.OnlyLifecycleChangesLifecycle : Prop :=
  ∀ (W : Nat) (i : Instr) (s t : Block W), exec i ⟨W, s⟩ = .next ⟨W, t⟩ →
    ((∀ a, i ≠ .create a) → (∀ a, i ≠ .destroy a) →
      t.live = s.live ∧ t.order = s.order ∧ t.life = s.life) ∧
    ((∀ a, i ≠ .create a) → (∀ a, i ≠ .destroy a) → (∀ a, i ≠ .close a) →
      (∀ v, i ≠ .st .closed v) → (∀ d, i ≠ .faa .closed d) → (∀ d, i ≠ .fsub .closed d) →
      (∀ m, i ≠ .fetchOr .closed m) → (∀ e v, i ≠ .cas .closed e v) →
      t.closed = s.closed)

/-- A command other than `DUMP` produces exactly one response, in the step in which its context returns to
`IDLE`, and none before (30_encoding.md R85, 10_state.md R25); a step of `DUMP` produces one response, or
none where it is the acceptance; every response is one that R82 and R86 give the command. -/
def Obligations.OneResponsePerCommand : Prop :=
  ∀ (W : Nat) (i : Instr) (v : Nat) (s t : Block W), exec i ⟨W, s⟩ = .next ⟨W, t⟩ →
    ((i = .create v ∨ i = .enqueue v ∨ i = .dequeue v ∨ i = .close v ∨ i = .destroy v) →
      (∃ ph x, t.ctx s.cur = some (.busy ph x) ∧ t.out = s.out) ∨
      (t.ctx s.cur = some .idle ∧
        ∃ r, mayAnswer i r = true ∧ t.out = .response s.cur r :: s.out)) ∧
    (i = .dump v →
      (s.ctx s.cur = some .idle ∧ t.out = s.out) ∨
      ∃ r, mayAnswer i r = true ∧ t.out = .response s.cur r :: s.out)

/-! ### Slot Encoding (40_slot_encoding.md) -/

/-- `cyc(c)` is the `EMPTY_SAFE` word of `c`'s traversal, and two counters have equal `cyc` exactly when
they agree in bits `[W-2:K]` (R105). -/
def Obligations.CycleWordOfTraversal : Prop :=
  ∀ W k : Nat, k + 3 ≤ W → ∀ c d : Word W,
    idxOf k (cyc k c) = bot k ∧ (cyc k c).getLsbD k = true ∧
    (∀ j, k + 1 ≤ j → j < W → (cyc k c).getLsbD j = c.getLsbD (j - 1)) ∧
    (cyc k c = cyc k d ↔ ∀ j, k ≤ j → j + 2 ≤ W → c.getLsbD j = d.getLsbD j)

/-- `pack(c, i)` has `IDX = i`, `SAFE = 1` and the `CYC` of `c`; its cycle word is `cyc(c)` and it is full
(R106, R108, R109). -/
def Obligations.PackedWordFields : Prop :=
  ∀ W order : Nat, order + 4 ≤ W → ∀ c i : Word W, i.toNat < capOf order →
    idxOf (kOf order) (pack (kOf order) c i) = i ∧
    (pack (kOf order) c i).getLsbD (kOf order) = true ∧
    (∀ j, kOf order + 1 ≤ j → j < W →
      (pack (kOf order) c i).getLsbD j = c.getLsbD (j - 1)) ∧
    ecyc (kOf order) (pack (kOf order) c i) = cyc (kOf order) c ∧
    isFull (kOf order) (pack (kOf order) c i) = true

/-- `map` restricted to `[0, N)` is a bijection onto `[0, N)` for every `ROT`, and only the low `K` bits of
a counter matter (R103, R104). -/
def Obligations.MapIsBijection : Prop :=
  ∀ W rot k : Nat, k + 3 ≤ W →
    (∀ c : Word W, (mapPos rot k c).toNat < 2 ^ k) ∧
    (∀ c : Word W, mapPos rot k (c + nBit k) = mapPos rot k c) ∧
    (∀ c d : Word W, c.toNat < 2 ^ k → d.toNat < 2 ^ k → mapPos rot k c = mapPos rot k d → c = d) ∧
    (∀ p : Word W, p.toNat < 2 ^ k → ∃ c : Word W, c.toNat < 2 ^ k ∧ mapPos rot k c = p)

/-- The signed-difference comparison orders counters that may have wrapped: laws (a), (b), (c) and (d) of
R107, for words of any width. -/
def Obligations.SignedDifferenceLaws : Prop :=
  ∀ w : Nat, 0 < w →
    (∀ x y : BitVec w, scmpLe x y = (scmpLt x y || decide (x = y))) ∧
    (∀ x y : BitVec w, scmpGe x y = !scmpLt x y) ∧
    (∀ X Y : Int, -(2 ^ (w - 1) : Int) < X - Y → X - Y < 2 ^ (w - 1) →
      scmpLt (BitVec.ofInt w X) (BitVec.ofInt w Y) = decide (X < Y) ∧
      scmpLe (BitVec.ofInt w X) (BitVec.ofInt w Y) = decide (X ≤ Y) ∧
      scmpGe (BitVec.ofInt w X) (BitVec.ofInt w Y) = decide (Y ≤ X)) ∧
    (∀ x y : BitVec w, (x - y).toNat = 2 ^ (w - 1) → scmpLt x y = true ∧ scmpLt y x = true)

/-- The four classes of a slot word are told apart by its `IDX` and `SAFE` fields, and `BOT` is no value
index, an index being below `CAP = N/2` (R101). -/
def Obligations.SlotClassesByFields : Prop :=
  ∀ W k : Nat, k + 3 ≤ W → ∀ w : Word W,
    (slotClass k w = .emptySafe ↔ idxOf k w = bot k ∧ w.getLsbD k = true) ∧
    (slotClass k w = .emptyUnsafe ↔ idxOf k w = bot k ∧ w.getLsbD k = false) ∧
    (slotClass k w = .fullSafe ↔ idxOf k w ≠ bot k ∧ w.getLsbD k = true) ∧
    (slotClass k w = .fullUnsafe ↔ idxOf k w ≠ bot k ∧ w.getLsbD k = false) ∧
    (w ||| nBit k = ecyc k w ↔ idxOf k w = bot k) ∧
    (∀ i : Nat, 2 * (i + 1) ≤ 2 ^ k → BitVec.ofNat W i ≠ bot k)

/-- `clear_safe`, the consume mask and `force` change the fields the spec says they change and no other
(R111, R112, R113). -/
def Obligations.MarkConsumeForceFields : Prop :=
  ∀ W k : Nat, k + 3 ≤ W → ∀ w hcyc : Word W, ecyc k hcyc = hcyc →
    (idxOf k (clearSafe k w) = idxOf k w ∧ (clearSafe k w).getLsbD k = false ∧
      ecyc k (clearSafe k w) = ecyc k w ∧ (clearSafe k w = w ↔ w.getLsbD k = false)) ∧
    (idxOf k (w ||| consumeMask k) = bot k ∧
      (w ||| consumeMask k).getLsbD k = w.getLsbD k ∧
      ecyc k (w ||| consumeMask k) = ecyc k w) ∧
    (idxOf k (forceWord k hcyc w) = bot k ∧ (forceWord k hcyc w).getLsbD k = w.getLsbD k ∧
      ecyc k (forceWord k hcyc w) = hcyc)

/-- The initial empty word `ALL1` is empty and safe, one traversal (`2N` in a cycle word) behind traversal 0
and so behind it in the signed comparison, and the other empty word written, `ones(K+1)`, is that of
traversal 0 (R114); the word of a filled entry is what a producer with that reservation would have published
(41_ring_buffer.md R122). -/
def Obligations.InitialSlotWords : Prop :=
  ∀ W order : Nat, order + 4 ≤ W →
    slotClass (kOf order) (all1 : Word W) = .emptySafe ∧
    cyc (kOf order) 0 = (all1 : Word W) + BitVec.ofNat W (2 * nOf order) ∧
    scmpLt (ecyc (kOf order) (all1 : Word W)) (cyc (kOf order) 0) = true ∧
    ones (kOf order + 1) = cyc (kOf order) (0 : Word W) ∧
    ∀ i : Nat, i < capOf order →
      fillWord (kOf order) i = pack (kOf order) (BitVec.ofNat W i) (BitVec.ofNat W i)

/-! ### Layout (20_memory.md R62) -/

/-- Two locations that exist have two different word offsets, and every word of the block a location names
is inside the block (R62). -/
def Obligations.LocationsDoNotOverlap : Prop :=
  ∀ (rot order : Nat) (l m : Loc), l.inRange order = true → m.inRange order = true →
    (offset rot order l = offset rot order m → l = m) ∧
    (l ≠ .closed → offset rot order l < 6 * 2 ^ rot + 2 * 2 ^ (order + 1) + 2 ^ order)

/-! ### The atomic primitives (20_memory.md R56 to R61) -/

/-- `LD` answers the word and writes nothing (R56); `ST` stores the word and returns nothing (R57). That the
primitives can be driven directly, whatever the contexts are at, is the model's choice, log entries 10 and
28. -/
def Obligations.LoadAndStore : Prop :=
  ∀ (W : Nat) (l : Loc) (v : Word W) (s : Block W), s.hasLoc l = true →
    (∃ t, exec (.ld l) ⟨W, s⟩ = .next ⟨W, t⟩ ∧
      t.out = .primResult s.cur (.word (s.memRead l)) :: s.out ∧
      t.ctx s.cur = s.ctx s.cur ∧ Frame s t s.cur []) ∧
    (∃ t, exec (.st l v.toNat) ⟨W, s⟩ = .next ⟨W, t⟩ ∧ t.memRead l = v ∧
      t.out = .primResult s.cur .stored :: s.out ∧
      t.ctx s.cur = s.ctx s.cur ∧ Frame s t s.cur [l])

/-- `FAA`, `FSUB` and `FOR` return the old word and store its sum, difference (modulo `2^W`) or bitwise or
with the operand (R58, R59, R60). Driven directly as in LoadAndStore. -/
def Obligations.FetchAndModify : Prop :=
  ∀ (W : Nat) (l : Loc) (d : Word W) (s : Block W), s.hasLoc l = true →
    (∃ t, exec (.faa l d.toNat) ⟨W, s⟩ = .next ⟨W, t⟩ ∧
      (t.memRead l).toNat = ((s.memRead l).toNat + d.toNat) % 2 ^ W ∧
      t.out = .primResult s.cur (.word (s.memRead l)) :: s.out ∧
      t.ctx s.cur = s.ctx s.cur ∧ Frame s t s.cur [l]) ∧
    (∃ t, exec (.fsub l d.toNat) ⟨W, s⟩ = .next ⟨W, t⟩ ∧
      (t.memRead l).toNat = ((s.memRead l).toNat + (2 ^ W - d.toNat)) % 2 ^ W ∧
      t.out = .primResult s.cur (.word (s.memRead l)) :: s.out ∧
      t.ctx s.cur = s.ctx s.cur ∧ Frame s t s.cur [l]) ∧
    (∃ t, exec (.fetchOr l d.toNat) ⟨W, s⟩ = .next ⟨W, t⟩ ∧
      (∀ j, (t.memRead l).getLsbD j = ((s.memRead l).getLsbD j || d.getLsbD j)) ∧
      t.out = .primResult s.cur (.word (s.memRead l)) :: s.out ∧
      t.ctx s.cur = s.ctx s.cur ∧ Frame s t s.cur [l])

/-- `CAS` installs the new word exactly when the observed word equals the expected one, and reports the
observed word either way (R61). Driven directly as in LoadAndStore. -/
def Obligations.CompareAndSwap : Prop :=
  ∀ (W : Nat) (l : Loc) (e v : Word W) (s : Block W), s.hasLoc l = true →
    (s.memRead l = e →
      ∃ t, exec (.cas l e.toNat v.toNat) ⟨W, s⟩ = .next ⟨W, t⟩ ∧ t.memRead l = v ∧
        t.out = .primResult s.cur (.swapped true e) :: s.out ∧
        t.ctx s.cur = s.ctx s.cur ∧ Frame s t s.cur [l]) ∧
    (s.memRead l ≠ e →
      ∃ t, exec (.cas l e.toNat v.toNat) ⟨W, s⟩ = .next ⟨W, t⟩ ∧
        t.out = .primResult s.cur (.swapped false (s.memRead l)) :: s.out ∧
        t.ctx s.cur = s.ctx s.cur ∧ Frame s t s.cur [])

/-- An access to a location that does not exist stops with a fault of the model's own: a primitive on it, and
a value access of `Q1` or `P1` at an index past the value array. The model's choice, log entry 7: the spec
says no such access can be generated (20_memory.md R52). -/
def Obligations.AbsentLocationFaults : Prop :=
  ∀ (W : Nat) (s : Block W),
    (∀ (l : Loc) (d e : Nat), s.hasLoc l = false →
      exec (.ld l) ⟨W, s⟩ = .fault .noSuchLocation ∧
      exec (.st l d) ⟨W, s⟩ = .fault .noSuchLocation ∧
      exec (.faa l d) ⟨W, s⟩ = .fault .noSuchLocation ∧
      exec (.fsub l d) ⟨W, s⟩ = .fault .noSuchLocation ∧
      exec (.fetchOr l d) ⟨W, s⟩ = .fault .noSuchLocation ∧
      exec (.cas l d e) ⟨W, s⟩ = .fault .noSuchLocation) ∧
    (∀ (v : Nat) (x : Regs W), capOf s.order ≤ x.idx.toNat →
      (s.running (.enqueue v) .q1 x → exec (.enqueue v) ⟨W, s⟩ = .fault .noSuchLocation) ∧
      (s.running (.dequeue v) .p1 x → exec (.dequeue v) ⟨W, s⟩ = .fault .noSuchLocation))

/-! ### Ring initialisation and driven ring operations (41_ring_buffer.md) -/

/-- `RING_INIT_EMPTY` (R121). That it can be driven directly, and whatever the other contexts are at, is the
model's choice (log entries 10 and 28). -/
def Obligations.RingInitEmptyResult : Prop :=
  ∀ (W : Nat) (r : Ring) (s : Block W), s.live = true →
    ∃ t, exec (.ringInitEmpty r) ⟨W, s⟩ = .next ⟨W, t⟩ ∧
      (∀ p, p < nOf s.order → t.memRead (.slot r p) = all1) ∧
      t.memRead (.head r) = 0 ∧ t.memRead (.threshold r) = all1 ∧ t.memRead (.tail r) = 0 ∧
      t.out = .ringResult s.cur .done :: s.out ∧ t.ctx s.cur = s.ctx s.cur ∧
      Frame s t s.cur
        ([.head r, .threshold r, .tail r] ++ (List.range (nOf s.order)).map (.slot r))

/-- `RING_INIT_FILL` (R122), with its range refused where 93 U16 says so. That it can be driven directly, and
whatever the other contexts are at, is the model's choice (log entries 10 and 28). -/
def Obligations.RingInitFillResult : Prop :=
  ∀ (W : Nat) (r : Ring) (start fin : Nat) (s : Block W), s.live = true → s.order + 4 ≤ W →
    (start ≤ fin ∧ fin ≤ capOf s.order →
      ∃ t, exec (.ringInitFill r start fin) ⟨W, s⟩ = .next ⟨W, t⟩ ∧
        (∀ i, i < nOf s.order →
          t.memRead (.slot r (mapPos s.cfg.rot s.k (BitVec.ofNat W i)).toNat) =
            if i < start then ones (s.k + 1)
            else if i < fin then BitVec.ofNat W (nOf s.order + i)
            else all1) ∧
        t.memRead (.head r) = BitVec.ofNat W start ∧ t.memRead (.tail r) = BitVec.ofNat W fin ∧
        t.memRead (.threshold r) = BitVec.ofNat W (3 * capOf s.order - 1) ∧
        t.out = .ringResult s.cur .done :: s.out ∧ t.ctx s.cur = s.ctx s.cur ∧
        Frame s t s.cur
          ([.head r, .threshold r, .tail r] ++ (List.range (nOf s.order)).map (.slot r))) ∧
    (capOf s.order < fin ∨ fin < start →
      exec (.ringInitFill r start fin) ⟨W, s⟩ = .refused .badFillRange)

/-- The three looping ring operations, driven directly at an idle context, start as R123, R131 and R141
say; `RING_TRY_ENQ` is refused where its precondition fails (93 U15). That they can be driven directly, and
that `RING_CATCHUP` takes any `tl` and `hd` then, is the model's choice (log entries 10 and 29); so is that a
`vidx` out of range is named before a full ring where both hold (log entry 18), and that a ring holds as many
entries as it has full slots is read from the spec by inference (log entry 24). -/
def Obligations.DrivenRingOperationsStart : Prop :=
  ∀ (W : Nat) (s : Block W), s.ctx s.cur = some .idle → s.live = true →
    (∀ c ph x, s.ctx c = some (.busy ph x) → ph ≠ .x0 ∧ ph ≠ .y0) →
    (∀ (r : Ring) (hint : Bool) (v : Nat),
      (v < capOf s.order → s.present r < capOf s.order →
        ∃ t x, exec (.ringTryEnq r hint v) ⟨W, s⟩ = .next ⟨W, t⟩ ∧
          t.running (.ringTryEnq r hint v) (.enq .e0) x ∧ x.r = r ∧ x.hint = hint ∧
          x.vidx = BitVec.ofNat W v ∧ t.out = s.out ∧ Frame s t s.cur []) ∧
      (capOf s.order ≤ v →
        exec (.ringTryEnq r hint v) ⟨W, s⟩ = .refused .badValueIndex) ∧
      (v < capOf s.order → capOf s.order ≤ s.present r →
        exec (.ringTryEnq r hint v) ⟨W, s⟩ = .refused .ringFull)) ∧
    (∀ (r : Ring) (hint : Bool),
      ∃ t x, exec (.ringTryDeq r hint) ⟨W, s⟩ = .next ⟨W, t⟩ ∧
        t.running (.ringTryDeq r hint) (.deq (if hint then .d1 else .d0)) x ∧
        x.r = r ∧ x.hint = hint ∧ t.out = s.out ∧ Frame s t s.cur []) ∧
    (∀ (r : Ring) (tl hd : Word W),
      ∃ t x, exec (.ringCatchup r tl.toNat hd.toNat) ⟨W, s⟩ = .next ⟨W, t⟩ ∧
        t.running (.ringCatchup r tl.toNat hd.toNat) (.cat .c0) x ∧
        x.r = r ∧ x.tl = tl ∧ x.hd = hd ∧ t.out = s.out ∧ Frame s t s.cur [])

/-! ### The phases of RING_TRY_ENQ (R124 to R130), for every operation that runs them -/

/-- `E0` takes the tail counter as its reservation (R124). -/
def Obligations.EnqReservesTail : Prop :=
  ∀ (W : Nat) (i : Instr) (x : Regs W) (s : Block W), runsEnq i = true → s.running i (.enq .e0) x →
    s.live = true →
    ∃ t, exec i ⟨W, s⟩ = .next ⟨W, t⟩ ∧ t.memRead (.tail x.r) = s.memRead (.tail x.r) + 1 ∧
      At (.enq .e1)
        { x with
          t := s.memRead (.tail x.r), tcyc := cyc s.k (s.memRead (.tail x.r)),
          pos := mapPos s.cfg.rot s.k (s.memRead (.tail x.r)) } s t ∧
      Frame s t s.cur [.tail x.r]

/-- `E1` reads the slot and tests its admissibility (R125, R126). -/
def Obligations.EnqReadsSlot : Prop :=
  ∀ (W : Nat) (i : Instr) (x : Regs W) (s : Block W), runsEnq i = true → s.running i (.enq .e1) x →
    s.hasLoc (slotOf x) = true →
    ∃ t, exec i ⟨W, s⟩ = .next ⟨W, t⟩ ∧
      At (enqNextPhase s.k x.tcyc (s.memRead (slotOf x)))
        { x with entry := s.memRead (slotOf x) } s t ∧
      Frame s t s.cur []

/-- `E2` consults `head` for an unsafe empty slot (R127). -/
def Obligations.EnqConsultsHead : Prop :=
  ∀ (W : Nat) (i : Instr) (x : Regs W) (s : Block W), runsEnq i = true → s.running i (.enq .e2) x →
    s.live = true →
    ∃ t, exec i ⟨W, s⟩ = .next ⟨W, t⟩ ∧
      At (if scmpLe (s.memRead (.head x.r)) x.t then .enq .e3 else .enq .e0)
        { x with hd := s.memRead (.head x.r) } s t ∧
      Frame s t s.cur []

/-- `E3` installs the packed word, or tests the observed word again under the same reservation (R128); with
the hint it returns to its caller, `DEQUEUE` (R159). That a directly driven operation completes there and
leaves its context `IDLE` (R87) is the model's choice, log entry 10. -/
def Obligations.EnqInstalls : Prop :=
  ∀ (W : Nat) (i : Instr) (x : Regs W) (s : Block W), runsEnq i = true → s.running i (.enq .e3) x →
    s.hasLoc (slotOf x) = true →
    (s.memRead (slotOf x) = x.entry →
      ∃ t, exec i ⟨W, s⟩ = .next ⟨W, t⟩ ∧ t.memRead (slotOf x) = pack s.k x.t x.vidx ∧
        (x.hint = true → EnqReturned i x s t) ∧ (x.hint = false → At (.enq .e4) x s t) ∧
        Frame s t s.cur [slotOf x]) ∧
    (s.memRead (slotOf x) ≠ x.entry →
      ∃ t, exec i ⟨W, s⟩ = .next ⟨W, t⟩ ∧
        At (enqNextPhase s.k x.tcyc (s.memRead (slotOf x)))
          { x with entry := s.memRead (slotOf x) } s t ∧
        Frame s t s.cur [])

/-- `E4` and `E5` bring the threshold to `THRESH` unless it is there, and return (R129, R130) to the caller
(R155, R159). That a directly driven operation completes there and leaves its context `IDLE` (R87) is the
model's choice, log entry 10. -/
def Obligations.EnqRearmsThreshold : Prop :=
  ∀ (W : Nat) (i : Instr) (x : Regs W) (s : Block W), runsEnq i = true → s.live = true →
    (s.running i (.enq .e4) x →
      ∃ t, exec i ⟨W, s⟩ = .next ⟨W, t⟩ ∧ Frame s t s.cur [] ∧
        (s.memRead (.threshold x.r) ≠ BitVec.ofNat W (3 * capOf s.order - 1) →
          At (.enq .e5) { x with th := s.memRead (.threshold x.r) } s t) ∧
        (s.memRead (.threshold x.r) = BitVec.ofNat W (3 * capOf s.order - 1) →
          EnqReturned i x s t)) ∧
    (s.running i (.enq .e5) x →
      ∃ t, exec i ⟨W, s⟩ = .next ⟨W, t⟩ ∧
        t.memRead (.threshold x.r) = BitVec.ofNat W (3 * capOf s.order - 1) ∧
        EnqReturned i x s t ∧ Frame s t s.cur [.threshold x.r])

/-! ### The phases of RING_TRY_DEQ (R132 to R140), for every operation that runs them -/

/-- `D0` reports empty at once on a negative threshold (R132), to the caller (R153, R157). That a directly
driven operation answers so itself and leaves its context `IDLE` (R87) is the model's choice, log entry 10. -/
def Obligations.DeqFastEmpty : Prop :=
  ∀ (W : Nat) (i : Instr) (x : Regs W) (s : Block W), runsDeq i = true → s.running i (.deq .d0) x →
    s.live = true →
    ∃ t, exec i ⟨W, s⟩ = .next ⟨W, t⟩ ∧ Frame s t s.cur [] ∧
      ((s.memRead (.threshold x.r)).toInt < 0 →
        DeqReturned i false { x with th := s.memRead (.threshold x.r) } s t) ∧
      (0 ≤ (s.memRead (.threshold x.r)).toInt →
        At (.deq .d1) { x with th := s.memRead (.threshold x.r) } s t)

/-- `D1` takes the head counter as its reservation and clears the spin counter (R133), with the model's own count
of its wraps (log entry 30). -/
def Obligations.DeqReservesHead : Prop :=
  ∀ (W : Nat) (i : Instr) (x : Regs W) (s : Block W), runsDeq i = true → s.running i (.deq .d1) x →
    s.live = true →
    ∃ t, exec i ⟨W, s⟩ = .next ⟨W, t⟩ ∧ t.memRead (.head x.r) = s.memRead (.head x.r) + 1 ∧
      At (.deq .d2)
        { x with
          h := s.memRead (.head x.r), hcyc := cyc s.k (s.memRead (.head x.r)),
          pos := mapPos s.cfg.rot s.k (s.memRead (.head x.r)), attempt := 0, attemptWraps := 0 } s t ∧
      Frame s t s.cur [.head x.r]

/-- `D2` reads the slot and classifies it (R134, R135). That `SPIN_LIMIT` is
compared with a count that goes on where `attempt`, a word of `W` bits, wraps is the model's choice, log
entry 30. -/
def Obligations.DeqReadsSlot : Prop :=
  ∀ (W : Nat) (i : Instr) (x : Regs W) (s : Block W), runsDeq i = true → s.running i (.deq .d2) x →
    s.hasLoc (slotOf x) = true →
    ∃ t ph y, exec i ⟨W, s⟩ = .next ⟨W, t⟩ ∧
      DeqNext s.cfg s.k { x with entry := s.memRead (slotOf x) } ph y ∧ At ph y s t ∧
      Frame s t s.cur []

/-- `D3` empties the slot, keeping its `SAFE` and `CYC` fields, and returns the index (R136) to the caller
(R153, R157). That a directly driven operation answers so itself and leaves its context `IDLE` (R87) is the
model's choice, log entry 10. -/
def Obligations.DeqConsumes : Prop :=
  ∀ (W : Nat) (i : Instr) (x : Regs W) (s : Block W), runsDeq i = true → s.running i (.deq .d3) x →
    s.hasLoc (slotOf x) = true →
    ∃ t, exec i ⟨W, s⟩ = .next ⟨W, t⟩ ∧
      t.memRead (slotOf x) = s.memRead (slotOf x) ||| ones s.k ∧
      DeqReturned i true { x with idx := x.entry &&& ones s.k } s t ∧
      Frame s t s.cur [slotOf x]

/-- `D4` marks or forces the slot, or classifies the observed word again (R137, R135), with the spin
counted as in DeqReadsSlot (log entry 30). -/
def Obligations.DeqMarksOrForces : Prop :=
  ∀ (W : Nat) (i : Instr) (x : Regs W) (s : Block W), runsDeq i = true → s.running i (.deq .d4) x →
    s.hasLoc (slotOf x) = true →
    (s.memRead (slotOf x) = x.entry →
      ∃ t, exec i ⟨W, s⟩ = .next ⟨W, t⟩ ∧ t.memRead (slotOf x) = x.new ∧
        At (if x.hint then .deq .d1 else .deq .d5) x s t ∧ Frame s t s.cur [slotOf x]) ∧
    (s.memRead (slotOf x) ≠ x.entry →
      ∃ t ph y, exec i ⟨W, s⟩ = .next ⟨W, t⟩ ∧
        DeqNext s.cfg s.k { x with entry := s.memRead (slotOf x) } ph y ∧ At ph y s t ∧
        Frame s t s.cur [])

/-- `D5` compares the tail with the reservation (R138). -/
def Obligations.DeqChecksTail : Prop :=
  ∀ (W : Nat) (i : Instr) (x : Regs W) (s : Block W), runsDeq i = true → s.running i (.deq .d5) x →
    s.live = true →
    ∃ t, exec i ⟨W, s⟩ = .next ⟨W, t⟩ ∧ Frame s t s.cur [] ∧
      (scmpLe (s.memRead (.tail x.r)) (x.h + 1) = true →
        At (.cat .c0) { x with tl := s.memRead (.tail x.r), hd := x.h + 1 } s t) ∧
      (scmpLe (s.memRead (.tail x.r)) (x.h + 1) = false →
        At (.deq .d6) { x with tl := s.memRead (.tail x.r) } s t)

/-- `D6` spends one unit of threshold and reports empty when the old value was not positive (R139); `D7`
spends one and reports empty whatever it was (R140); the report goes to the caller (R153, R157). That a
directly driven operation answers so itself and leaves its context `IDLE` (R87) is the model's choice, log
entry 10. -/
def Obligations.DeqSpendsThreshold : Prop :=
  ∀ (W : Nat) (i : Instr) (x : Regs W) (s : Block W), runsDeq i = true → s.live = true →
    (s.running i (.deq .d6) x →
      ∃ t, exec i ⟨W, s⟩ = .next ⟨W, t⟩ ∧
        t.memRead (.threshold x.r) = s.memRead (.threshold x.r) - 1 ∧
        Frame s t s.cur [.threshold x.r] ∧
        ((s.memRead (.threshold x.r)).toInt ≤ 0 →
          DeqReturned i false { x with th := s.memRead (.threshold x.r) } s t) ∧
        (0 < (s.memRead (.threshold x.r)).toInt →
          At (.deq .d1) { x with th := s.memRead (.threshold x.r) } s t)) ∧
    (s.running i (.deq .d7) x →
      ∃ t, exec i ⟨W, s⟩ = .next ⟨W, t⟩ ∧
        t.memRead (.threshold x.r) = s.memRead (.threshold x.r) - 1 ∧
        DeqReturned i false x s t ∧ Frame s t s.cur [.threshold x.r])

/-- With the hint, `RING_TRY_DEQ` never reports empty and touches only `head` and its slot: from a phase of
its loop every step stays in the loop, with the hint, or claims an index (R131, R146). That a directly
driven operation answers its claim itself and leaves its context `IDLE` (R87) is the model's choice, log
entry 10. -/
def Obligations.HintedDequeueNeverReportsEmpty : Prop :=
  ∀ (W : Nat) (i : Instr) (d : DeqPhase) (x : Regs W) (s t : Block W), runsDeq i = true →
    s.running i (.deq d) x → x.hint = true →
    (d = .d1 ∨ d = .d2 ∨ d = .d3 ∨ d = .d4) → exec i ⟨W, s⟩ = .next ⟨W, t⟩ →
    Frame s t s.cur [.head x.r, slotOf x] ∧
    ((∃ d' y, At (.deq d') y s t ∧ y.hint = true ∧
      (d' = .d1 ∨ d' = .d2 ∨ d' = .d3 ∨ d' = .d4)) ∨
    (d = .d3 ∧ ∃ y, DeqReturned i true y s t))

/-! ### RING_CATCHUP (R141 to R144) -/

/-- `C0`, `C1` and `C2` (R142, R143, R144); leaving goes to `D7` (R141). That a `RING_CATCHUP` driven directly
completes there instead, and that it takes any `tl` and `hd`, is the model's choice, log entries 10 and 29. -/
def Obligations.CatchupMovesTail : Prop :=
  ∀ (W : Nat) (i : Instr) (x : Regs W) (s : Block W), runsCat i = true → s.live = true →
    (s.running i (.cat .c0) x → s.memRead (.tail x.r) = x.tl →
      ∃ t, exec i ⟨W, s⟩ = .next ⟨W, t⟩ ∧ t.memRead (.tail x.r) = x.hd ∧ CatLeft i x s t ∧
        Frame s t s.cur [.tail x.r]) ∧
    (s.running i (.cat .c0) x → s.memRead (.tail x.r) ≠ x.tl →
      ∃ t, exec i ⟨W, s⟩ = .next ⟨W, t⟩ ∧ At (.cat .c1) x s t ∧ Frame s t s.cur []) ∧
    (s.running i (.cat .c1) x →
      ∃ t, exec i ⟨W, s⟩ = .next ⟨W, t⟩ ∧ At (.cat .c2) { x with hd := s.memRead (.head x.r) } s t ∧
        Frame s t s.cur []) ∧
    (s.running i (.cat .c2) x →
      ∃ t, exec i ⟨W, s⟩ = .next ⟨W, t⟩ ∧ Frame s t s.cur [] ∧
        (scmpGe (s.memRead (.tail x.r)) x.hd = true →
          CatLeft i { x with tl := s.memRead (.tail x.r) } s t) ∧
        (scmpGe (s.memRead (.tail x.r)) x.hd = false →
          At (.cat .c0) { x with tl := s.memRead (.tail x.r) } s t))

/-! ### The commands (42_bounded_queue.md) -/

/-- Acceptance writes `x[op]` and `x[arg]` and sets `ph` to the command's first phase (30_encoding.md R83),
for the four commands that need a live queue and may overlap others. -/
def Obligations.CommandsAreAccepted : Prop :=
  ∀ (W : Nat) (s : Block W) (v : Word W), s.ctx s.cur = some .idle → s.live = true →
    (∀ c ph x, s.ctx c = some (.busy ph x) → ph ≠ .x0 ∧ ph ≠ .y0) →
    (∃ t x, exec (.enqueue v.toNat) ⟨W, s⟩ = .next ⟨W, t⟩ ∧ t.running (.enqueue v.toNat) .q0 x ∧
      x.op = 1 ∧ x.arg = v ∧ t.out = s.out ∧ Frame s t s.cur []) ∧
    (∃ t x, exec (.dequeue v.toNat) ⟨W, s⟩ = .next ⟨W, t⟩ ∧
      t.running (.dequeue v.toNat) (.deq .d0) x ∧
      x.op = 2 ∧ x.arg = v ∧ x.r = .aq ∧ x.hint = false ∧ t.out = s.out ∧ Frame s t s.cur []) ∧
    (∃ t x, exec (.close v.toNat) ⟨W, s⟩ = .next ⟨W, t⟩ ∧ t.running (.close v.toNat) .k0 x ∧
      x.op = 3 ∧ x.arg = v ∧ t.out = s.out ∧ Frame s t s.cur []) ∧
    (∃ t x, exec (.dump v.toNat) ⟨W, s⟩ = .next ⟨W, t⟩ ∧ t.running (.dump v.toNat) .u0 x ∧
      x.op = 5 ∧ x.arg = v ∧ x.di = 0 ∧ t.out = s.out ∧ Frame s t s.cur [])

/-- `CREATE` and `DESTROY` are accepted when every context is `IDLE`, by `LIVE` (R83, R150, R161). -/
def Obligations.LifecycleCommandsAreAccepted : Prop :=
  ∀ (W : Nat) (s : Block W) (v : Word W), s.ctx s.cur = some .idle →
    (∀ c x, s.ctx c = some x → x = .idle) →
    (s.live = false → v.toNat ≤ s.cfg.orderMax →
      ∃ t x, exec (.create v.toNat) ⟨W, s⟩ = .next ⟨W, t⟩ ∧ t.running (.create v.toNat) .x0 x ∧
        x.op = 0 ∧ x.arg = v ∧ t.out = s.out ∧ Frame s t s.cur []) ∧
    (s.live = true →
      ∃ t x, exec (.destroy v.toNat) ⟨W, s⟩ = .next ⟨W, t⟩ ∧ t.running (.destroy v.toNat) .y0 x ∧
        x.op = 4 ∧ x.arg = v ∧ t.out = s.out ∧ Frame s t s.cur [])

/-- The violations of a command's preconditions are refused, each under its name (60_exceptions.md R171).
Which name where several hold is the model's choice, log entry 18. -/
def Obligations.ViolationsAreRefused : Prop :=
  ∀ (W : Nat) (s : Block W) (v : Nat), s.ctx s.cur = some .idle →
    (s.live = false →
      exec (.enqueue v) ⟨W, s⟩ = .refused .noQueue ∧
      exec (.dequeue v) ⟨W, s⟩ = .refused .noQueue ∧
      exec (.close v) ⟨W, s⟩ = .refused .noQueue ∧
      exec (.destroy v) ⟨W, s⟩ = .refused .noQueue ∧
      exec (.dump v) ⟨W, s⟩ = .refused .noQueue) ∧
    (s.live = true → exec (.create v) ⟨W, s⟩ = .refused .queueLive) ∧
    (s.live = false → s.cfg.orderMax < v → exec (.create v) ⟨W, s⟩ = .refused .orderTooLarge) ∧
    ((∃ c ph x, s.ctx c = some (.busy ph x)) →
      (s.live = false → v ≤ s.cfg.orderMax →
        exec (.create v) ⟨W, s⟩ = .refused .notQuiescent) ∧
      (s.live = true → exec (.destroy v) ⟨W, s⟩ = .refused .notQuiescent)) ∧
    (s.live = true → (∃ c x, s.ctx c = some (.busy .x0 x) ∨ s.ctx c = some (.busy .y0 x)) →
      exec (.enqueue v) ⟨W, s⟩ = .refused .lifecyclePending ∧
      exec (.dequeue v) ⟨W, s⟩ = .refused .lifecyclePending ∧
      exec (.close v) ⟨W, s⟩ = .refused .lifecyclePending ∧
      exec (.dump v) ⟨W, s⟩ = .refused .lifecyclePending)

/-- `X0` with `alloc_ok = 1` builds the queue of 10_state.md R40 and answers `OK` (R150). -/
def Obligations.CreateBuildsTheQueue : Prop :=
  ∀ (W : Nat) (v : Nat) (x : Regs W) (s : Block W), s.running (.create v) .x0 x → s.allocOk = true →
    s.cfg.wf W s.ctxs.length = true → x.arg.toNat ≤ s.cfg.orderMax →
    ∃ t, exec (.create v) ⟨W, s⟩ = .next ⟨W, t⟩ ∧
      t.live = true ∧ t.order = x.arg.toNat ∧ t.closed = 0 ∧
      t.memRead (.head .aq) = 0 ∧ t.memRead (.tail .aq) = 0 ∧
      t.memRead (.threshold .aq) = all1 ∧
      (∀ p, p < nOf t.order → t.memRead (.slot .aq p) = all1) ∧
      t.memRead (.head .fq) = 0 ∧ t.memRead (.tail .fq) = BitVec.ofNat W (capOf t.order) ∧
      t.memRead (.threshold .fq) = BitVec.ofNat W (3 * capOf t.order - 1) ∧
      (∀ i, i < nOf t.order →
        t.memRead (.slot .fq (mapPos t.cfg.rot t.k (BitVec.ofNat W i)).toNat) =
          if i < capOf t.order then BitVec.ofNat W (nOf t.order + i) else all1) ∧
      (∀ i, i < capOf t.order → Mem.read t.mem (t.addr (.val i)) = none) ∧
      t.ctx s.cur = some .idle ∧ (∀ d, d ≠ s.cur → t.ctx d = s.ctx d) ∧
      ((∀ d y, d ≠ s.cur → s.ctx d = some y → y = .idle) → ∀ d y, t.ctx d = some y → y = .idle) ∧
      t.out = .response s.cur ⟨.ok, none⟩ :: s.out ∧
      t.cfg = s.cfg ∧ t.env = s.env ∧ Mem.wf t.mem = true

/-- `X0` with `alloc_ok = 0` answers `ALLOC_FAIL` and changes nothing else (R150). -/
def Obligations.CreateCanFail : Prop :=
  ∀ (W : Nat) (v : Nat) (x : Regs W) (s : Block W), s.running (.create v) .x0 x → s.allocOk = false →
    ∃ t, exec (.create v) ⟨W, s⟩ = .next ⟨W, t⟩ ∧ t.ctx s.cur = some .idle ∧
      t.out = .response s.cur ⟨.allocFail, none⟩ :: s.out ∧ Frame s t s.cur []

/-- `Q0`: a closed queue answers `CLOSED`; an open one starts the claim of a free index (R152). -/
def Obligations.EnqueueTestsClosedFirst : Prop :=
  ∀ (W : Nat) (v : Nat) (x : Regs W) (s : Block W), s.running (.enqueue v) .q0 x → s.live = true →
    ∃ t, exec (.enqueue v) ⟨W, s⟩ = .next ⟨W, t⟩ ∧ Frame s t s.cur [] ∧
      (s.closed ≠ 0 →
        t.ctx s.cur = some .idle ∧ t.out = .response s.cur ⟨.closed, none⟩ :: s.out) ∧
      (s.closed = 0 →
        At (if s.cfg.fqHint then .deq .d1 else .deq .d0)
          { x with cl := 0, r := .fq, hint := s.cfg.fqHint } s t)

/-- `Q1` stores the value at the claimed index and starts the publication (R154). Past the value array see
AbsentLocationFaults. -/
def Obligations.EnqueueStoresValue : Prop :=
  ∀ (W : Nat) (v : Nat) (x : Regs W) (s : Block W), s.running (.enqueue v) .q1 x → s.live = true →
    x.idx.toNat < capOf s.order →
    ∃ t, exec (.enqueue v) ⟨W, s⟩ = .next ⟨W, t⟩ ∧ t.memRead (.val x.idx.toNat) = x.arg ∧
      At (.enq .e0) { x with r := .aq, hint := false, vidx := x.idx } s t ∧
      Frame s t s.cur [.val x.idx.toNat]

/-- `P0`: after an empty verdict `DEQUEUE` answers `CLOSED` or `EMPTY` by the closed test (R158). -/
def Obligations.DequeueReportsEmptyOrClosed : Prop :=
  ∀ (W : Nat) (v : Nat) (x : Regs W) (s : Block W), s.running (.dequeue v) .p0 x → s.live = true →
    ∃ t, exec (.dequeue v) ⟨W, s⟩ = .next ⟨W, t⟩ ∧ t.ctx s.cur = some .idle ∧ Frame s t s.cur [] ∧
      (s.closed ≠ 0 → t.out = .response s.cur ⟨.closed, none⟩ :: s.out) ∧
      (s.closed = 0 → t.out = .response s.cur ⟨.empty, none⟩ :: s.out)

/-- `P1` reads the value at the claimed index and starts the release of the index (R159). Past the value
array see AbsentLocationFaults. -/
def Obligations.DequeueReadsValue : Prop :=
  ∀ (W : Nat) (v : Nat) (x : Regs W) (s : Block W), s.running (.dequeue v) .p1 x → s.live = true →
    x.idx.toNat < capOf s.order →
    ∃ t, exec (.dequeue v) ⟨W, s⟩ = .next ⟨W, t⟩ ∧
      At (.enq .e0)
        { x with
          val := s.memRead (.val x.idx.toNat), r := .fq, hint := s.cfg.fqHint,
          vidx := x.idx } s t ∧
      Frame s t s.cur []

/-- `K0` adds one to `CLOSED`, modulo `2^W`, and answers `OK` (R160). -/
def Obligations.CloseCounts : Prop :=
  ∀ (W : Nat) (v : Nat) (x : Regs W) (s : Block W), s.running (.close v) .k0 x → s.live = true →
    ∃ t, exec (.close v) ⟨W, s⟩ = .next ⟨W, t⟩ ∧ t.closed.toNat = (s.closed.toNat + 1) % 2 ^ W ∧
      t.ctx s.cur = some .idle ∧ t.out = .response s.cur ⟨.ok, none⟩ :: s.out ∧
      Frame s t s.cur [.closed]

/-- `Y0` ends the queue's life and answers `OK`; the block holds nothing any more (R161). -/
def Obligations.DestroyReleases : Prop :=
  ∀ (W : Nat) (v : Nat) (x : Regs W) (s : Block W), s.running (.destroy v) .y0 x →
    ∃ t, exec (.destroy v) ⟨W, s⟩ = .next ⟨W, t⟩ ∧ t.live = false ∧ t.mem = [] ∧
      (∀ l, t.hasLoc l = false) ∧ t.ctx s.cur = some .idle ∧
      (∀ d, d ≠ s.cur → t.ctx d = s.ctx d) ∧
      t.out = .response s.cur ⟨.ok, none⟩ :: s.out ∧ t.cfg = s.cfg ∧ t.env = s.env

/-- `U0` answers one value word, and ends the command with the last one (R162). -/
def Obligations.DumpAnswersOneWord : Prop :=
  ∀ (W : Nat) (v : Nat) (x : Regs W) (s : Block W), s.running (.dump v) .u0 x → s.live = true →
    s.order + 4 ≤ W → x.di.toNat < capOf s.order →
    ∃ t, exec (.dump v) ⟨W, s⟩ = .next ⟨W, t⟩ ∧ Frame s t s.cur [] ∧
      t.out = .response s.cur ⟨.ok, some (s.memRead (.val x.di.toNat))⟩ :: s.out ∧
      (x.di.toNat = capOf s.order - 1 → t.ctx s.cur = some .idle) ∧
      (x.di.toNat ≠ capOf s.order - 1 →
        t.ctx s.cur = some (.busy .u0 { x with di := x.di + 1 }))

/-! ### Whole operations, run with no other context stepping -/

/-- `DUMP` answers `CAP` responses, the words of `VAL` in ascending order, and changes nothing (R162). -/
def Obligations.DumpStreamsValues : Prop :=
  ∀ (W : Nat) (v : Nat) (x : Regs W) (s : Block W) (c : Nat) (ok : Bool) (rest : List (Event W)),
    s.ctx c = some (.busy .u0 x) → Ctx.instr (.busy .u0 x) = some (.dump v) → x.di = 0 →
    s.live = true → s.order + 4 ≤ W →
    s.env = List.replicate (capOf s.order) (.run c ok) ++ rest →
    ∃ t : Block W, Host.Core.run core (capOf s.order) ⟨W, s⟩ = .next ⟨W, t⟩ ∧ t.ctx c = some .idle ∧
      t.out =
        ((List.range (capOf s.order)).map fun i =>
          Output.response c ⟨.ok, some (s.memRead (.val i))⟩).reverse ++ s.out ∧
      t.mem = s.mem ∧ t.closed = s.closed ∧ t.live = s.live ∧ t.order = s.order ∧ t.env = rest ∧
      ∀ d, d ≠ c → t.ctx d = s.ctx d

/-- A dequeuer that meets an empty slot of an older traversal loads it `SPIN_LIMIT + 1` times in all before
it forces it, when nobody else steps, for every `SPIN_LIMIT` (R135, 70_reset_and_hazards.md R203), and changes
nothing shared meanwhile. That the loads are counted past a wrap of `attempt` is the model's choice, log
entry 30. -/
def Obligations.SpinsThenForces : Prop :=
  ∀ (W : Nat) (i : Instr) (x : Regs W) (s : Block W) (c : Nat) (ok : Bool) (rest : List (Event W)),
    runsDeq i = true → s.ctx c = some (.busy (.deq .d2) x) →
    Ctx.instr (.busy (.deq .d2) x) = some i → x.attempt = 0 → x.attemptWraps = 0 →
    s.hasLoc (slotOf x) = true →
    idxOf s.k (s.memRead (slotOf x)) = bot s.k → s.order + 4 ≤ W →
    scmpLt (ecyc s.k (s.memRead (slotOf x))) x.hcyc = true →
    s.env = List.replicate (s.cfg.spinLimit + 1) (.run c ok) ++ rest →
    ∃ t : Block W, Host.Core.run core (s.cfg.spinLimit + 1) ⟨W, s⟩ = .next ⟨W, t⟩ ∧
      t.ctx c =
        some (.busy (.deq .d4)
          { x with
            entry := s.memRead (slotOf x), attempt := BitVec.ofNat W (s.cfg.spinLimit + 1),
            attemptWraps := (s.cfg.spinLimit + 1) / 2 ^ W,
            new := forceWord s.k x.hcyc (s.memRead (slotOf x)) }) ∧
      t.mem = s.mem ∧ t.closed = s.closed ∧ t.live = s.live ∧ t.order = s.order ∧ t.cfg = s.cfg ∧
      t.out = s.out ∧ t.env = rest ∧ ∀ d, d ≠ c → t.ctx d = s.ctx d

/-- An uncontended `ENQUEUE` on an open queue whose free-ring has an index ready at its head and whose
occupied-ring has an admissible slot at its tail answers `OK` after its acceptance and 11 steps: the value
stands at the index, the index is published under the tail counter, and both counters have moved by one
(R151 to R155, R124 to R136). -/
def Obligations.EnqueueAloneSucceeds : Prop :=
  ∀ (W : Nat) (v : Word W) (s : Block W) (c : Nat) (ok : Bool) (rest : List (Event W)),
    s.cfg.wf W s.ctxs.length = true → s.order ≤ s.cfg.orderMax → s.cfg.fqHint = false → s.live = true →
    s.closed = 0 → s.ctx c = some .idle →
    (∀ d ph y, s.ctx d = some (.busy ph y) → ph ≠ .x0 ∧ ph ≠ .y0) →
    0 ≤ (s.memRead (.threshold .fq)).toInt →
    s.memRead (.threshold .aq) ≠ thresh s.order →
    ∀ hd tl w a : Word W, s.memRead (.head .fq) = hd → s.memRead (.tail .aq) = tl →
    s.memRead (.slot .fq (mapPos s.cfg.rot s.k hd).toNat) = w →
    s.memRead (.slot .aq (mapPos s.cfg.rot s.k tl).toNat) = a →
    ecyc s.k w = cyc s.k hd → (idxOf s.k w).toNat < capOf s.order →
    ecyc s.k a = a → scmpLt a (cyc s.k tl) = true →
    s.env = .present c (.q (qWord 1 v)) :: (List.replicate 11 (.run c ok) ++ rest) →
    ∃ t : Block W, Host.Core.run core 12 ⟨W, s⟩ = .next ⟨W, t⟩ ∧ t.ctx c = some .idle ∧
      t.out = .response c ⟨.ok, none⟩ :: s.out ∧ t.env = rest ∧
      t.memRead (.val (idxOf s.k w).toNat) = v ∧
      t.memRead (.slot .aq (mapPos s.cfg.rot s.k tl).toNat) = pack s.k tl (idxOf s.k w) ∧
      t.memRead (.tail .aq) = tl + 1 ∧ t.memRead (.threshold .aq) = thresh s.order ∧
      t.memRead (.slot .fq (mapPos s.cfg.rot s.k hd).toNat) = w ||| ones s.k ∧
      t.memRead (.head .fq) = hd + 1 ∧ t.closed = 0 ∧
      ∀ b, (∀ l ∈ [Loc.val (idxOf s.k w).toNat, .slot .aq (mapPos s.cfg.rot s.k tl).toNat,
          .tail .aq, .threshold .aq, .slot .fq (mapPos s.cfg.rot s.k hd).toNat, .head .fq],
          b ≠ s.addr l) → Mem.read t.mem b = Mem.read s.mem b

/-- An uncontended `DEQUEUE` on a queue whose occupied-ring has an entry ready at its head and whose
free-ring has an admissible slot at its tail answers `OK` with the value stored at the entry's index, after
its acceptance and 10 steps, and the index is back in the free-ring (R156 to R159). -/
def Obligations.DequeueAloneReturnsValue : Prop :=
  ∀ (W : Nat) (v : Word W) (s : Block W) (c : Nat) (ok : Bool) (rest : List (Event W)),
    s.cfg.wf W s.ctxs.length = true → s.order ≤ s.cfg.orderMax → s.cfg.fqHint = false → s.live = true →
    s.ctx c = some .idle →
    (∀ d ph y, s.ctx d = some (.busy ph y) → ph ≠ .x0 ∧ ph ≠ .y0) →
    0 ≤ (s.memRead (.threshold .aq)).toInt →
    s.memRead (.threshold .fq) ≠ thresh s.order →
    ∀ hd tl w a : Word W, s.memRead (.head .aq) = hd → s.memRead (.tail .fq) = tl →
    s.memRead (.slot .aq (mapPos s.cfg.rot s.k hd).toNat) = w →
    s.memRead (.slot .fq (mapPos s.cfg.rot s.k tl).toNat) = a →
    ecyc s.k w = cyc s.k hd → (idxOf s.k w).toNat < capOf s.order →
    ecyc s.k a = a → scmpLt a (cyc s.k tl) = true →
    s.env = .present c (.q (qWord 2 v)) :: (List.replicate 10 (.run c ok) ++ rest) →
    ∃ t : Block W, Host.Core.run core 11 ⟨W, s⟩ = .next ⟨W, t⟩ ∧ t.ctx c = some .idle ∧
      t.out = .response c ⟨.ok, some (s.memRead (.val (idxOf s.k w).toNat))⟩ :: s.out ∧
      t.env = rest ∧
      t.memRead (.slot .fq (mapPos s.cfg.rot s.k tl).toNat) = pack s.k tl (idxOf s.k w) ∧
      t.memRead (.tail .fq) = tl + 1 ∧ t.memRead (.threshold .fq) = thresh s.order ∧
      t.memRead (.slot .aq (mapPos s.cfg.rot s.k hd).toNat) = w ||| ones s.k ∧
      t.memRead (.head .aq) = hd + 1 ∧ t.closed = s.closed ∧
      ∀ b, (∀ l ∈ [Loc.slot .fq (mapPos s.cfg.rot s.k tl).toNat, .tail .fq, .threshold .fq,
          .slot .aq (mapPos s.cfg.rot s.k hd).toNat, .head .aq],
          b ≠ s.addr l) → Mem.read t.mem b = Mem.read s.mem b
end

