-- ==== Sys2Proof/Laws/Memory.lean ====
section
/-! SUPPORT. The laws of the backing block's cells: read after write, and the canonical form. -/

namespace Sys2Proof.Machine

variable {W : Nat}

theorem Mem.read_write_same (m : Mem W) (a : Nat) (v : Word W) :
    Mem.read (Mem.write m a v) a = some v := by
  induction m with
  | nil => simp [Mem.write, Mem.read]
  | cons c m ih =>
    obtain ⟨b, w⟩ := c
    simp only [Mem.write]
    split
    · simp [Mem.read]
    · split
      · simp [Mem.read]
      · next h => simp [Mem.read, h, ih]

theorem Mem.read_write_other (m : Mem W) {a b : Nat} (v : Word W) (h : b ≠ a) :
    Mem.read (Mem.write m a v) b = Mem.read m b := by
  induction m with
  | nil => simp [Mem.write, Mem.read, h]
  | cons c m ih =>
    obtain ⟨d, w⟩ := c
    simp only [Mem.write]
    split
    · simp [Mem.read, h]
    · split
      · next hd => subst hd; simp [Mem.read, h]
      · simp [Mem.read, ih]

/-- What a read gives after a write, said once. -/
theorem Mem.read_write (m : Mem W) (a b : Nat) (v : Word W) :
    Mem.read (Mem.write m a v) b = if b = a then some v else Mem.read m b := by
  split
  · next h => rw [h, Mem.read_write_same]
  · next h => exact Mem.read_write_other m v h

/-- What a read gives is a cell of the block. -/
theorem Mem.mem_of_read {m : Mem W} {a : Nat} {w : Word W} (h : Mem.read m a = some w) : (a, w) ∈ m := by
  induction m with
  | nil => cases h
  | cons c m ih =>
    obtain ⟨b, v⟩ := c
    simp only [Mem.read] at h
    split at h
    · next hab =>
      cases h
      simp [hab]
    · exact List.mem_cons_of_mem _ (ih h)

/-- Every offset of a block is above `a`. -/
def Mem.above (a : Nat) (m : Mem W) : Prop := ∀ c ∈ m, a < c.1

theorem Mem.wf_cons {a : Nat} {w : Word W} {m : Mem W} :
    Mem.wf ((a, w) :: m) = true ↔ Mem.above a m ∧ Mem.wf m = true := by
  induction m generalizing a w with
  | nil => simp [Mem.wf, Mem.above]
  | cons c m ih =>
    obtain ⟨b, v⟩ := c
    simp only [Mem.wf, Bool.and_eq_true, decide_eq_true_eq, Mem.above, List.mem_cons,
      forall_eq_or_imp]
    constructor
    · rintro ⟨hab, hwf⟩
      refine ⟨⟨hab, fun c hc => ?_⟩, hwf⟩
      exact lt_trans hab ((ih.1 hwf).1 c hc)
    · rintro ⟨⟨hab, -⟩, hwf⟩
      exact ⟨hab, hwf⟩

theorem Mem.above_write {a b : Nat} {v : Word W} {m : Mem W} (h : a < b) (hm : Mem.above a m) :
    Mem.above a (Mem.write m b v) := by
  induction m with
  | nil => simpa [Mem.write, Mem.above] using h
  | cons c m ih =>
    obtain ⟨d, w⟩ := c
    have hd : a < d := hm (d, w) (by simp)
    have hm' : Mem.above a m := fun c hc => hm c (by simp [hc])
    simp only [Mem.write]
    split
    · intro c hc
      rcases List.mem_cons.1 hc with rfl | hc
      · exact h
      · exact hm c hc
    · split
      · intro c hc
        rcases List.mem_cons.1 hc with rfl | hc
        · exact h
        · exact hm' c hc
      · intro c hc
        rcases List.mem_cons.1 hc with rfl | hc
        · exact hd
        · exact ih hm' c hc

/-- A write keeps the canonical form. -/
theorem Mem.wf_write {m : Mem W} (h : Mem.wf m = true) (a : Nat) (v : Word W) :
    Mem.wf (Mem.write m a v) = true := by
  induction m with
  | nil => rfl
  | cons c m ih =>
    obtain ⟨b, w⟩ := c
    obtain ⟨hb, hm⟩ := Mem.wf_cons.1 h
    simp only [Mem.write]
    split
    · next hab =>
      refine Mem.wf_cons.2 ⟨fun c hc => ?_, h⟩
      rcases List.mem_cons.1 hc with rfl | hc
      · exact hab
      · exact lt_trans hab (hb c hc)
    · split
      · next hab => subst hab; exact Mem.wf_cons.2 ⟨hb, hm⟩
      · next h1 h2 =>
        exact Mem.wf_cons.2 ⟨Mem.above_write (by omega) hb, ih hm⟩

theorem Mem.read_eq_none_of_above {a b : Nat} {m : Mem W} (hm : Mem.above a m) (h : b ≤ a) :
    Mem.read m b = none := by
  induction m with
  | nil => rfl
  | cons c m ih =>
    obtain ⟨d, w⟩ := c
    have hd : a < d := hm (d, w) (by simp)
    have hne : b ≠ d := by omega
    simp [Mem.read, hne, ih fun c hc => hm c (by simp [hc])]

/-- Equal memories are equal data: two blocks in canonical form that read alike are the same list. -/
theorem Mem.ext_of_wf {m n : Mem W} (hm : Mem.wf m = true) (hn : Mem.wf n = true)
    (h : ∀ a, Mem.read m a = Mem.read n a) : m = n := by
  induction m generalizing n with
  | nil =>
    cases n with
    | nil => rfl
    | cons c n =>
      obtain ⟨b, w⟩ := c
      have := h b
      simp [Mem.read] at this
  | cons c m ih =>
    obtain ⟨a, v⟩ := c
    obtain ⟨ha, hm'⟩ := Mem.wf_cons.1 hm
    cases n with
    | nil =>
      have := h a
      simp [Mem.read] at this
    | cons d n =>
      obtain ⟨b, w⟩ := d
      obtain ⟨hb, hn'⟩ := Mem.wf_cons.1 hn
      have hab : a = b := by
        rcases lt_trichotomy a b with hlt | heq | hgt
        · have := h a
          have hne : a ≠ b := by omega
          simp [Mem.read, hne, Mem.read_eq_none_of_above hb (le_of_lt hlt)] at this
        · exact heq
        · have := h b
          have hne : b ≠ a := by omega
          simp [Mem.read, hne, Mem.read_eq_none_of_above ha (le_of_lt hgt)] at this
      subst hab
      have hvw : v = w := by simpa [Mem.read] using h a
      subst hvw
      congr 1
      refine ih hm' hn' fun e => ?_
      by_cases he : e = a
      · subst he
        rw [Mem.read_eq_none_of_above ha le_rfl, Mem.read_eq_none_of_above hb le_rfl]
      · simpa [Mem.read, he] using h e

end Sys2Proof.Machine
end

