-- ==== Sys2Proof/Laws/State.lean ====
section
/-! SUPPORT. What each update of the state leaves and changes, field by field; no later proof unfolds one. -/

namespace Sys2Proof.Machine

variable {W : Nat}

/-! ### Block.memWrite -/

@[simp] theorem Block.memWrite_cfg (s : Block W) (l : Loc) (v : Word W) : (s.memWrite l v).cfg = s.cfg := by cases l <;> rfl

@[simp] theorem Block.memWrite_live (s : Block W) (l : Loc) (v : Word W) : (s.memWrite l v).live = s.live := by cases l <;> rfl

@[simp] theorem Block.memWrite_order (s : Block W) (l : Loc) (v : Word W) : (s.memWrite l v).order = s.order := by cases l <;> rfl

@[simp] theorem Block.memWrite_ctxs (s : Block W) (l : Loc) (v : Word W) : (s.memWrite l v).ctxs = s.ctxs := by cases l <;> rfl

@[simp] theorem Block.memWrite_life (s : Block W) (l : Loc) (v : Word W) : (s.memWrite l v).life = s.life := by cases l <;> rfl

@[simp] theorem Block.memWrite_cur (s : Block W) (l : Loc) (v : Word W) : (s.memWrite l v).cur = s.cur := by cases l <;> rfl

@[simp] theorem Block.memWrite_allocOk (s : Block W) (l : Loc) (v : Word W) : (s.memWrite l v).allocOk = s.allocOk := by cases l <;> rfl

@[simp] theorem Block.memWrite_env (s : Block W) (l : Loc) (v : Word W) : (s.memWrite l v).env = s.env := by cases l <;> rfl

@[simp] theorem Block.memWrite_out (s : Block W) (l : Loc) (v : Word W) : (s.memWrite l v).out = s.out := by cases l <;> rfl

/-! ### Block.setCtx -/

@[simp] theorem Block.setCtx_cfg (s : Block W) (c : Nat) (x : Ctx W) : (s.setCtx c x).cfg = s.cfg := rfl

@[simp] theorem Block.setCtx_live (s : Block W) (c : Nat) (x : Ctx W) : (s.setCtx c x).live = s.live := rfl

@[simp] theorem Block.setCtx_order (s : Block W) (c : Nat) (x : Ctx W) : (s.setCtx c x).order = s.order := rfl

@[simp] theorem Block.setCtx_closed (s : Block W) (c : Nat) (x : Ctx W) : (s.setCtx c x).closed = s.closed := rfl

@[simp] theorem Block.setCtx_mem (s : Block W) (c : Nat) (x : Ctx W) : (s.setCtx c x).mem = s.mem := rfl

@[simp] theorem Block.setCtx_life (s : Block W) (c : Nat) (x : Ctx W) : (s.setCtx c x).life = s.life := rfl

@[simp] theorem Block.setCtx_cur (s : Block W) (c : Nat) (x : Ctx W) : (s.setCtx c x).cur = s.cur := rfl

@[simp] theorem Block.setCtx_allocOk (s : Block W) (c : Nat) (x : Ctx W) : (s.setCtx c x).allocOk = s.allocOk := rfl

@[simp] theorem Block.setCtx_env (s : Block W) (c : Nat) (x : Ctx W) : (s.setCtx c x).env = s.env := rfl

@[simp] theorem Block.setCtx_out (s : Block W) (c : Nat) (x : Ctx W) : (s.setCtx c x).out = s.out := rfl

/-! ### Block.emit -/

@[simp] theorem Block.emit_cfg (s : Block W) (o : Output W) : (s.emit o).cfg = s.cfg := rfl

@[simp] theorem Block.emit_live (s : Block W) (o : Output W) : (s.emit o).live = s.live := rfl

@[simp] theorem Block.emit_order (s : Block W) (o : Output W) : (s.emit o).order = s.order := rfl

@[simp] theorem Block.emit_closed (s : Block W) (o : Output W) : (s.emit o).closed = s.closed := rfl

@[simp] theorem Block.emit_mem (s : Block W) (o : Output W) : (s.emit o).mem = s.mem := rfl

@[simp] theorem Block.emit_ctxs (s : Block W) (o : Output W) : (s.emit o).ctxs = s.ctxs := rfl

@[simp] theorem Block.emit_life (s : Block W) (o : Output W) : (s.emit o).life = s.life := rfl

@[simp] theorem Block.emit_cur (s : Block W) (o : Output W) : (s.emit o).cur = s.cur := rfl

@[simp] theorem Block.emit_allocOk (s : Block W) (o : Output W) : (s.emit o).allocOk = s.allocOk := rfl

@[simp] theorem Block.emit_env (s : Block W) (o : Output W) : (s.emit o).env = s.env := rfl

/-! ### Block.finish -/

@[simp] theorem Block.finish_cfg (s : Block W) : (s.finish).cfg = s.cfg := rfl

@[simp] theorem Block.finish_live (s : Block W) : (s.finish).live = s.live := rfl

@[simp] theorem Block.finish_order (s : Block W) : (s.finish).order = s.order := rfl

@[simp] theorem Block.finish_closed (s : Block W) : (s.finish).closed = s.closed := rfl

@[simp] theorem Block.finish_mem (s : Block W) : (s.finish).mem = s.mem := rfl

@[simp] theorem Block.finish_life (s : Block W) : (s.finish).life = s.life := rfl

@[simp] theorem Block.finish_cur (s : Block W) : (s.finish).cur = s.cur := rfl

@[simp] theorem Block.finish_allocOk (s : Block W) : (s.finish).allocOk = s.allocOk := rfl

@[simp] theorem Block.finish_env (s : Block W) : (s.finish).env = s.env := rfl

@[simp] theorem Block.finish_out (s : Block W) : (s.finish).out = s.out := rfl

/-! ### Block.release -/

@[simp] theorem Block.release_cfg (s : Block W) : (s.release).cfg = s.cfg := rfl

@[simp] theorem Block.release_ctxs (s : Block W) : (s.release).ctxs = s.ctxs := rfl

@[simp] theorem Block.release_life (s : Block W) : (s.release).life = s.life := rfl

@[simp] theorem Block.release_cur (s : Block W) : (s.release).cur = s.cur := rfl

@[simp] theorem Block.release_allocOk (s : Block W) : (s.release).allocOk = s.allocOk := rfl

@[simp] theorem Block.release_env (s : Block W) : (s.release).env = s.env := rfl

@[simp] theorem Block.release_out (s : Block W) : (s.release).out = s.out := rfl

/-! ### Block.allocate -/

@[simp] theorem Block.allocate_cfg (s : Block W) (n : Nat) : (s.allocate n).cfg = s.cfg := rfl

@[simp] theorem Block.allocate_live (s : Block W) (n : Nat) : (s.allocate n).live = s.live := rfl

@[simp] theorem Block.allocate_closed (s : Block W) (n : Nat) : (s.allocate n).closed = s.closed := rfl

@[simp] theorem Block.allocate_ctxs (s : Block W) (n : Nat) : (s.allocate n).ctxs = s.ctxs := rfl

@[simp] theorem Block.allocate_cur (s : Block W) (n : Nat) : (s.allocate n).cur = s.cur := rfl

@[simp] theorem Block.allocate_allocOk (s : Block W) (n : Nat) : (s.allocate n).allocOk = s.allocOk := rfl

@[simp] theorem Block.allocate_env (s : Block W) (n : Nat) : (s.allocate n).env = s.env := rfl

@[simp] theorem Block.allocate_out (s : Block W) (n : Nat) : (s.allocate n).out = s.out := rfl

/-! ### Block.open -/

@[simp] theorem Block.open_cfg (s : Block W) : (s.open).cfg = s.cfg := rfl

@[simp] theorem Block.open_order (s : Block W) : (s.open).order = s.order := rfl

@[simp] theorem Block.open_mem (s : Block W) : (s.open).mem = s.mem := rfl

@[simp] theorem Block.open_ctxs (s : Block W) : (s.open).ctxs = s.ctxs := rfl

@[simp] theorem Block.open_life (s : Block W) : (s.open).life = s.life := rfl

@[simp] theorem Block.open_cur (s : Block W) : (s.open).cur = s.cur := rfl

@[simp] theorem Block.open_allocOk (s : Block W) : (s.open).allocOk = s.allocOk := rfl

@[simp] theorem Block.open_env (s : Block W) : (s.open).env = s.env := rfl

@[simp] theorem Block.open_out (s : Block W) : (s.open).out = s.out := rfl

/-! ### Block.hwReset -/

@[simp] theorem Block.hwReset_cfg (s : Block W) : (s.hwReset).cfg = s.cfg := rfl

@[simp] theorem Block.hwReset_life (s : Block W) : (s.hwReset).life = s.life := rfl

@[simp] theorem Block.hwReset_cur (s : Block W) : (s.hwReset).cur = s.cur := rfl

@[simp] theorem Block.hwReset_allocOk (s : Block W) : (s.hwReset).allocOk = s.allocOk := rfl

@[simp] theorem Block.hwReset_env (s : Block W) : (s.hwReset).env = s.env := rfl

@[simp] theorem Block.hwReset_out (s : Block W) : (s.hwReset).out = s.out := rfl

/-! ### Block.placePacket -/

@[simp] theorem Block.placePacket_cfg (s : Block W) (p : Packet W) : (s.placePacket p).cfg = s.cfg := rfl

@[simp] theorem Block.placePacket_live (s : Block W) (p : Packet W) : (s.placePacket p).live = s.live := rfl

@[simp] theorem Block.placePacket_order (s : Block W) (p : Packet W) : (s.placePacket p).order = s.order := rfl

@[simp] theorem Block.placePacket_closed (s : Block W) (p : Packet W) : (s.placePacket p).closed = s.closed := rfl

@[simp] theorem Block.placePacket_mem (s : Block W) (p : Packet W) : (s.placePacket p).mem = s.mem := rfl

@[simp] theorem Block.placePacket_life (s : Block W) (p : Packet W) : (s.placePacket p).life = s.life := rfl

@[simp] theorem Block.placePacket_cur (s : Block W) (p : Packet W) : (s.placePacket p).cur = s.cur := rfl

@[simp] theorem Block.placePacket_allocOk (s : Block W) (p : Packet W) : (s.placePacket p).allocOk = s.allocOk := rfl

@[simp] theorem Block.placePacket_out (s : Block W) (p : Packet W) : (s.placePacket p).out = s.out := rfl

/-! ### The fields an update writes -/

@[simp] theorem Block.setCtx_ctxs (s : Block W) (c : Nat) (x : Ctx W) :
    (s.setCtx c x).ctxs = s.ctxs.set c x := rfl

@[simp] theorem Block.emit_out (s : Block W) (o : Output W) : (s.emit o).out = o :: s.out := rfl

@[simp] theorem Block.finish_ctxs (s : Block W) : s.finish.ctxs = s.ctxs.set s.cur .idle := rfl

@[simp] theorem Block.release_live (s : Block W) : s.release.live = false := rfl

@[simp] theorem Block.release_order (s : Block W) : s.release.order = 0 := rfl

@[simp] theorem Block.release_closed (s : Block W) : s.release.closed = 0 := rfl

@[simp] theorem Block.release_mem (s : Block W) : s.release.mem = [] := rfl

@[simp] theorem Block.allocate_order (s : Block W) (n : Nat) : (s.allocate n).order = n := rfl

@[simp] theorem Block.allocate_mem (s : Block W) (n : Nat) : (s.allocate n).mem = [] := rfl

@[simp] theorem Block.allocate_life (s : Block W) (n : Nat) : (s.allocate n).life = s.life + 1 := rfl

@[simp] theorem Block.open_closed (s : Block W) : s.open.closed = 0 := rfl

@[simp] theorem Block.open_live (s : Block W) : s.open.live = true := rfl

@[simp] theorem Block.hwReset_live (s : Block W) : s.hwReset.live = false := rfl

@[simp] theorem Block.hwReset_order (s : Block W) : s.hwReset.order = 0 := rfl

@[simp] theorem Block.hwReset_closed (s : Block W) : s.hwReset.closed = 0 := rfl

@[simp] theorem Block.hwReset_mem (s : Block W) : s.hwReset.mem = [] := rfl

@[simp] theorem Block.hwReset_ctxs (s : Block W) :
    s.hwReset.ctxs = List.replicate s.ctxs.length .idle := rfl

@[simp] theorem Block.memWrite_closed_closed (s : Block W) (v : Word W) :
    (s.memWrite .closed v).closed = v := rfl

@[simp] theorem Block.memWrite_closed_mem (s : Block W) (v : Word W) :
    (s.memWrite .closed v).mem = s.mem := rfl

theorem Block.memWrite_mem (s : Block W) {l : Loc} (v : Word W) (h : l ≠ .closed) :
    (s.memWrite l v).mem = Mem.write s.mem (s.addr l) v := by
  cases l <;> first | rfl | exact absurd rfl h

theorem Block.memWrite_closed (s : Block W) {l : Loc} (v : Word W) (h : l ≠ .closed) :
    (s.memWrite l v).closed = s.closed := by
  cases l <;> first | rfl | exact absurd rfl h

/-! ### What is computed from the fields -/

@[simp] theorem Block.memWrite_k (s : Block W) (l : Loc) (v : Word W) : (s.memWrite l v).k = s.k := by cases l <;> rfl

@[simp] theorem Block.memWrite_addr (s : Block W) (l : Loc) (v : Word W) (m : Loc) : (s.memWrite l v).addr m = s.addr m := by cases l <;> rfl

@[simp] theorem Block.memWrite_hasLoc (s : Block W) (l : Loc) (v : Word W) (m : Loc) : (s.memWrite l v).hasLoc m = s.hasLoc m := by cases l <;> rfl

@[simp] theorem Block.setCtx_k (s : Block W) (c : Nat) (x : Ctx W) : (s.setCtx c x).k = s.k := rfl

@[simp] theorem Block.setCtx_addr (s : Block W) (c : Nat) (x : Ctx W) (m : Loc) : (s.setCtx c x).addr m = s.addr m := rfl

@[simp] theorem Block.setCtx_hasLoc (s : Block W) (c : Nat) (x : Ctx W) (m : Loc) : (s.setCtx c x).hasLoc m = s.hasLoc m := rfl

@[simp] theorem Block.emit_k (s : Block W) (o : Output W) : (s.emit o).k = s.k := rfl

@[simp] theorem Block.emit_addr (s : Block W) (o : Output W) (m : Loc) : (s.emit o).addr m = s.addr m := rfl

@[simp] theorem Block.emit_hasLoc (s : Block W) (o : Output W) (m : Loc) : (s.emit o).hasLoc m = s.hasLoc m := rfl

@[simp] theorem Block.finish_k (s : Block W) : (s.finish).k = s.k := rfl

@[simp] theorem Block.finish_addr (s : Block W) (m : Loc) : (s.finish).addr m = s.addr m := rfl

@[simp] theorem Block.finish_hasLoc (s : Block W) (m : Loc) : (s.finish).hasLoc m = s.hasLoc m := rfl

@[simp] theorem Block.open_k (s : Block W) : (s.open).k = s.k := rfl

@[simp] theorem Block.open_addr (s : Block W) (m : Loc) : (s.open).addr m = s.addr m := rfl

@[simp] theorem Block.placePacket_k (s : Block W) (p : Packet W) : (s.placePacket p).k = s.k := rfl

@[simp] theorem Block.placePacket_addr (s : Block W) (p : Packet W) (m : Loc) : (s.placePacket p).addr m = s.addr m := rfl

@[simp] theorem Block.placePacket_hasLoc (s : Block W) (p : Packet W) (m : Loc) : (s.placePacket p).hasLoc m = s.hasLoc m := rfl

@[simp] theorem Block.setCtx_memRead (s : Block W) (c : Nat) (x : Ctx W) (m : Loc) : (s.setCtx c x).memRead m = s.memRead m := by
  cases m <;> rfl

@[simp] theorem Block.emit_memRead (s : Block W) (o : Output W) (m : Loc) : (s.emit o).memRead m = s.memRead m := by
  cases m <;> rfl

@[simp] theorem Block.finish_memRead (s : Block W) (m : Loc) : (s.finish).memRead m = s.memRead m := by
  cases m <;> rfl

@[simp] theorem Block.memWrite_ctx (s : Block W) (l : Loc) (v : Word W) (c : Nat) :
    (s.memWrite l v).ctx c = s.ctx c := by simp [Block.ctx]

@[simp] theorem Block.emit_ctx (s : Block W) (o : Output W) (c : Nat) : (s.emit o).ctx c = s.ctx c := rfl

theorem Block.setCtx_ctx_other (s : Block W) {c d : Nat} (x : Ctx W) (h : d ≠ c) :
    (s.setCtx c x).ctx d = s.ctx d := by
  simp [Block.ctx, Ne.symm h]

theorem Block.setCtx_ctx_self (s : Block W) {c : Nat} (x : Ctx W) {y : Ctx W} (h : s.ctx c = some y) :
    (s.setCtx c x).ctx c = some x := by
  have hc : c < s.ctxs.length := (List.getElem?_eq_some_iff.1 h).1
  simp [Block.ctx, hc]

/-- The words of the block after a store: the word stored at its own offset, every other as before. -/
theorem Block.memWrite_read (s : Block W) {l : Loc} (v : Word W) (h : l ≠ .closed) (a : Nat) :
    Mem.read (s.memWrite l v).mem a = if a = s.addr l then some v else Mem.read s.mem a := by
  rw [Block.memWrite_mem s v h, Mem.read_write]

/-- A load from the location just stored to gives the word stored. -/
@[simp] theorem Block.memRead_memWrite_same (s : Block W) (l : Loc) (v : Word W) :
    (s.memWrite l v).memRead l = v := by
  cases l <;>
    simp [Block.memWrite, Block.memRead, Block.addr, Mem.read_write_same]

/-- Every store keeps the canonical form of the block. -/
theorem Block.memWrite_wf {s : Block W} (h : Mem.wf s.mem = true) (l : Loc) (v : Word W) :
    Mem.wf (s.memWrite l v).mem = true := by
  cases l <;> first | exact h | exact Mem.wf_write h _ _

/-- The block of the reset state is in canonical form. -/
theorem Block.reset_wf : Mem.wf State.reset.block.mem = true := rfl

end Sys2Proof.Machine
end

