-- ==== Sys2Proof/Laws/Ops.lean ====
section
/-! SUPPORT. What each shared operation can do, said once: what it comes to where the location exists, and what must
have held where it answered a next state. -/

namespace Sys2Proof.Machine

variable {W : Nat}

/-! ### The primitives where the location exists -/

theorem ldOp_of_hasLoc {s : Block W} {l : Loc} {k : Word W → Res W} (h : s.hasLoc l = true) :
    ldOp l s k = k (s.memRead l) := by simp [ldOp, h]

theorem stOp_of_hasLoc {s : Block W} {l : Loc} {v : Word W} {k : Block W → Res W}
    (h : s.hasLoc l = true) : stOp l v s k = k (s.memWrite l v) := by simp [stOp, h]

theorem faaOp_of_hasLoc {s : Block W} {l : Loc} {d : Word W} {k : Word W → Block W → Res W}
    (h : s.hasLoc l = true) :
    faaOp l d s k = k (s.memRead l) (s.memWrite l (s.memRead l + d)) := by
  simp [faaOp, fetchOp, h]

theorem fsubOp_of_hasLoc {s : Block W} {l : Loc} {d : Word W} {k : Word W → Block W → Res W}
    (h : s.hasLoc l = true) :
    fsubOp l d s k = k (s.memRead l) (s.memWrite l (s.memRead l - d)) := by
  simp [fsubOp, fetchOp, h]

theorem forOp_of_hasLoc {s : Block W} {l : Loc} {m : Word W} {k : Word W → Block W → Res W}
    (h : s.hasLoc l = true) :
    forOp l m s k = k (s.memRead l) (s.memWrite l (s.memRead l ||| m)) := by
  simp [forOp, fetchOp, h]

theorem casOp_of_eq {s : Block W} {l : Loc} {e v : Word W} {k : Bool → Word W → Block W → Res W}
    (h : s.hasLoc l = true) (he : s.memRead l = e) :
    casOp l e v s k = k true (s.memRead l) (s.memWrite l v) := by simp [casOp, h, he]

theorem casOp_of_ne {s : Block W} {l : Loc} {e v : Word W} {k : Bool → Word W → Block W → Res W}
    (h : s.hasLoc l = true) (he : s.memRead l ≠ e) :
    casOp l e v s k = k false (s.memRead l) s := by simp [casOp, h, he]

/-! ### The primitives where a step went on -/

theorem ldOp_next {s t : Block W} {l : Loc} {k : Word W → Res W} (h : ldOp l s k = .next t) :
    s.hasLoc l = true ∧ k (s.memRead l) = .next t := by
  unfold ldOp at h
  split at h
  · next hl => exact ⟨hl, h⟩
  · cases h

theorem stOp_next {s t : Block W} {l : Loc} {v : Word W} {k : Block W → Res W}
    (h : stOp l v s k = .next t) : s.hasLoc l = true ∧ k (s.memWrite l v) = .next t := by
  unfold stOp at h
  split at h
  · next hl => exact ⟨hl, h⟩
  · cases h

theorem fetchOp_next {f : Word W → Word W} {s t : Block W} {l : Loc} {k : Word W → Block W → Res W}
    (h : fetchOp f l s k = .next t) :
    s.hasLoc l = true ∧ k (s.memRead l) (s.memWrite l (f (s.memRead l))) = .next t := by
  unfold fetchOp at h
  split at h
  · next hl => exact ⟨hl, h⟩
  · cases h

theorem faaOp_next {s t : Block W} {l : Loc} {d : Word W} {k : Word W → Block W → Res W}
    (h : faaOp l d s k = .next t) :
    s.hasLoc l = true ∧ k (s.memRead l) (s.memWrite l (s.memRead l + d)) = .next t :=
  fetchOp_next h

theorem fsubOp_next {s t : Block W} {l : Loc} {d : Word W} {k : Word W → Block W → Res W}
    (h : fsubOp l d s k = .next t) :
    s.hasLoc l = true ∧ k (s.memRead l) (s.memWrite l (s.memRead l - d)) = .next t :=
  fetchOp_next h

theorem forOp_next {s t : Block W} {l : Loc} {m : Word W} {k : Word W → Block W → Res W}
    (h : forOp l m s k = .next t) :
    s.hasLoc l = true ∧ k (s.memRead l) (s.memWrite l (s.memRead l ||| m)) = .next t :=
  fetchOp_next h

theorem casOp_next {s t : Block W} {l : Loc} {e v : Word W} {k : Bool → Word W → Block W → Res W}
    (h : casOp l e v s k = .next t) :
    s.hasLoc l = true ∧
      ((s.memRead l = e ∧ k true (s.memRead l) (s.memWrite l v) = .next t) ∨
        (s.memRead l ≠ e ∧ k false (s.memRead l) s = .next t)) := by
  unfold casOp at h
  split at h
  · next hl =>
    split at h
    · next he => exact ⟨hl, .inl ⟨he, h⟩⟩
    · next he => exact ⟨hl, .inr ⟨he, h⟩⟩
  · cases h

/-! ### The count of a spin -/

@[simp] theorem Regs.countSpin_op (x : Regs W) : x.countSpin.op = x.op := rfl

@[simp] theorem Regs.countSpin_arg (x : Regs W) : x.countSpin.arg = x.arg := rfl

@[simp] theorem Regs.countSpin_r (x : Regs W) : x.countSpin.r = x.r := rfl

@[simp] theorem Regs.countSpin_hint (x : Regs W) : x.countSpin.hint = x.hint := rfl

@[simp] theorem Regs.countSpin_vidx (x : Regs W) : x.countSpin.vidx = x.vidx := rfl

@[simp] theorem Regs.countSpin_t (x : Regs W) : x.countSpin.t = x.t := rfl

@[simp] theorem Regs.countSpin_tcyc (x : Regs W) : x.countSpin.tcyc = x.tcyc := rfl

@[simp] theorem Regs.countSpin_h (x : Regs W) : x.countSpin.h = x.h := rfl

@[simp] theorem Regs.countSpin_hcyc (x : Regs W) : x.countSpin.hcyc = x.hcyc := rfl

@[simp] theorem Regs.countSpin_pos (x : Regs W) : x.countSpin.pos = x.pos := rfl

@[simp] theorem Regs.countSpin_entry (x : Regs W) : x.countSpin.entry = x.entry := rfl

@[simp] theorem Regs.countSpin_new (x : Regs W) : x.countSpin.new = x.new := rfl

@[simp] theorem Regs.countSpin_hd (x : Regs W) : x.countSpin.hd = x.hd := rfl

@[simp] theorem Regs.countSpin_tl (x : Regs W) : x.countSpin.tl = x.tl := rfl

@[simp] theorem Regs.countSpin_th (x : Regs W) : x.countSpin.th = x.th := rfl

@[simp] theorem Regs.countSpin_cl (x : Regs W) : x.countSpin.cl = x.cl := rfl

@[simp] theorem Regs.countSpin_idx (x : Regs W) : x.countSpin.idx = x.idx := rfl

@[simp] theorem Regs.countSpin_val (x : Regs W) : x.countSpin.val = x.val := rfl

@[simp] theorem Regs.countSpin_di (x : Regs W) : x.countSpin.di = x.di := rfl

@[simp] theorem Regs.countSpin_drv (x : Regs W) : x.countSpin.drv = x.drv := rfl

@[simp] theorem Regs.countSpin_attempt (x : Regs W) : x.countSpin.attempt = x.attempt + 1 := rfl

/-- Each empty word read adds one to the count, past a wrap of `attempt` too. -/
@[simp] theorem Regs.countSpin_spins (x : Regs W) : x.countSpin.spins = x.spins + 1 := by
  by_cases h : x.attempt.toNat + 1 < 2 ^ W
  · have ha : (x.attempt + 1).toNat = x.attempt.toNat + 1 := by
      simp [BitVec.toNat_add, Nat.mod_eq_of_lt h]
    have hz : x.attempt + 1 ≠ 0 := by
      intro h0
      rw [h0] at ha
      simp at ha
    have hw : x.countSpin.attemptWraps = x.attemptWraps := if_neg hz
    rw [Regs.spins, hw, Regs.countSpin_attempt, ha, Regs.spins]
    omega
  · have hm : x.attempt.toNat + 1 = 2 ^ W := by have := x.attempt.isLt; omega
    have hz : x.attempt + 1 = 0 := by
      apply BitVec.eq_of_toNat_eq
      simp [BitVec.toNat_add, hm]
    have hw : x.countSpin.attemptWraps = x.attemptWraps + 1 := if_pos hz
    have ht : x.countSpin.attempt.toNat = 0 := by simp [hm]
    rw [Regs.spins, hw, ht, Regs.spins, Nat.succ_mul]
    omega

/-- `attempt` is the count modulo `2^W`. -/
theorem Regs.ofNat_spins (x : Regs W) : BitVec.ofNat W x.spins = x.attempt := by
  apply BitVec.eq_of_toNat_eq
  rw [BitVec.toNat_ofNat, Regs.spins, Nat.mul_add_mod_self_right, Nat.mod_eq_of_lt x.attempt.isLt]

/-- `attemptWraps` is how many times `2^W` goes into the count. -/
theorem Regs.spins_div (x : Regs W) : x.spins / 2 ^ W = x.attemptWraps := by
  rw [Regs.spins, Nat.mul_comm, Nat.mul_add_div (Nat.two_pow_pos W), Nat.div_eq_of_lt x.attempt.isLt,
    Nat.add_zero]

/-- Counting a spin, in terms of the count. -/
theorem Regs.countSpin_eq (x : Regs W) :
    x.countSpin = { x with attempt := x.attempt + 1, attemptWraps := (x.spins + 1) / 2 ^ W } := by
  rw [← Regs.countSpin_spins, Regs.spins_div]
  rfl

/-! ### Contexts -/

theorem onContext_of_idle {i : Instr} {s : Block W} {start : Res W} {resume : Phase → Regs W → Res W}
    (h : s.ctx s.cur = some .idle) : onContext i s start resume = start := by
  simp [onContext, h]

theorem onContext_of_running {i : Instr} {s : Block W} {ph : Phase} {x : Regs W} {start : Res W}
    {resume : Phase → Regs W → Res W} (h : s.running i ph x) :
    onContext i s start resume = resume ph x := by
  simp [onContext, h.1, h.2]

theorem onContext_next {i : Instr} {s t : Block W} {start : Res W} {resume : Phase → Regs W → Res W}
    (h : onContext i s start resume = .next t) :
    (s.ctx s.cur = some .idle ∧ start = .next t) ∨
      ∃ ph x, s.running i ph x ∧ resume ph x = .next t := by
  unfold onContext at h
  split at h
  · cases h
  · next hc => exact .inl ⟨hc, h⟩
  · next ph x hc =>
    split at h
    · next hi => exact .inr ⟨ph, x, ⟨hc, hi⟩, h⟩
    · cases h

theorem goto_next {ph : Phase} {x : Regs W} {s t : Block W} (h : goto ph x s = .next t) :
    t = s.setCtx s.cur (.busy ph x) := by
  cases h
  rfl

theorem respond_next {st : Status} {d : Option (Word W)} {s t : Block W}
    (h : respond st d s = .next t) : t = s.finish.emit (.response s.cur ⟨st, d⟩) := by
  cases h
  rfl

theorem finishRing_next {res : RingResult W} {s t : Block W} (h : finishRing res s = .next t) :
    t = s.finish.emit (.ringResult s.cur res) := by
  cases h
  rfl

theorem finishPrim_next {res : PrimResult W} {s t : Block W} (h : finishPrim res s = .next t) :
    t = s.emit (.primResult s.cur res) := by
  cases h
  rfl

theorem needLive_next {s t : Block W} {r : Res W} (h : needLive s r = .next t) :
    s.live = true ∧ r = .next t := by
  unfold needLive at h
  split at h
  · next hl => exact ⟨hl, h⟩
  · cases h

theorem needNoLifecycle_next {s t : Block W} {r : Res W} (h : needNoLifecycle s r = .next t) :
    s.ctxs.any Ctx.inLifecycle = false ∧ r = .next t := by
  unfold needNoLifecycle at h
  split at h
  · cases h
  · next hl => exact ⟨by simpa using hl, h⟩

theorem needQuiescent_next {s t : Block W} {r : Res W} (h : needQuiescent s r = .next t) :
    s.ctxs.any Ctx.isBusy = false ∧ r = .next t := by
  unfold needQuiescent at h
  split at h
  · cases h
  · next hl => exact ⟨by simpa using hl, h⟩

/-! ### The machine and its block -/

/-- The machine goes on as its block does, at the same width. -/
theorem ofBlock_next_state {r : Res W} {t : State} :
    ofBlock r = .next t ↔ ∃ u : Block W, r = .next u ∧ t = ⟨W, u⟩ := by
  cases r <;> simp [ofBlock, eq_comm]

@[simp] theorem ofBlock_next {r : Res W} {t : Block W} : ofBlock r = .next ⟨W, t⟩ ↔ r = .next t := by
  cases r <;> simp [ofBlock]

@[simp] theorem ofBlock_fault {r : Res W} {e : Fault} : ofBlock r = .fault e ↔ r = .fault e := by
  cases r <;> simp [ofBlock]

@[simp] theorem ofBlock_refused {r : Res W} {e : Refusal} :
    ofBlock r = .refused e ↔ r = .refused e := by
  cases r <;> simp [ofBlock]

/-- One step of an operation in a block: what `exec` runs in the machine's block. -/
def blockExec : Instr → Block W → Res W
  | .create arg => blockCreate arg
  | .enqueue arg => blockEnqueue arg
  | .dequeue arg => blockDequeue arg
  | .close arg => blockClose arg
  | .destroy arg => blockDestroy arg
  | .dump arg => blockDump arg
  | .ringInitEmpty r => blockRingInitEmpty r
  | .ringInitFill r start fin => blockRingInitFill r start fin
  | .ringTryEnq r hint vidx => blockRingTryEnq r hint vidx
  | .ringTryDeq r hint => blockRingTryDeq r hint
  | .ringCatchup r tl hd => blockRingCatchup r tl hd
  | .ld l => blockLd l
  | .st l v => blockSt l v
  | .faa l d => blockFaa l d
  | .fsub l d => blockFsub l d
  | .fetchOr l m => blockFor l m
  | .cas l e v => blockCas l e v

theorem exec_eq (i : Instr) (s : Block W) : exec i ⟨W, s⟩ = ofBlock (blockExec i s) := by
  cases i <;> rfl

/-- `exec` goes on in the machine exactly as it does in its block. -/
theorem exec_next {i : Instr} {s t : Block W} :
    exec i ⟨W, s⟩ = .next ⟨W, t⟩ ↔ blockExec i s = .next t := by
  rw [exec_eq, ofBlock_next]

/-- No operation changes the width. -/
theorem exec_next_state {i : Instr} {s : Block W} {t : State} :
    exec i ⟨W, s⟩ = .next t ↔ ∃ u : Block W, blockExec i s = .next u ∧ t = ⟨W, u⟩ := by
  rw [exec_eq, ofBlock_next_state]

/-! ### Ordering -/

/-- A load reads what the store before it left, whichever context does each and with nothing between them: the
order of the steps is all the ordering there is (20_memory.md R64, R67). -/
theorem blockLd_after_blockSt {s t : Block W} {l : Loc} {v : Nat} (h : blockSt l v s = .next t) (d : Nat) :
    blockLd l { t with cur := d } =
      .next ({ t with cur := d }.emit (.primResult d (.word (BitVec.ofNat W v)))) := by
  obtain ⟨hl, h⟩ := stOp_next h
  obtain rfl := finishPrim_next h
  have hd : ∀ t : Block W, ({ t with cur := d } : Block W).memRead l = t.memRead l := fun _ => by cases l <;> rfl
  rw [blockLd, ldOp_of_hasLoc (by simpa [Block.hasLoc] using hl), hd, Block.emit_memRead,
    Block.memRead_memWrite_same]
  rfl

/-! ### The step -/

/-- One step of the block. -/
def blockStep (s : Block W) : Res W :=
  match fetch s with
  | .run i t => blockExec i t
  | .settled r => r

theorem step_eq (s : Block W) : step ⟨W, s⟩ = ofBlock (blockStep s) := by
  cases hf : fetch s with
  | run i t => simp only [step, blockStep, hf, exec_eq]
  | settled r => simp only [step, State.onBlock, blockStep, hf]

/-- A step goes on in the machine exactly as it does in its block. -/
theorem step_next_block {s t : Block W} : step ⟨W, s⟩ = .next ⟨W, t⟩ ↔ blockStep s = .next t := by
  rw [step_eq, ofBlock_next]

/-- No step changes the width. -/
theorem step_next_state {s : Block W} {t : State} :
    step ⟨W, s⟩ = .next t ↔ ∃ u : Block W, blockStep s = .next u ∧ t = ⟨W, u⟩ := by
  rw [step_eq, ofBlock_next_state]

/-- What a step that goes on can have been: nothing, a reset, a step granted to an idle context, an
operation taken from a packet, or one more step of the operation a context is running. -/
theorem blockStep_next {s t : Block W} (h : blockStep s = .next t) :
    (s.env = [] ∧ t = s) ∨
    (∃ rest, s.env = .reset :: rest ∧ t = Block.hwReset { s with env := rest }) ∨
    (∃ c ok rest, s.env = .run c ok :: rest ∧ s.ctx c = some .idle ∧ t = { s with env := rest }) ∨
    (∃ c p i rest, s.env = .present c p :: rest ∧ s.ctx c = some .idle ∧ decode p = .ok i ∧
      blockExec i { s with env := rest, cur := c } = .next t) ∨
    (∃ c ok ph x i rest, s.env = .run c ok :: rest ∧ s.ctx c = some (.busy ph x) ∧
      Ctx.instr (.busy ph x) = some i ∧
      blockExec i { s with env := rest, cur := c, allocOk := ok } = .next t) := by
  unfold blockStep fetch at h
  split at h
  · next i s' hf =>
    split at hf
    · cases hf
    · next c p rest he =>
      simp only [fetchPresented] at hf
      split at hf <;> try cases hf
      next hc =>
      split at hf <;> cases hf
      next hd => exact .inr (.inr (.inr (.inl ⟨c, p, i, rest, he, hc, hd, h⟩)))
    · next c ok rest he =>
      simp only [fetchGranted] at hf
      split at hf <;> try cases hf
      next ph x hc =>
      split at hf <;> cases hf
      next hi => exact .inr (.inr (.inr (.inr ⟨c, ok, ph, x, i, rest, he, hc, hi, h⟩)))
    · cases hf
  · next r hf =>
    subst h
    split at hf
    · next he => cases hf; exact .inl ⟨he, rfl⟩
    · next c p rest he =>
      simp only [fetchPresented] at hf
      split at hf <;> try cases hf
      split at hf <;> cases hf
    · next c ok rest he =>
      simp only [fetchGranted] at hf
      split at hf
      · cases hf
      · next hc => cases hf; exact .inr (.inr (.inl ⟨c, ok, rest, he, hc, rfl⟩))
      · split at hf <;> cases hf
    · next rest he => cases hf; exact .inr (.inl ⟨rest, he, rfl⟩)

end Sys2Proof.Machine
end

