-- ==== Sys2Proof/Laws/Frame.lean ====
section
/-! SUPPORT. The frame of the updates a step is made of, and what one step of a ring operation is for each operation
that runs its phases, and a run one step at a time. -/

namespace Sys2Proof.Machine

variable {W : Nat}

/-! ### Frames -/

theorem Frame.refl (s : Block W) (c : Nat) (ls : List Loc) : Frame s s c ls where
  mem _ _ := rfl
  closed _ := rfl
  live := rfl
  order := rfl
  cfg := rfl
  life := rfl
  env := rfl
  cur := rfl
  allocOk := rfl
  nctx := rfl
  others _ _ := rfl

/-- A store changes the location stored to and nothing else. -/
theorem Frame.memWrite (s : Block W) (c : Nat) (l : Loc) (v : Word W) {ls : List Loc} (hl : l ∈ ls) :
    Frame s (s.memWrite l v) c ls where
  mem a ha := by
    by_cases hc : l = .closed
    · subst hc; rfl
    · rw [Block.memWrite_read s v hc, if_neg (ha l hl hc)]
  closed h := by
    refine Block.memWrite_closed s v ?_
    rintro rfl
    exact h hl
  live := by simp
  order := by simp
  cfg := by simp
  life := by simp
  env := by simp
  cur := by simp
  allocOk := by simp
  nctx := by simp
  others _ _ := by simp

theorem Frame.setCtx (s : Block W) (c : Nat) (x : Ctx W) (ls : List Loc) :
    Frame s (s.setCtx c x) c ls where
  mem _ _ := rfl
  closed _ := rfl
  live := rfl
  order := rfl
  cfg := rfl
  life := rfl
  env := rfl
  cur := rfl
  allocOk := rfl
  nctx := by simp
  others _ hd := Block.setCtx_ctx_other s x hd

theorem Frame.emit (s : Block W) (c : Nat) (o : Output W) (ls : List Loc) :
    Frame s (s.emit o) c ls where
  mem _ _ := rfl
  closed _ := rfl
  live := rfl
  order := rfl
  cfg := rfl
  life := rfl
  env := rfl
  cur := rfl
  allocOk := rfl
  nctx := rfl
  others _ _ := rfl

theorem Frame.trans {s t u : Block W} {c : Nat} {ls : List Loc} (h : Frame s t c ls)
    (g : Frame t u c ls) : Frame s u c ls where
  mem a ha := by
    rw [g.mem a, h.mem a ha]
    intro l hl hc
    have := ha l hl hc
    simpa [Block.addr, h.cfg, h.order] using this
  closed hc := (g.closed hc).trans (h.closed hc)
  live := g.live.trans h.live
  order := g.order.trans h.order
  cfg := g.cfg.trans h.cfg
  life := g.life.trans h.life
  env := g.env.trans h.env
  cur := g.cur.trans h.cur
  allocOk := g.allocOk.trans h.allocOk
  nctx := g.nctx.trans h.nctx
  others d hd := (g.others d hd).trans (h.others d hd)

theorem Frame.finish (s : Block W) (ls : List Loc) : Frame s s.finish s.cur ls :=
  Frame.setCtx s s.cur .idle ls

/-! ### One step of a ring operation -/

/-- What the return of `RING_TRY_ENQ` does, by the operation that runs it. -/
def enqReturn : Instr → Regs W → Block W → Res W
  | .enqueue _ => published
  | .dequeue _ => released
  | _ => fun _ s => finishRing .done s

/-- What the return of `RING_TRY_DEQ` does, by the operation that runs it. -/
def deqReturn : Instr → Bool → Regs W → Block W → Res W
  | .enqueue _ => claimedFree
  | .dequeue _ => claimedValue
  | _ => fun found x s => finishRing (if found then .found x.idx else .notFound) s

/-- Where `RING_CATCHUP` continues, by the operation that runs it. -/
def catLeave : Instr → Regs W → Block W → Res W
  | .ringCatchup _ _ _ => fun _ s => finishRing .done s
  | _ => leaveToD7

theorem blockExec_enq {i : Instr} {e : EnqPhase} {x : Regs W} {s : Block W} (hi : runsEnq i = true)
    (h : s.running i (.enq e) x) : blockExec i s = tryEnqPhase e x s (enqReturn i) := by
  cases i <;> cases hi
  all_goals
    simp only [blockExec, blockEnqueue, blockDequeue, blockRingTryEnq, onContext_of_running h, enqReturn]

theorem blockExec_deq {i : Instr} {d : DeqPhase} {x : Regs W} {s : Block W} (hi : runsDeq i = true)
    (h : s.running i (.deq d) x) : blockExec i s = tryDeqPhase d x s (deqReturn i) := by
  cases i <;> cases hi
  all_goals
    simp only [blockExec, blockEnqueue, blockDequeue, blockRingTryDeq, onContext_of_running h, deqReturn]

theorem blockExec_cat {i : Instr} {c : CatPhase} {x : Regs W} {s : Block W} (hi : runsCat i = true)
    (h : s.running i (.cat c) x) : blockExec i s = catchupPhase c x s (catLeave i) := by
  cases i <;> cases hi
  all_goals
    simp only [blockExec, blockEnqueue, blockDequeue, blockRingTryDeq, blockRingCatchup,
      onContext_of_running h, catLeave]

/-! ### Runs -/

/-- A run whose first step goes on is the run of the remaining steps from there. -/
theorem core_run_succ {k : Nat} {s t : State} (h : step s = .next t) :
    Host.Core.run core (k + 1) s = Host.Core.run core k t := by
  simp only [Host.Core.run, show core.step s = .next t from h]

end Sys2Proof.Machine
end

