-- ==== Sys2Proof/Laws/PerInstr.lean ====
section
/-! SUPPORT. Statements made per instruction. -/

namespace Sys2Proof.Laws.OpcodeBits

variable {W : Nat}

/-- The bits of a packet that spec/opcode_table.json selects its row by (spec/30_encoding.md rule R93): the
three `op` bits, the five select bits, the three `mop` bits. -/
def field : Packet W → Nat
  | .q w => (qOp w).toNat
  | .r sel _ _ => sel.toNat
  | .m mop _ _ _ => mop.toNat

/-- The mask and the match of an operation's row of spec/opcode_table.json. -/
def row : Instr → Nat × Nat
  | .create _ => (0x7, 0x0)
  | .enqueue _ => (0x7, 0x1)
  | .dequeue _ => (0x7, 0x2)
  | .close _ => (0x7, 0x3)
  | .destroy _ => (0x7, 0x4)
  | .dump _ => (0x7, 0x5)
  | .ringInitEmpty _ => (0xE, 0x0)
  | .ringInitFill _ _ _ => (0xE, 0x2)
  | .ringTryEnq _ _ _ => (0xE, 0x4)
  | .ringTryDeq _ _ => (0xE, 0x6)
  | .ringCatchup _ _ _ => (0xE, 0x8)
  | .ld _ => (0x7, 0x0)
  | .st _ _ => (0x7, 0x1)
  | .faa _ _ => (0x7, 0x2)
  | .fsub _ _ => (0x7, 0x3)
  | .fetchOr _ _ => (0x7, 0x4)
  | .cas _ _ _ => (0x7, 0x5)

/-- At every width the encoder writes an operation under the row the table gives it (R93). -/
def Statement (i : Instr) : Prop := ∀ W : Nat, field (encode W i) &&& (row i).1 = (row i).2

theorem qOp_qWord (op : BitVec 3) (arg : Word W) : qOp (qWord op arg) = op :=
  BitVec.extractLsb'_append_eq_left

theorem create (arg : Nat) : Statement (.create arg) := by
  intro W
  simp [field, row, encode, qOp_qWord]

theorem enqueue (arg : Nat) : Statement (.enqueue arg) := by
  intro W
  simp [field, row, encode, qOp_qWord]

theorem dequeue (arg : Nat) : Statement (.dequeue arg) := by
  intro W
  simp [field, row, encode, qOp_qWord]

theorem close (arg : Nat) : Statement (.close arg) := by
  intro W
  simp [field, row, encode, qOp_qWord]

theorem destroy (arg : Nat) : Statement (.destroy arg) := by
  intro W
  simp [field, row, encode, qOp_qWord]

theorem dump (arg : Nat) : Statement (.dump arg) := by
  intro W
  simp [field, row, encode, qOp_qWord]

theorem ringInitEmpty (r : Ring) : Statement (.ringInitEmpty r) := by
  intro W
  cases r <;> simp [field, row, encode, selectBits]

theorem ringInitFill (r : Ring) (start fin : Nat) : Statement (.ringInitFill r start fin) := by
  intro W
  cases r <;> simp [field, row, encode, selectBits]

theorem ringTryEnq (r : Ring) (hint : Bool) (vidx : Nat) : Statement (.ringTryEnq r hint vidx) := by
  intro W
  cases r <;> cases hint <;> simp [field, row, encode, selectBits]

theorem ringTryDeq (r : Ring) (hint : Bool) : Statement (.ringTryDeq r hint) := by
  intro W
  cases r <;> cases hint <;> simp [field, row, encode, selectBits]

theorem ringCatchup (r : Ring) (tl hd : Nat) : Statement (.ringCatchup r tl hd) := by
  intro W
  cases r <;> simp [field, row, encode, selectBits]

theorem ld (l : Loc) : Statement (.ld l) := by
  intro W
  simp [field, row, encode]

theorem st (l : Loc) (v : Nat) : Statement (.st l v) := by
  intro W
  simp [field, row, encode]

theorem faa (l : Loc) (d : Nat) : Statement (.faa l d) := by
  intro W
  simp [field, row, encode]

theorem fsub (l : Loc) (d : Nat) : Statement (.fsub l d) := by
  intro W
  simp [field, row, encode]

theorem fetchOr (l : Loc) (m : Nat) : Statement (.fetchOr l m) := by
  intro W
  simp [field, row, encode]

theorem cas (l : Loc) (expected new : Nat) : Statement (.cas l expected new) := by
  intro W
  simp [field, row, encode]

end Sys2Proof.Laws.OpcodeBits
end

