-- ==== Sys2Proof/Tests/Slice0.lean ====
section
/-! SUPPORT. Tests of the model on small states, their expected results taken from spec/95_test_vectors.md or worked
out from the rules named, and for every statement with hypotheses a state that meets them. -/

namespace Sys2Proof.Tests

open Sys2Proof.Machine

/-! ### Well-formedness: an ill-formed operation for each check -/

/-- `CREATE` with `order > ORDER_MAX` (30_encoding.md R84). -/
theorem test_wf_refuses_large_order : Instr.wf 64 .default 0 (.create 61) = false := by decide

theorem test_wf_admits_largest_order : Instr.wf 64 .default 0 (.create 60) = true := by decide

/-- `RING_INIT_FILL` with `start > end` (41_ring_buffer.md R122). -/
theorem test_wf_refuses_start_above_end : Instr.wf 64 .default 2 (.ringInitFill .fq 2 1) = false := by
  decide

/-- `RING_INIT_FILL` with `end > CAP` (R122). -/
theorem test_wf_refuses_end_above_cap : Instr.wf 64 .default 2 (.ringInitFill .fq 0 5) = false := by
  decide

/-- `RING_TRY_ENQ` with `vidx >= CAP` (R123). -/
theorem test_wf_refuses_vidx_at_cap : Instr.wf 64 .default 2 (.ringTryEnq .aq false 4) = false := by
  decide

/-- A slot past the array (20_memory.md R50). -/
theorem test_wf_refuses_slot_past_array : Instr.wf 64 .default 2 (.ld (.slot .aq 8)) = false := by decide

/-- A value word past the value array (R50). -/
theorem test_wf_refuses_value_past_array : Instr.wf 64 .default 2 (.st (.val 4) 0) = false := by decide

/-- An operand word wider than the block's (30_encoding.md R81). -/
theorem test_wf_refuses_wide_operand :
    Instr.wf 32 .default 0 (.enqueue 0x100000000) = false ∧
      Instr.wf 32 .default 0 (.enqueue 0xFFFFFFFF) = true := by decide

/-- Parameters with `ORDER_MAX + 4 > W`, and with no context (00_scope.md R8). -/
theorem test_params_refused :
    Params.wf 63 4 .default = false ∧ Params.wf 64 0 .default = false ∧
      Params.wf 64 1 .default = true := by decide

/-! ### Decoding: a word for each operation, written out from the encodings of 30_encoding.md -/

/-- R81, R82: `op` in the top hexadecimal digit, `arg` in the sixteen below (the Q words of traces T1, T3,
T4 and of `create(1)`). -/
theorem test_decode_create : decode (W := 64) (.q 0x00000000000000001#67) = .ok (.create 1) := by decide

theorem test_decode_enqueue : decode (W := 64) (.q 0x10000000000000041#67) = .ok (.enqueue 0x41) := by decide

theorem test_decode_dequeue : decode (W := 64) (.q 0x20000000000000000#67) = .ok (.dequeue 0) := by decide

theorem test_decode_close : decode (W := 64) (.q 0x30000000000000000#67) = .ok (.close 0) := by decide

theorem test_decode_destroy : decode (W := 64) (.q 0x40000000000000000#67) = .ok (.destroy 0) := by decide

theorem test_decode_dump : decode (W := 64) (.q 0x50000000000000000#67) = .ok (.dump 0) := by decide

/-- R87: `ring` in bit 4, `rop` in bits 3 to 1, `hint` in bit 0. -/
theorem test_decode_ring_init_empty : decode (W := 64) (.r 0b10000#5 0 0) = .ok (.ringInitEmpty .fq) := by decide

theorem test_decode_ring_init_fill : decode (W := 64) (.r 0b00010#5 1 4) = .ok (.ringInitFill .aq 1 4) := by decide

theorem test_decode_ring_try_enq :
    decode (W := 64) (.r 0b00101#5 3 0) = .ok (.ringTryEnq .aq true 3) := by decide

theorem test_decode_ring_try_deq : decode (W := 64) (.r 0b10110#5 0 0) = .ok (.ringTryDeq .fq false) := by decide

theorem test_decode_ring_catchup : decode (W := 64) (.r 0b01000#5 1 2) = .ok (.ringCatchup .aq 1 2) := by decide

/-- R88: the six `mop` codes. -/
theorem test_decode_ld : decode (W := 64) (.m 0b000#3 .closed 0 0) = .ok (.ld .closed) := by decide

theorem test_decode_st : decode (W := 64) (.m 0b001#3 (.threshold .aq) 2 0) = .ok (.st (.threshold .aq) 2) := by
  decide

theorem test_decode_faa : decode (W := 64) (.m 0b010#3 (.tail .aq) 1 0) = .ok (.faa (.tail .aq) 1) := by decide

theorem test_decode_fsub : decode (W := 64) (.m 0b011#3 (.threshold .fq) 1 0) = .ok (.fsub (.threshold .fq) 1) := by
  decide

theorem test_decode_for : decode (W := 64) (.m 0b100#3 (.slot .aq 1) 7 0) = .ok (.fetchOr (.slot .aq 1) 7) := by
  decide

theorem test_decode_cas : decode (W := 64) (.m 0b101#3 (.tail .fq) 1 2) = .ok (.cas (.tail .fq) 1 2) := by decide

/-- R81 at `W = 32` and `W = 128`: `op` stands above 8, or 32, hexadecimal digits of `arg`. -/
theorem test_decode_other_widths :
    decode (W := 32) (.q 0x100000041#35) = .ok (.enqueue 0x41) ∧
      decode (W := 128) (.q 0x100000000000000000000000000000041#131) = .ok (.enqueue 0x41) := by decide

/-- R85, R86: the status code stands above the data. -/
theorem test_response_words :
    (⟨.ok, some 0x41⟩ : Response 64).word 0 = 0x00000000000000041#67 ∧
      (⟨.closed, none⟩ : Response 64).word 7 = 0x30000000000000007#67 ∧
      (⟨.allocFail, none⟩ : Response 32).word 0 = 0x400000000#35 ∧
      Status.ofCode 5 = none := by decide

/-- R89: the reserved codes. -/
theorem test_reserved_op :
    decode (W := 64) (.q 0x60000000000000000#67) = .error (.reservedOp 6) ∧
      decode (W := 64) (.q 0x7FFFFFFFFFFFFFFFF#67) = .error (.reservedOp 7) := by decide

theorem test_reserved_rop :
    decode (W := 64) (.r 0b01010#5 0 0) = .error (.reservedRop 5) ∧
      decode (W := 64) (.r 0b11111#5 0 0) = .error (.reservedRop 7) := by decide

theorem test_reserved_mop :
    decode (W := 64) (.m 0b110#3 .closed 0 0) = .error (.reservedMop 6) ∧
      decode (W := 64) (.m 0b111#3 .closed 0 0) = .error (.reservedMop 7) := by decide

/-- The numbers of spec/opcode_table.json: `DUMP`'s `op`, `RING_TRY_DEQ`'s select, and a whole command
word. -/
theorem test_decode_table_words :
    decodeTableWord 8 5 = some (.dump 0) ∧ decodeTableWord 8 6 = some (.ringTryDeq .aq false) ∧
      decodeTableWord 72 0x10000000000000041 = some (.enqueue 0x41) ∧
      decodeTableWord 8 32 = none := by decide

/-! ### Slot Encoding: the vectors of spec/95_test_vectors.md section 2 -/

/-- 2.1, order 4 at `ROT = 3` (one row of the table's fourteen), and order 3's two further values. -/
theorem test_map :
    mapPos (W := 64) 3 5 1 = 8 ∧ mapPos (W := 64) 3 5 4 = 1 ∧ mapPos (W := 64) 3 5 31 = 31 ∧
      mapPos (W := 64) 3 5 29 = 15 ∧
      mapPos (W := 64) 3 4 17 = 8 ∧ mapPos (W := 64) 3 4 0x8000000000000005 = 10 ∧ mapPos (W := 64) 3 3 5 = 5 ∧
      mapPos (W := 64) 1 3 3 = 6 ∧ mapPos (W := 64) 0 2 7 = 3 := by decide

/-- 2.2, `cyc`. -/
theorem test_cyc :
    cyc (W := 64) 3 0 = 0xF ∧ cyc (W := 64) 3 7 = 0xF ∧ cyc (W := 64) 3 8 = 0x1F ∧ cyc (W := 64) 3 19 = 0x2F ∧
      cyc (W := 64) 3 0x8000000000000008 = 0x1F ∧ cyc (W := 64) 3 all1 = all1 ∧
      cyc (W := 64) 1 4 = 0xB := by decide

/-- 2.2, `enc` and `pack`. -/
theorem test_pack :
    enc (W := 64) 3 3 = 4 ∧ pack (W := 64) 3 0 0 = 0x8 ∧ pack (W := 64) 3 3 3 = 0xB ∧
      pack (W := 64) 3 8 0 = 0x18 ∧ pack (W := 64) 3 19 3 = 0x2B ∧
      pack (W := 64) 1 4 0 = 0xA := by decide

/-- 2.3, the decoding functions. -/
theorem test_slot_fields :
    ecyc (W := 64) 3 0x2B = 0x2F ∧ idxOf (W := 64) 3 0x2B = 3 ∧ clearSafe (W := 64) 3 0x2B = 0x23 ∧
      clearSafe (W := 64) 3 0xB = 0x3 ∧
      clearSafe (W := 64) 3 all1 = 0xFFFFFFFFFFFFFFF7 ∧ forceWord (W := 64) 3 0x2F 0x27 = 0x27 ∧
      forceWord (W := 64) 3 0x2F all1 = 0x2F := by decide

/-- 2.3, the classes. -/
theorem test_slot_classes :
    slotClass (W := 64) 3 0x2B = .fullSafe ∧ slotClass (W := 64) 3 0x23 = .fullUnsafe ∧
      slotClass (W := 64) 3 0x2F = .emptySafe ∧
      slotClass (W := 64) 3 0x27 = .emptyUnsafe ∧ slotClass (W := 64) 3 all1 = .emptySafe := by decide

/-- 2.4, `scmp` at `W = 8`. -/
theorem test_scmp :
    scmpLt (250 : BitVec 8) 4 = true ∧ scmpLt (4 : BitVec 8) 250 = false ∧
      scmpLt (0 : BitVec 8) 128 = true ∧ scmpLt (128 : BitVec 8) 0 = true ∧
      scmpGe (127 : BitVec 8) 0 = true ∧ scmpLe (5 : BitVec 8) 5 = true ∧
      scmpLe (5 : BitVec 8) 3 = false := by decide

/-- 2.5, `THRESH` and the fill words. -/
theorem test_constants :
    thresh (W := 64) 0 = 2 ∧ thresh (W := 64) 1 = 5 ∧ thresh (W := 64) 4 = 47 ∧
      fillWord (W := 64) 3 3 = 0xB ∧ bot (W := 64) 5 = 0x1F := by decide

/-! ### Small states -/

/-- The parameters of the order-0 traces: `ROT = 0`, `SPIN_LIMIT = 2`, `FQ_HINT = 0`. -/
def params : Params where
  orderMax := 4
  rot := 0
  spinLimit := 2
  fqHint := false

/-- No queue, two idle contexts. -/
def bare : Block 64 := Block.resetWith params 2

/-- The state after `create(0)`. -/
def fresh : Block 64 := bare.create 0

/-- The state after `create(1)`. -/
def fresh1 : Block 64 := bare.create 1

/-- `s` with context 0 at a phase. -/
def at0 (s : Block 64) (ph : Phase) (x : Regs 64) : Block 64 := { s with ctxs := [.busy ph x, .idle] }

/-- One step of an operation in a block. -/
def run {W : Nat} (i : Instr) (s : Block W) : Out := exec i ⟨W, s⟩

/-- The next block of an outcome, through a function; none where its width is another. -/
def after {α : Type} {W : Nat} (r : Out) (f : Block W → α) : Option α :=
  match r with
  | .next ⟨w, t⟩ => if h : w = W then some (f (h ▸ t)) else none
  | .fault _ => none
  | .refused _ => none

/-- The registers of a context that has just accepted a command, at `W = 64`. -/
abbrev accepted (op : BitVec 3) (arg : Word 64) : Regs 64 := acceptedRegs op arg

/-- The registers of an `ENQUEUE(0x41)` inside a ring operation. -/
def enqRegs (r : Ring) : Regs 64 := { accepted 1 0x41 with r := r }

/-- The registers of a `DEQUEUE()` inside a ring operation. -/
def deqRegs (r : Ring) : Regs 64 := { accepted 2 0 with r := r }

/-! ### One step of each operation -/

/-- R40 and the state printed above trace T1. -/
theorem test_create_fills_free_ring :
    fresh.memRead (.slot .fq 0) = 2 ∧ fresh.memRead (.slot .fq 1) = all1 ∧
      fresh.memRead (.tail .fq) = 1 ∧ fresh.memRead (.threshold .fq) = 2 ∧
      fresh.memRead (.threshold .aq) = all1 ∧ fresh.memRead (.slot .aq 1) = all1 := by decide

/-- Trace T8: `alloc_ok = 0`. -/
theorem test_create_alloc_fail :
    after (run (.create 0) { at0 bare .x0 (accepted 0 0) with allocOk := false })
      (fun t : Block 64 => (t.out, t.live)) = some ([.response 0 ⟨.allocFail, none⟩], false) := by decide

/-- Trace T1 step 5: `FQ.array[0]` becomes `0x3`, the index is 0. -/
theorem test_enqueue_claims_index :
    after (run (.enqueue 0x41)
        (at0 fresh (.deq .d3) { enqRegs .fq with pos := 0, entry := 2, hcyc := 3 }))
      (fun t : Block 64 => (t.memRead (.slot .fq 0), t.ctx 0)) =
      some (3, some (.busy .q1 { enqRegs .fq with pos := 0, entry := 2, hcyc := 3, idx := 0 })) := by
  decide

/-- Trace T5: a closed queue answers at once. -/
theorem test_enqueue_closed :
    after (run (.enqueue 0x41) (at0 { fresh with closed := 1 } .q0 (accepted 1 0x41)))
      (fun t : Block 64 => t.out) = some [.response 0 ⟨.closed, none⟩] := by decide

/-- Trace T6 step 1: the fast path. -/
theorem test_dequeue_fast_empty :
    after (run (.dequeue 0) (at0 fresh (.deq .d0) (deqRegs .aq)))
      (fun t : Block 64 => t.ctx 0) = some (some (.busy .p0 { deqRegs .aq with th := all1 })) := by decide

/-- Trace T3 step 10: the release ends with the value. -/
theorem test_dequeue_answers_value :
    after (run (.dequeue 0) (at0 fresh (.enq .e5) { deqRegs .fq with val := 0x41 }))
      (fun t : Block 64 => (t.out, t.memRead (.threshold .fq))) =
      some ([.response 0 ⟨.ok, some 0x41⟩], 2) := by decide

/-- Trace T4. -/
theorem test_close_counts :
    after (run (.close 0) (at0 fresh .k0 (accepted 3 0))) (fun t : Block 64 => (t.closed, t.out)) =
      some (1, [.response 0 ⟨.ok, none⟩]) := by decide

/-- 42_bounded_queue.md R161. -/
theorem test_destroy_releases :
    after (run (.destroy 0) (at0 fresh .y0 (accepted 4 0))) (fun t : Block 64 => (t.live, t.mem)) =
      some (false, []) := by decide

/-- R162: the last word ends the command. -/
theorem test_dump_last_word :
    after (run (.dump 0)
        (at0 (fresh1.memWrite (.val 1) 0x42) .u0 { accepted 5 0 with di := 1 }))
      (fun t : Block 64 => (t.out, t.ctx 0)) =
      some ([.response 0 ⟨.ok, some 0x42⟩], some .idle) := by decide

/-- R121, the example at order 0. -/
theorem test_ring_init_empty :
    after (run (.ringInitEmpty .fq) fresh)
      (fun t : Block 64 => (t.memRead (.slot .fq 0), t.memRead (.tail .fq), t.memRead (.threshold .fq))) =
      some (all1, 0, all1) := by decide

/-- R122, the three word patterns at order 1: `start = 1`, `end = 2`. -/
theorem test_ring_init_fill :
    after (run (.ringInitFill .aq 1 2) fresh1)
      (fun t : Block 64 => [t.memRead (.slot .aq 0), t.memRead (.slot .aq 1), t.memRead (.slot .aq 2),
        t.memRead (.head .aq), t.memRead (.tail .aq), t.memRead (.threshold .aq)]) =
      some [7, 5, all1, 1, 2, 5] := by decide

/-- Trace T1 steps 8, 9: `E3` installs `0x2`. -/
theorem test_ring_try_enq_installs :
    after (run (.ringTryEnq .aq true 0)
        (at0 fresh (.enq .e3)
          { drivenRegs (.ringTryEnq .aq true 0) with
            r := .aq, hint := true, vidx := 0, t := 0, tcyc := 3, pos := 0, entry := all1 }))
      (fun t : Block 64 => (t.memRead (.slot .aq 0), t.out)) = some (2, [.ringResult 0 .done]) := by decide

/-- R139 at a zero threshold: the decrement leaves -1 and the operation reports empty. -/
theorem test_ring_try_deq_exhausts :
    after (run (.ringTryDeq .aq false)
        (at0 (fresh.memWrite (.threshold .aq) 0) (.deq .d6)
          { drivenRegs (.ringTryDeq .aq false) with r := .aq }))
      (fun t : Block 64 => (t.memRead (.threshold .aq), t.out)) =
      some (all1, [.ringResult 0 .notFound]) := by decide

/-- Trace T2 step 9: `CAS(FQ.tail, 1, 2)` succeeds. -/
theorem test_ring_catchup_moves_tail :
    after (run (.ringCatchup .fq 1 2)
        (at0 fresh (.cat .c0)
          { drivenRegs (.ringCatchup .fq 1 2) with r := .fq, tl := 1, hd := 2 }))
      (fun t : Block 64 => (t.memRead (.tail .fq), t.out)) = some (2, [.ringResult 0 .done]) := by decide

/-! Section 3, the primitive vectors. -/

theorem test_ld :
    after (run (.ld (.tail .fq)) fresh) (fun t : Block 64 => t.out) = some [.primResult 0 (.word 1)] := by decide

theorem test_st :
    after (run (.st (.threshold .aq) 2) fresh) (fun t : Block 64 => t.memRead (.threshold .aq)) = some 2 := by
  decide

theorem test_faa_wraps :
    after (run (.faa (.threshold .aq) 1) fresh)
      (fun t : Block 64 => (t.memRead (.threshold .aq), t.out)) =
      some (0, [.primResult 0 (.word all1)]) := by decide

theorem test_fsub_wraps :
    after (run (.fsub (.head .fq) 1) fresh) (fun t : Block 64 => (t.memRead (.head .fq), t.out)) =
      some (all1, [.primResult 0 (.word 0)]) := by decide

theorem test_for_keeps_safe :
    after (run (.fetchOr (.slot .aq 0) 7) (fresh.memWrite (.slot .aq 0) 0x23))
      (fun t : Block 64 => t.memRead (.slot .aq 0)) = some 0x27 := by decide

theorem test_cas_fails :
    after (run (.cas (.slot .aq 0) 0xFFFFFFFFFFFFFFFF 2) (fresh.memWrite (.slot .aq 0) 3))
      (fun t : Block 64 => (t.memRead (.slot .aq 0), t.out)) =
      some (3, [.primResult 0 (.swapped false 3)]) := by decide

/-- The queue after `create(0)` in a block of 32-bit words. -/
def fresh32 : Block 32 := (Block.resetWith params 2 : Block 32).create 0

/-- At `W = 32` the arithmetic wraps at `2^32` (00_scope.md R8, R10): the threshold -1, and one more. -/
theorem test_faa_wraps_at_32 :
    after (run (.faa (.threshold .aq) 1) fresh32)
      (fun t : Block 32 => (t.memRead (.threshold .aq), t.out)) =
      some (0, [.primResult 0 (.word 0xFFFFFFFF)]) := by decide

/-- At `W = 32` `CREATE` leaves the initial words of R40 with 32 bits. -/
theorem test_create_at_32 :
    fresh32.memRead (.slot .aq 1) = 0xFFFFFFFF ∧ fresh32.memRead (.slot .fq 0) = 2 := by decide

/-- Log entry 28: `RING_INIT_EMPTY` driven while another context is in the middle of an `ENQUEUE`. -/
theorem test_ring_init_amid_commands :
    after (run (.ringInitEmpty .fq) { at0 fresh .q1 (enqRegs .fq) with cur := 1 })
      (fun t : Block 64 => (t.memRead (.tail .fq), t.ctx 0)) =
      some (0, some (.busy .q1 (enqRegs .fq))) := by decide

/-- Log entry 29: a driven `RING_CATCHUP` with `tl` ahead of `hd` moves the tail backward. -/
theorem test_ring_catchup_backward :
    after (run (.ringCatchup .fq 1 0)
        (at0 fresh (.cat .c0)
          { drivenRegs (.ringCatchup .fq 1 0) with r := .fq, tl := 1, hd := 0 }))
      (fun t : Block 64 => t.memRead (.tail .fq)) = some 0 := by decide

/-- The first operation after reset is the one placed there: `CREATE(0)`. -/
theorem test_first_step_after_reset :
    after (step (State.reset.withFetchWord 8 0)) (fun t : Block 64 => t.ctx 0) =
      some (some (.busy .x0 (accepted 0 0))) := by decide

/-- The queue after trace T2: one value, both rings at traversal 0, the free-ring's threshold spent. -/
def full0 : Block 64 :=
  ((((((((fresh.memWrite (.slot .aq 0) 2).memWrite (.tail .aq) 1).memWrite (.threshold .aq) 2).memWrite
    (.head .fq) 2).memWrite (.tail .fq) 2).memWrite (.threshold .fq) 1).memWrite (.slot .fq 0) 3).memWrite
    (.slot .fq 1) 3).memWrite (.val 0) 0x41

/-! ### Witnesses: a state and operands that meet the hypotheses of each statement that has any -/

/-- Contexts that are all idle. -/
theorem all_idle {s : Block 64} (h : s.ctxs.all (fun x => decide (x = .idle)) = true) :
    ∀ c x, s.ctx c = some x → x = .idle := by
  intro c x hc
  simpa using List.all_eq_true.1 h x (List.mem_of_getElem? hc)

/-- Where every context is idle no lifecycle command is pending. -/
theorem no_lifecycle {s : Block 64} (h : s.ctxs.all (fun x => decide (x = .idle)) = true) :
    ∀ c ph x, s.ctx c = some (.busy ph x) → ph ≠ .x0 ∧ ph ≠ .y0 := by
  intro c ph x hc
  cases all_idle h c _ hc

/-- DecodeInvertsEncode: the widest operand, and a packet that is read. -/
theorem witness_decode_encode :
    Instr.fits 64 (.enqueue 0xFFFFFFFFFFFFFFFF) = true ∧
      decode (W := 64) (.r 0b00010#5 1 4) = .ok (.ringInitFill .aq 1 4) := by decide

/-- ResponseWordFormat: a response with data and one without. -/
theorem witness_response_word :
    (⟨.ok, some 0x41⟩ : Response 64).data = some 0x41 ∧
      (⟨.full, none⟩ : Response 64).data = none := by decide

/-- CommandWordsHaveOneReading: the last defined code and the first reserved one. -/
theorem witness_command_words :
    (qOp (W := 64) 0x5FFFFFFFFFFFFFFFF#67).toNat < 6 ∧
      6 ≤ (qOp (W := 64) 0x60000000000000000#67).toNat := by decide

/-- A live queue with context 0 at `Q0` of an `ENQUEUE`, granted a step. -/
def granted : Block 64 := { at0 fresh .q0 (accepted 1 0x41) with env := [.run 0 true] }

/-- A live queue to which `ENQUEUE(0x41)` is presented. -/
def presented : Block 64 := { fresh with env := [.present 0 (.q 0x10000000000000041#67)] }

/-- StepRunsTheOperation, its four clauses. -/
theorem witness_step_runs :
    (presented.ctx 0 = some .idle ∧ decode (W := 64) (.q 0x10000000000000041#67) = .ok (.enqueue 0x41)) ∧
      (granted.ctx 0 = some (.busy .q0 (accepted 1 0x41)) ∧
        Ctx.instr (.busy .q0 (accepted 1 0x41)) = some (.enqueue 0x41)) ∧
      fresh.env = [] ∧ (fresh.ctx 1 = some .idle) := by decide

/-- PresentationsRefused, its two clauses. -/
theorem witness_presentations :
    6 ≤ (qOp (W := 64) 0x60000000000000000#67).toNat ∧ fresh.ctx 0 = some .idle ∧
      granted.ctx 0 = some (.busy .q0 (accepted 1 0x41)) := by decide

/-- ResetLeavesNoQueue: a reset in the middle of a queue's life. -/
theorem witness_reset_event :
    ({ granted with env := [.reset] } : Block 64).env = .reset :: [] ∧ granted.live = true := by decide

/-- The locations of a queue of order 0. -/
def locs0 : List Loc :=
  [.head .aq, .threshold .aq, .tail .aq, .slot .aq 0, .slot .aq 1, .head .fq, .threshold .fq,
    .tail .fq, .slot .fq 0, .slot .fq 1, .val 0, .closed]

/-- A live queue of order 0 with context 0 at a phase, granted a step. -/
def grantedAt (ph : Phase) (x : Regs 64) : Block 64 := { at0 fresh ph x with env := [.run 0 true] }

/-- What its fields hold. -/
theorem grantedAt_fields (ph : Phase) (x : Regs 64) :
    (grantedAt ph x).cfg = params ∧ (grantedAt ph x).live = true ∧ (grantedAt ph x).order = 0 ∧
      (grantedAt ph x).mem = fresh.mem ∧ (grantedAt ph x).ctxs = [.busy ph x, .idle] :=
  ⟨rfl, rfl, rfl, rfl, rfl⟩

/-- The invariant holds of a live queue whose one busy context is as it should be. -/
theorem inv_grantedAt {ph : Phase} {x : Regs 64} (h : CtxOk (grantedAt ph x) ph x)
    (hn : (Ctx.busy ph x).inLifecycle = false) : (grantedAt ph x).Inv := by
  obtain ⟨hcfg, hlive, horder, hmem, hctxs⟩ := grantedAt_fields ph x
  generalize grantedAt ph x = s at *
  have hctx : ∀ c y, s.ctx c = some y → y = .busy ph x ∨ y = .idle := by
    intro c y hy
    simpa [hctxs] using List.mem_of_getElem? hy
  constructor
  · rw [hcfg, hctxs]; exact (by decide : Params.wf 64 2 params = true)
  · rw [hmem]; decide
  · rw [horder]; exact fun _ => Nat.zero_le _
  · simp [hlive]
  · intro a w hr
    rw [hmem] at hr
    have key : ∀ c ∈ fresh.mem, ∃ l ∈ locs0,
        l.inRange 0 = true ∧ l ≠ .closed ∧ offset 0 0 l = c.1 := by decide
    obtain ⟨l, -, h1, h2, h3⟩ := key _ (Mem.mem_of_read hr)
    exact ⟨l, by simp [Block.hasLoc, hlive, horder, h1], h2, by rw [Block.addr, hcfg, horder]; exact h3⟩
  · intro c ph' y hc
    rcases hctx c _ hc with h' | h' <;> cases h'
    exact h
  · intro c d y z h1 h2 h3 h4
    rcases hctx c _ h1 with rfl | rfl
    · rw [hn] at h2; cases h2
    · cases h2

/-- StepKeepsInvariant, StepKeepsInitialised, BusyContextCanStep, OrderAndParametersFixed: the invariant holds
of a state in the middle of a command. -/
theorem witness_invariant : granted.Inv :=
  inv_grantedAt ⟨⟨.enqueue 0x41, by decide, rfl, trivial⟩, by decide, by decide, by decide, by decide,
    (fun h => by cases h), by decide, (fun h => by cases h)⟩ rfl

/-- BusyContextCanStep at `Q1` and `P1`: the invariant, the granted step, and an index (the one of an order-0
queue) that names a value word. -/
theorem witness_value_index :
    ((grantedAt .q1 (enqRegs .fq)).Inv ∧
      (grantedAt .q1 (enqRegs .fq)).env = [.run 0 true] ∧
      (grantedAt .q1 (enqRegs .fq)).ctx 0 = some (.busy .q1 (enqRegs .fq)) ∧
      (enqRegs .fq).idx.toNat < capOf (grantedAt .q1 (enqRegs .fq)).order) ∧
    (grantedAt .p1 (deqRegs .aq)).Inv ∧
      (grantedAt .p1 (deqRegs .aq)).env = [.run 0 true] ∧
      (grantedAt .p1 (deqRegs .aq)).ctx 0 = some (.busy .p1 (deqRegs .aq)) ∧
      (deqRegs .aq).idx.toNat < capOf (grantedAt .p1 (deqRegs .aq)).order :=
  ⟨⟨inv_grantedAt ⟨⟨.enqueue 0x41, by decide, rfl, trivial⟩, by decide, by decide, by decide,
      by decide, (fun h => by cases h), by decide, (fun h => by cases h)⟩ rfl,
      rfl, rfl, by decide⟩,
    inv_grantedAt ⟨⟨.dequeue 0, by decide, rfl, trivial⟩, by decide, by decide, by decide,
      by decide, (fun h => by cases h), by decide, (fun h => by cases h)⟩ rfl,
    rfl, rfl, by decide⟩

/-- The same state takes a step, its queue live before and after. -/
theorem witness_step_next :
    after (step ⟨64, granted⟩) (fun t : Block 64 => (t.live, t.order, t.ctx 1)) =
        some (true, 0, some .idle) ∧ granted.live = true := by decide

/-- StepKeepsInitialised: every control word and slot of the state holds a value. -/
theorem witness_initialised : granted.Initialised := by
  intro l hl hc hv
  cases l with
  | head r => cases r <;> decide
  | threshold r => cases r <;> decide
  | tail r => cases r <;> decide
  | slot r p =>
    have hp : p < 2 := of_decide_eq_true (Bool.and_eq_true_iff.1 hl).2
    match p, hp with
    | 0, _ => cases r <;> decide
    | 1, _ => cases r <;> decide
  | val i => exact absurd rfl (hv i)
  | closed => exact absurd rfl hc

/-- OnlyLifecycleChangesLifecycle and OneResponsePerCommand: steps that go on, with and without a response,
and one of a `DUMP`. -/
theorem witness_exec_next :
    after (run (.enqueue 0x41) granted) (fun t : Block 64 => t.out) = some [] ∧
      after (run (.close 0) (at0 fresh .k0 (accepted 3 0))) (fun t : Block 64 => t.out.length) = some 1 ∧
      after (run (.dump 0) (at0 (fresh.memWrite (.val 0) 0x41) .u0 (accepted 5 0)))
        (fun t : Block 64 => t.out) = some [.response 0 ⟨.ok, some 0x41⟩] := by
  decide

/-- CycleWordOfTraversal, SlotClassesByFields, MarkConsumeForceFields: the least and the largest `k`. -/
theorem witness_slot_widths :
    1 + 3 ≤ 64 ∧ 61 + 3 ≤ 64 ∧ 2 * (0 + 1) ≤ 2 ^ 1 ∧
      ecyc 61 (cyc 61 7 : Word 64) = cyc 61 7 ∧ ecyc 3 (0x2F : Word 64) = 0x2F := by decide

/-- PackedWordFields, InitialSlotWords, MapIsBijection: the largest order, the largest index, the ends of
the position range. -/
theorem witness_orders :
    60 + 4 ≤ 64 ∧ (0x0FFFFFFFFFFFFFFF : Word 64).toNat < capOf 60 ∧ (7 : Word 64).toNat < 2 ^ 3 := by decide

/-- SignedDifferenceLaws: law (c) at both ends of its range and law (d), at `W = 8`. -/
theorem witness_signed_difference :
    (-(2 ^ (8 - 1) : Int) < 0 - 127 ∧ (127 : Int) - 0 < 2 ^ (8 - 1)) ∧
      ((0x0F : BitVec 8) - 0x8F).toNat = 2 ^ (8 - 1) := by decide

/-- LocationsDoNotOverlap: the last slot and the last value word. -/
theorem witness_locations :
    (Loc.slot .fq 7).inRange 2 = true ∧ (Loc.val 3).inRange 2 = true ∧ Loc.val 3 ≠ .closed := by decide

/-- LoadAndStore, FetchAndModify, CompareAndSwap (both clauses) and AbsentLocationFaults (past the end of
an array, and with no queue). -/
theorem witness_primitives :
    fresh.hasLoc (.slot .fq 1) = true ∧ fresh.hasLoc .closed = true ∧
      fresh.memRead (.slot .fq 1) = all1 ∧ fresh.memRead (.slot .fq 1) ≠ 3 ∧
      fresh.hasLoc (.slot .fq 2) = false ∧ bare.hasLoc .closed = false := by decide

/-- RingInitEmptyResult and RingInitFillResult: the empty range at `CAP`, one past `CAP`, and a start one
past the end. -/
theorem witness_ring_init :
    fresh1.live = true ∧ fresh1.order + 4 ≤ 64 ∧
      ((2 : Word 64).toNat ≤ (2 : Word 64).toNat ∧ (2 : Word 64).toNat ≤ capOf fresh1.order) ∧
      capOf fresh1.order < (3 : Word 64).toNat ∧ (1 : Word 64).toNat < (2 : Word 64).toNat := by decide

/-- A ring with `CAP - 1` and one with `CAP` entries, at order 1. -/
theorem witness_present :
    (fresh1.memWrite (.slot .aq 0) 4).present .aq < capOf fresh1.order ∧
      capOf fresh1.order ≤ fresh1.present .fq := by decide

/-- DrivenRingOperationsStart and CommandsAreAccepted: an idle context of a live queue, `vidx` at `CAP - 1`
and at `CAP`. -/
theorem witness_acceptance :
    fresh1.ctx fresh1.cur = some .idle ∧ fresh1.live = true ∧
      (∀ c ph x, fresh1.ctx c = some (.busy ph x) → ph ≠ .x0 ∧ ph ≠ .y0) ∧
      (1 : Word 64).toNat < capOf fresh1.order ∧ capOf fresh1.order ≤ (2 : Word 64).toNat :=
  ⟨by decide, by decide, no_lifecycle (by decide), by decide, by decide⟩

/-- LifecycleCommandsAreAccepted: no queue and the largest order; a live queue. -/
theorem witness_lifecycle_acceptance :
    (∀ c x, bare.ctx c = some x → x = .idle) ∧ bare.live = false ∧
      (4 : Word 64).toNat ≤ bare.cfg.orderMax ∧
      (∀ c x, fresh.ctx c = some x → x = .idle) ∧ fresh.live = true :=
  ⟨all_idle (by decide), by decide, by decide, all_idle (by decide), by decide⟩

/-- ViolationsAreRefused, clause by clause: no queue, a live queue, an order one too large, another context
busy, `X0` pending. -/
theorem witness_violations :
    (bare.ctx bare.cur = some .idle ∧ bare.live = false ∧ bare.cfg.orderMax < (5 : Word 64).toNat) ∧
      ({ granted with cur := 1 } : Block 64).ctx 1 = some .idle ∧
      granted.ctx 0 = some (.busy .q0 (accepted 1 0x41)) ∧
      ({ at0 bare .k0 (accepted 3 0) with cur := 1 } : Block 64).live = false ∧
      (at0 fresh .y0 (accepted 4 0)).ctx 0 = some (.busy .y0 (accepted 4 0)) := by decide

/-- The hypotheses of a statement about a phase: context 0 stands at it. -/
theorem running_at0 {s : Block 64} {i : Instr} {ph : Phase} {x : Regs 64} (h : s.cur = 0)
    (hi : Ctx.instr (.busy ph x) = some i) : (at0 s ph x).running i ph x :=
  ⟨by rw [show (at0 s ph x).cur = s.cur from rfl, h]; rfl, hi⟩

/-- EnqReservesTail, EnqReadsSlot, EnqConsultsHead, EnqRearmsThreshold: an `ENQUEUE` at `E0`, `E1`, `E2`,
`E4`, `E5`. -/
theorem witness_enq_phases (e : EnqPhase) :
    runsEnq (.enqueue 0x41) = true ∧
      (at0 fresh (.enq e) (enqRegs .aq)).running (.enqueue 0x41) (.enq e) (enqRegs .aq) ∧
      (at0 fresh (.enq e) (enqRegs .aq)).live = true ∧
      (at0 fresh (.enq e) (enqRegs .aq)).hasLoc (slotOf (enqRegs .aq)) = true :=
  ⟨rfl, running_at0 rfl rfl, by cases e <;> decide, by cases e <;> decide⟩

/-- EnqRearmsThreshold at `E4`: a threshold that is not `THRESH`, and one that is. -/
theorem witness_enq_thresholds :
    ((at0 fresh (.enq .e4) (enqRegs .aq)).running (.enqueue 0x41) (.enq .e4) (enqRegs .aq) ∧
      (at0 fresh (.enq .e4) (enqRegs .aq)).memRead (.threshold .aq) ≠
        BitVec.ofNat 64 (3 * capOf fresh.order - 1)) ∧
      (at0 full0 (.enq .e4) (enqRegs .aq)).running (.enqueue 0x41) (.enq .e4) (enqRegs .aq) ∧
      (at0 full0 (.enq .e4) (enqRegs .aq)).memRead (.threshold .aq) =
        BitVec.ofNat 64 (3 * capOf full0.order - 1) :=
  ⟨⟨running_at0 rfl rfl, by decide⟩, running_at0 rfl rfl, by decide⟩

/-- Registers at `E3` that expect the initial slot word. -/
def installRegs : Regs 64 := { enqRegs .aq with entry := all1 }

/-- The same for an operation driven directly with the hint. -/
def hintedInstallRegs : Regs 64 :=
  { drivenRegs (.ringTryEnq .aq true 0) with hint := true, entry := all1 }

/-- EnqInstalls: the slot word is the expected one, with `hint` 0 and 1, or another. -/
theorem witness_enq_installs :
    ((at0 fresh (.enq .e3) installRegs).running (.enqueue 0x41) (.enq .e3) installRegs ∧
      (at0 fresh (.enq .e3) installRegs).hasLoc (slotOf installRegs) = true ∧
      (at0 fresh (.enq .e3) installRegs).memRead (slotOf installRegs) = installRegs.entry ∧
      installRegs.hint = false) ∧
    ((at0 fresh (.enq .e3) hintedInstallRegs).running (.ringTryEnq .aq true 0) (.enq .e3)
        hintedInstallRegs ∧
      (at0 fresh (.enq .e3) hintedInstallRegs).memRead (slotOf hintedInstallRegs) =
        hintedInstallRegs.entry ∧ hintedInstallRegs.hint = true) ∧
    (at0 full0 (.enq .e3) installRegs).running (.enqueue 0x41) (.enq .e3) installRegs ∧
      (at0 full0 (.enq .e3) installRegs).memRead (slotOf installRegs) ≠ installRegs.entry :=
  ⟨⟨running_at0 rfl rfl, by decide, by decide, by decide⟩,
    ⟨running_at0 rfl rfl, by decide, by decide⟩, running_at0 rfl rfl, by decide⟩

/-- The statements about `D0` to `D7`: a `DEQUEUE` at each phase. -/
theorem witness_deq_phases (d : DeqPhase) :
    runsDeq (.dequeue 0) = true ∧
      (at0 fresh (.deq d) (deqRegs .aq)).running (.dequeue 0) (.deq d) (deqRegs .aq) ∧
      (at0 fresh (.deq d) (deqRegs .aq)).live = true ∧
      (at0 fresh (.deq d) (deqRegs .aq)).hasLoc (slotOf (deqRegs .aq)) = true :=
  ⟨rfl, running_at0 rfl rfl, by cases d <;> decide, by cases d <;> decide⟩

/-- A queue whose occupied-ring has a given threshold. -/
def thr (w : Word 64) : Block 64 := fresh.memWrite (.threshold .aq) w

/-- DeqFastEmpty and DeqSpendsThreshold: thresholds -1 and 0 at `D0`, 0 and 1 at `D6`. -/
theorem witness_deq_thresholds :
    ((at0 (thr all1) (.deq .d0) (deqRegs .aq)).running (.dequeue 0) (.deq .d0) (deqRegs .aq) ∧
      ((at0 (thr all1) (.deq .d0) (deqRegs .aq)).memRead (.threshold .aq)).toInt < 0) ∧
    ((at0 (thr 0) (.deq .d0) (deqRegs .aq)).running (.dequeue 0) (.deq .d0) (deqRegs .aq) ∧
      0 ≤ ((at0 (thr 0) (.deq .d0) (deqRegs .aq)).memRead (.threshold .aq)).toInt) ∧
    ((at0 (thr 0) (.deq .d6) (deqRegs .aq)).running (.dequeue 0) (.deq .d6) (deqRegs .aq) ∧
      ((at0 (thr 0) (.deq .d6) (deqRegs .aq)).memRead (.threshold .aq)).toInt ≤ 0) ∧
    (at0 (thr 1) (.deq .d6) (deqRegs .aq)).running (.dequeue 0) (.deq .d6) (deqRegs .aq) ∧
      0 < ((at0 (thr 1) (.deq .d6) (deqRegs .aq)).memRead (.threshold .aq)).toInt :=
  ⟨⟨running_at0 rfl rfl, by decide⟩, ⟨running_at0 rfl rfl, by decide⟩,
    ⟨running_at0 rfl rfl, by decide⟩, running_at0 rfl rfl, by decide⟩

/-- Registers at `D4` that expect the initial slot word. -/
def forceRegs : Regs 64 := { deqRegs .aq with entry := all1, new := 3 }

/-- DeqMarksOrForces: the slot word is the expected one, or another. -/
theorem witness_deq_cas :
    ((at0 fresh (.deq .d4) forceRegs).running (.dequeue 0) (.deq .d4) forceRegs ∧
      (at0 fresh (.deq .d4) forceRegs).hasLoc (slotOf forceRegs) = true ∧
      (at0 fresh (.deq .d4) forceRegs).memRead (slotOf forceRegs) = forceRegs.entry) ∧
    (at0 full0 (.deq .d4) forceRegs).running (.dequeue 0) (.deq .d4) forceRegs ∧
      (at0 full0 (.deq .d4) forceRegs).memRead (slotOf forceRegs) ≠ forceRegs.entry :=
  ⟨⟨running_at0 rfl rfl, by decide, by decide⟩, running_at0 rfl rfl, by decide⟩

/-- DeqChecksTail: the tail at `h + 1`, and one past it. -/
theorem witness_deq_tail :
    ((at0 fresh (.deq .d5) (deqRegs .fq)).running (.dequeue 0) (.deq .d5) (deqRegs .fq) ∧
      scmpLe ((at0 fresh (.deq .d5) (deqRegs .fq)).memRead (.tail .fq)) ((deqRegs .fq).h + 1) =
        true) ∧
    (at0 full0 (.deq .d5) (deqRegs .fq)).running (.dequeue 0) (.deq .d5) (deqRegs .fq) ∧
      scmpLe ((at0 full0 (.deq .d5) (deqRegs .fq)).memRead (.tail .fq)) ((deqRegs .fq).h + 1) =
        false :=
  ⟨⟨running_at0 rfl rfl, by decide⟩, running_at0 rfl rfl, by decide⟩

/-- The registers of a `RING_TRY_DEQ` with the hint. -/
def hintedRegs : Regs 64 := { drivenRegs (.ringTryDeq .fq true) with r := .fq, hint := true }

/-- HintedDequeueNeverReportsEmpty: a hinted operation at each phase of its loop takes a step. -/
theorem witness_hinted_dequeue (d : DeqPhase) :
    runsDeq (.ringTryDeq .fq true) = true ∧ hintedRegs.hint = true ∧
      (at0 fresh (.deq d) hintedRegs).running (.ringTryDeq .fq true) (.deq d) hintedRegs ∧
      (∀ d' ∈ [DeqPhase.d1, .d2, .d3, .d4],
        after (run (.ringTryDeq .fq true) (at0 fresh (.deq d') hintedRegs)) (fun _ : Block 64 => ()) = some ()) :=
  ⟨rfl, rfl, running_at0 rfl rfl, by decide⟩

/-- CatchupMovesTail: an operation at each phase. -/
theorem witness_catchup_phases (c : CatPhase) :
    runsCat (.dequeue 0) = true ∧
      (at0 fresh (.cat c) (deqRegs .fq)).running (.dequeue 0) (.cat c) (deqRegs .fq) ∧
      (at0 fresh (.cat c) (deqRegs .fq)).live = true :=
  ⟨rfl, running_at0 rfl rfl, by cases c <;> decide⟩

/-- Registers of a catch-up from tail 1 to head 2. -/
def catchupRegs : Regs 64 := { deqRegs .fq with tl := 1, hd := 2 }

/-- CatchupMovesTail: the tail is the one seen, or another; at `C2` it is one short of `hd`, or has reached
it. -/
theorem witness_catchup_tails :
    ((at0 fresh (.cat .c0) catchupRegs).running (.dequeue 0) (.cat .c0) catchupRegs ∧
      (at0 fresh (.cat .c0) catchupRegs).memRead (.tail .fq) = catchupRegs.tl) ∧
    ((at0 full0 (.cat .c0) catchupRegs).running (.dequeue 0) (.cat .c0) catchupRegs ∧
      (at0 full0 (.cat .c0) catchupRegs).memRead (.tail .fq) ≠ catchupRegs.tl) ∧
    ((at0 fresh (.cat .c2) catchupRegs).running (.dequeue 0) (.cat .c2) catchupRegs ∧
      scmpGe ((at0 fresh (.cat .c2) catchupRegs).memRead (.tail .fq)) catchupRegs.hd = false) ∧
    (at0 full0 (.cat .c2) catchupRegs).running (.dequeue 0) (.cat .c2) catchupRegs ∧
      scmpGe ((at0 full0 (.cat .c2) catchupRegs).memRead (.tail .fq)) catchupRegs.hd = true :=
  ⟨⟨running_at0 rfl rfl, by decide⟩, ⟨running_at0 rfl rfl, by decide⟩,
    ⟨running_at0 rfl rfl, by decide⟩, running_at0 rfl rfl, by decide⟩

/-- CreateBuildsTheQueue and CreateCanFail: the largest order, with and without an allocation. -/
theorem witness_create :
    (at0 bare .x0 (accepted 0 4)).running (.create 4) .x0 (accepted 0 4) ∧
      (at0 bare .x0 (accepted 0 4)).allocOk = true ∧ bare.cfg.wf 64 2 = true ∧
      (accepted 0 4).arg.toNat ≤ bare.cfg.orderMax ∧
      (at0 { bare with allocOk := false } .x0 (accepted 0 4)).running (.create 4) .x0
        (accepted 0 4) ∧
      (at0 { bare with allocOk := false } .x0 (accepted 0 4)).allocOk = false :=
  ⟨running_at0 rfl (by decide), rfl, by decide, by decide, running_at0 rfl (by decide), rfl⟩

/-- Registers that hold one past the last index of an order-0 queue. -/
def pastIndex (x : Regs 64) : Regs 64 := { x with idx := 1 }

/-- EnqueueTestsClosedFirst, EnqueueStoresValue and AbsentLocationFaults: an open and a closed queue; the
last index and one past it. -/
theorem witness_enqueue :
    ((at0 fresh .q0 (accepted 1 0x41)).running (.enqueue 0x41) .q0 (accepted 1 0x41) ∧
      (at0 fresh .q0 (accepted 1 0x41)).live = true ∧
      (at0 fresh .q0 (accepted 1 0x41)).closed = 0) ∧
    ((at0 { fresh with closed := 1 } .q0 (accepted 1 0x41)).running (.enqueue 0x41) .q0
        (accepted 1 0x41) ∧
      (at0 { fresh with closed := 1 } .q0 (accepted 1 0x41)).closed ≠ 0) ∧
    ((at0 fresh .q1 (enqRegs .fq)).running (.enqueue 0x41) .q1 (enqRegs .fq) ∧
      (enqRegs .fq).idx.toNat < capOf fresh.order) ∧
    (at0 fresh .q1 (pastIndex (enqRegs .fq))).running (.enqueue 0x41) .q1 (pastIndex (enqRegs .fq)) ∧
      capOf fresh.order ≤ (pastIndex (enqRegs .fq)).idx.toNat :=
  ⟨⟨running_at0 rfl (by decide), by decide, by decide⟩, ⟨running_at0 rfl (by decide), by decide⟩,
    ⟨running_at0 rfl (by decide), by decide⟩, running_at0 rfl (by decide), by decide⟩

/-- DequeueReportsEmptyOrClosed, DequeueReadsValue and AbsentLocationFaults: the same ends. -/
theorem witness_dequeue :
    ((at0 fresh .p0 (deqRegs .aq)).running (.dequeue 0) .p0 (deqRegs .aq) ∧
      (at0 fresh .p0 (deqRegs .aq)).closed = 0) ∧
    ((at0 { fresh with closed := 1 } .p0 (deqRegs .aq)).running (.dequeue 0) .p0 (deqRegs .aq) ∧
      (at0 { fresh with closed := 1 } .p0 (deqRegs .aq)).closed ≠ 0) ∧
    ((at0 fresh .p1 (deqRegs .aq)).running (.dequeue 0) .p1 (deqRegs .aq) ∧
      (at0 fresh .p1 (deqRegs .aq)).live = true ∧ (deqRegs .aq).idx.toNat < capOf fresh.order) ∧
    (at0 fresh .p1 (pastIndex (deqRegs .aq))).running (.dequeue 0) .p1 (pastIndex (deqRegs .aq)) ∧
      capOf fresh.order ≤ (pastIndex (deqRegs .aq)).idx.toNat :=
  ⟨⟨running_at0 rfl (by decide), by decide⟩, ⟨running_at0 rfl (by decide), by decide⟩,
    ⟨running_at0 rfl (by decide), by decide, by decide⟩, running_at0 rfl (by decide), by decide⟩

/-- CloseCounts, at 0 and where the counter wraps; DestroyReleases. -/
theorem witness_close_destroy :
    (at0 { fresh with closed := all1 } .k0 (accepted 3 0)).running (.close 0) .k0
        (accepted 3 0) ∧
      fresh.live = true ∧
      (at0 fresh .y0 (accepted 4 0)).running (.destroy 0) .y0 (accepted 4 0) :=
  ⟨running_at0 rfl (by decide), by decide, running_at0 rfl (by decide)⟩

/-- DumpAnswersOneWord: the last word and the one before it, at order 1. -/
theorem witness_dump :
    (at0 fresh1 .u0 (accepted 5 0)).running (.dump 0) .u0 (accepted 5 0) ∧
      fresh1.live = true ∧ fresh1.order + 4 ≤ 64 ∧
      (accepted 5 0).di.toNat ≠ capOf fresh1.order - 1 ∧
      ({ accepted 5 0 with di := 1 } : Regs 64).di.toNat = capOf fresh1.order - 1 :=
  ⟨running_at0 rfl (by decide), by decide, by decide, by decide, by decide⟩

/-- An order-1 queue about to be dumped. -/
def dumping : Block 64 :=
  { at0 fresh1 .u0 (accepted 5 0) with env := [.run 0 true, .run 0 true, .reset] }

/-- DumpStreamsValues. -/
theorem witness_dump_stream :
    dumping.ctx 0 = some (.busy .u0 (accepted 5 0)) ∧
      Ctx.instr (.busy .u0 (accepted 5 0)) = some (.dump 0) ∧ (accepted 5 0).di = 0 ∧
      dumping.live = true ∧ dumping.order + 4 ≤ 64 ∧
      dumping.env = List.replicate (capOf dumping.order) (.run 0 true) ++ [.reset] := by decide

/-- The registers of a dequeuer that has drawn the counter 0 of the empty occupied-ring. -/
def spinRegs : Regs 64 := { deqRegs .aq with hcyc := 3 }

/-- A dequeuer granted the steps of its spin. -/
def spinning : Block 64 :=
  { at0 fresh (.deq .d2) spinRegs with env := [.run 0 true, .run 0 true, .run 0 true] }

/-- SpinsThenForces: the empty initial slot of an older traversal. -/
theorem witness_spin :
    runsDeq (.dequeue 0) = true ∧ spinning.ctx 0 = some (.busy (.deq .d2) spinRegs) ∧
      Ctx.instr (.busy (.deq .d2) spinRegs) = some (.dequeue 0) ∧ spinRegs.attempt = 0 ∧
      spinRegs.attemptWraps = 0 ∧
      spinning.hasLoc (slotOf spinRegs) = true ∧
      idxOf (W := 64) spinning.k (spinning.memRead (slotOf spinRegs)) = bot (W := 64) spinning.k ∧
      spinning.order + 4 ≤ 64 ∧
      scmpLt (w := 64) (ecyc (W := 64) spinning.k (spinning.memRead (slotOf spinRegs))) spinRegs.hcyc = true ∧
      spinning.env = List.replicate (spinning.cfg.spinLimit + 1) (.run 0 true) ++ [] := by decide

/-- R203 at a `SPIN_LIMIT` no word passes, `2^W - 1`: the read at which `attempt` wraps is the last and forces the
slot; at `2^W` the dequeuer reads once more (log entry 30). -/
theorem test_spin_past_a_wrap :
    deqNextEmpty (W := 64) { spinRegs with entry := all1, attempt := all1 }
        { spinning with cfg := { spinning.cfg with spinLimit := 2 ^ 64 - 1 } } =
      goto (.deq .d4) { spinRegs with entry := all1, attempt := 0, attemptWraps := 1, new := 3 }
        { spinning with cfg := { spinning.cfg with spinLimit := 2 ^ 64 - 1 } } ∧
    deqNextEmpty (W := 64) { spinRegs with entry := all1, attempt := all1 }
        { spinning with cfg := { spinning.cfg with spinLimit := 2 ^ 64 } } =
      goto (.deq .d2) { spinRegs with entry := all1, attempt := 0, attemptWraps := 1 }
        { spinning with cfg := { spinning.cfg with spinLimit := 2 ^ 64 } } := by
  constructor
  · rw [deqNextEmpty, if_neg (by decide), if_pos (by decide)]
    rfl
  · rw [deqNextEmpty, if_pos (by decide)]
    rfl

/-- The fresh queue of trace T1, its `ENQUEUE` presented and granted its steps. -/
def enqueuing : Block 64 :=
  { fresh with
    env := .present 0 (.q 0x10000000000000041#67) :: List.replicate 11 (.run 0 true) }

/-- EnqueueAloneSucceeds. -/
theorem witness_enqueue_alone :
    (enqueuing.cfg.wf 64 2 = true ∧ enqueuing.order ≤ enqueuing.cfg.orderMax ∧ enqueuing.cfg.fqHint = false ∧
      enqueuing.live = true ∧ enqueuing.closed = 0 ∧ enqueuing.ctx 0 = some .idle ∧
      0 ≤ (enqueuing.memRead (.threshold .fq)).toInt ∧
      enqueuing.memRead (.threshold .aq) ≠ thresh (W := 64) enqueuing.order ∧
      enqueuing.memRead (.head .fq) = 0 ∧
      enqueuing.memRead (.tail .aq) = 0 ∧
      enqueuing.memRead (.slot .fq (mapPos (W := 64) enqueuing.cfg.rot enqueuing.k 0).toNat) = 2 ∧
      enqueuing.memRead (.slot .aq (mapPos (W := 64) enqueuing.cfg.rot enqueuing.k 0).toNat) = all1 ∧
      ecyc (W := 64) enqueuing.k 2 = cyc (W := 64) enqueuing.k 0 ∧
      (idxOf (W := 64) enqueuing.k 2).toNat < capOf enqueuing.order ∧
      ecyc (W := 64) enqueuing.k all1 = all1 ∧ scmpLt (w := 64) all1 (cyc (W := 64) enqueuing.k 0) = true ∧
      enqueuing.env =
        .present 0 (.q (qWord 1 0x41)) :: (List.replicate 11 (.run 0 true) ++ [])) ∧
      (∀ d ph y, enqueuing.ctx d = some (.busy ph y) → ph ≠ .x0 ∧ ph ≠ .y0) :=
  ⟨by decide, no_lifecycle (by decide)⟩

/-- The queue of trace T3, its `DEQUEUE` presented and granted its steps. -/
def dequeuing : Block 64 :=
  { full0 with
    env := .present 0 (.q 0x20000000000000000#67) :: List.replicate 10 (.run 0 true) }

/-- DequeueAloneReturnsValue. -/
theorem witness_dequeue_alone :
    (dequeuing.cfg.wf 64 2 = true ∧ dequeuing.order ≤ dequeuing.cfg.orderMax ∧ dequeuing.cfg.fqHint = false ∧
      dequeuing.live = true ∧ dequeuing.ctx 0 = some .idle ∧
      0 ≤ (dequeuing.memRead (.threshold .aq)).toInt ∧
      dequeuing.memRead (.threshold .fq) ≠ thresh (W := 64) dequeuing.order ∧
      dequeuing.memRead (.head .aq) = 0 ∧
      dequeuing.memRead (.tail .fq) = 2 ∧
      dequeuing.memRead (.slot .aq (mapPos (W := 64) dequeuing.cfg.rot dequeuing.k 0).toNat) = 2 ∧
      dequeuing.memRead (.slot .fq (mapPos (W := 64) dequeuing.cfg.rot dequeuing.k 2).toNat) = 3 ∧
      ecyc (W := 64) dequeuing.k 2 = cyc (W := 64) dequeuing.k 0 ∧
      (idxOf (W := 64) dequeuing.k 2).toNat < capOf dequeuing.order ∧
      ecyc (W := 64) dequeuing.k 3 = 3 ∧ scmpLt (w := 64) 3 (cyc (W := 64) dequeuing.k 2) = true ∧
      dequeuing.env =
        .present 0 (.q (qWord 2 0)) :: (List.replicate 10 (.run 0 true) ++ [])) ∧
      (∀ d ph y, dequeuing.ctx d = some (.busy ph y) → ph ≠ .x0 ∧ ph ≠ .y0) :=
  ⟨by decide, no_lifecycle (by decide)⟩

end Sys2Proof.Tests
end

/-! PROOFS. The words of the block: where locations stand (20_memory.md R62), the position permutation
(40_slot_encoding.md R103), and many stores taken as one update. -/

namespace Sys2Proof.Machine

section Words

variable {W : Nat}

/-! ### Bounds of the `K`-bit registers, and the permutation `map` -/

theorem toNat_and_ones_lt (k : Nat) (w : Word W) : (w &&& ones k).toNat < 2 ^ k := by
  have hk : 0 < 2 ^ k := Nat.two_pow_pos k
  have hones : (ones k : Word W).toNat ≤ 2 ^ k - 1 := by
    rw [ones, BitVec.toNat_ofNat]
    exact Nat.mod_le _ _
  have hand : (w &&& ones k).toNat ≤ (ones k : Word W).toNat := by
    rw [BitVec.toNat_and]
    exact Nat.and_le_right
  omega

theorem toNat_and_ones {k : Nat} (hk : k ≤ W) (w : Word W) : (w &&& ones k).toNat = w.toNat % 2 ^ k := by
  have hpos : 0 < 2 ^ k := Nat.two_pow_pos k
  have hle : 2 ^ k ≤ 2 ^ W := Nat.pow_le_pow_right (by decide) hk
  rw [BitVec.toNat_and, ones, BitVec.toNat_ofNat, Nat.mod_eq_of_lt (by omega),
    Nat.and_two_pow_sub_one_eq_mod]

theorem idxOf_lt (k : Nat) (w : Word W) : (idxOf k w).toNat < 2 ^ k := toNat_and_ones_lt k w

/-- A position is below `N`, whatever the counter. -/
theorem mapPos_lt (rot k : Nat) (c : Word W) : (mapPos rot k c).toNat < 2 ^ k := by
  unfold mapPos
  split
  · exact toNat_and_ones_lt k c
  · rw [BitVec.toNat_or, BitVec.toNat_ushiftRight]
    refine Nat.or_lt_two_pow ?_ (toNat_and_ones_lt k _)
    exact lt_of_le_of_lt (Nat.shiftRight_le _ _) (toNat_and_ones_lt k c)

theorem mapPos_of_le {rot k : Nat} (h : k ≤ rot) (c : Word W) : mapPos rot k c = c &&& ones k := if_pos h

/-- The rotation as arithmetic: the high `ROT` of the low `K` bits move below the other `K - ROT` (R103). -/
theorem toNat_mapPos_of_lt {rot k : Nat} (hk : k ≤ W) (h : rot < k) (c : Word W) :
    (mapPos rot k c).toNat =
      2 ^ rot * (c.toNat % 2 ^ (k - rot)) + c.toNat % 2 ^ k / 2 ^ (k - rot) := by
  have hsplit : 2 ^ k = 2 ^ rot * 2 ^ (k - rot) := by rw [← pow_add, Nat.add_sub_cancel' h.le]
  have hhigh : c.toNat % 2 ^ k / 2 ^ (k - rot) < 2 ^ rot := by
    rw [Nat.div_lt_iff_lt_mul (Nat.two_pow_pos _), ← hsplit]
    exact Nat.mod_lt _ (Nat.two_pow_pos k)
  have hlow : ((c <<< rot) &&& ones k).toNat = 2 ^ rot * (c.toNat % 2 ^ (k - rot)) := by
    rw [toNat_and_ones hk, BitVec.toNat_shiftLeft, Nat.mod_mod_of_dvd _ (pow_dvd_pow 2 hk),
      Nat.shiftLeft_eq, Nat.mul_comm, hsplit, Nat.mul_mod_mul_left]
  rw [mapPos, if_neg (by omega), BitVec.toNat_or, BitVec.toNat_ushiftRight, toNat_and_ones hk, hlow,
    Nat.shiftRight_eq_div_pow, Nat.or_comm, Nat.two_pow_add_eq_or_of_lt hhigh]

/-- Two counters below `N` have different positions (R104). -/
theorem mapPos_inj {rot k : Nat} (hk : k ≤ W) {c d : Word W} (hc : c.toNat < 2 ^ k) (hd : d.toNat < 2 ^ k)
    (h : (mapPos rot k c).toNat = (mapPos rot k d).toNat) : c = d := by
  apply BitVec.eq_of_toNat_eq
  by_cases hr : k ≤ rot
  · simpa [mapPos_of_le hr, toNat_and_ones hk, Nat.mod_eq_of_lt, hc, hd] using h
  · have hsplit : 2 ^ k = 2 ^ rot * 2 ^ (k - rot) := by rw [← pow_add, Nat.add_sub_cancel' (by omega)]
    have hhigh : ∀ n, n < 2 ^ k → n / 2 ^ (k - rot) < 2 ^ rot := fun n hn => by
      rwa [Nat.div_lt_iff_lt_mul (Nat.two_pow_pos _), ← hsplit]
    rw [toNat_mapPos_of_lt hk (by omega), toNat_mapPos_of_lt hk (by omega), Nat.mod_eq_of_lt hc,
      Nat.mod_eq_of_lt hd] at h
    have hquot := congrArg (· % 2 ^ rot) h
    have hrem := congrArg (· / 2 ^ rot) h
    simp only [Nat.mul_add_mod, Nat.mod_eq_of_lt (hhigh _ hc), Nat.mod_eq_of_lt (hhigh _ hd)] at hquot
    simp only [Nat.mul_add_div (Nat.two_pow_pos rot), Nat.div_eq_of_lt (hhigh _ hc),
      Nat.div_eq_of_lt (hhigh _ hd), Nat.add_zero] at hrem
    rw [← Nat.div_add_mod c.toNat (2 ^ (k - rot)), hquot, hrem, Nat.div_add_mod]

/-- The counters below `N` as numbers: equal positions, equal counters. -/
theorem mapPos_ofNat_inj {rot k i j : Nat} (hk : k ≤ W) (hi : i < 2 ^ k) (hj : j < 2 ^ k)
    (h : (mapPos rot k (BitVec.ofNat W i)).toNat = (mapPos rot k (BitVec.ofNat W j)).toNat) : i = j := by
  have hle : 2 ^ k ≤ 2 ^ W := Nat.pow_le_pow_right (by decide) hk
  have hnat : ∀ n, n < 2 ^ k → (BitVec.ofNat W n).toNat = n := fun n hn => by
    rw [BitVec.toNat_ofNat, Nat.mod_eq_of_lt (by omega)]
  have heq := mapPos_inj hk (by rwa [hnat i hi]) (by rwa [hnat j hj]) h
  rw [← hnat i hi, heq, hnat j hj]

/-! ### The layout -/

/-- The ring a location belongs to; `VAL` and `CLOSED` belong to none. -/
def ringOf : Loc → Option Ring
  | .head r => some r
  | .threshold r => some r
  | .tail r => some r
  | .slot r _ => some r
  | .val _ => none
  | .closed => none

/-- The words of a ring stand in the ring's region. -/
theorem offset_mem_region {rot order : Nat} {r : Ring} {l : Loc} (hl : l.inRange order = true)
    (hr : ringOf l = some r) :
    ringBase rot order r ≤ offset rot order l ∧ offset rot order l < ringBase rot order r + ringWords rot order := by
  have hline : 0 < 2 ^ rot := Nat.two_pow_pos rot
  have hcap : 0 < 2 ^ order := Nat.two_pow_pos order
  cases l <;> cases hr <;> simp only [Loc.inRange, decide_eq_true_eq, offset, ringWords, clw, nOf] at * <;> omega

/-- The four areas of R62, one after the other: the two ring regions, `VAL`, and `CLOSED`'s stand-in. -/
theorem offset_area (rot : Nat) {order : Nat} {l : Loc} (hl : l.inRange order = true) :
    (ringOf l = some .aq ∧ offset rot order l < ringWords rot order) ∨
      (ringOf l = some .fq ∧ ringWords rot order ≤ offset rot order l ∧
        offset rot order l < 2 * ringWords rot order) ∨
      (∃ i < capOf order, l = .val i ∧ offset rot order l = 2 * ringWords rot order + i) ∨
      (l = .closed ∧ offset rot order l = 2 * ringWords rot order + capOf order) := by
  cases hr : ringOf l with
  | some r =>
    obtain ⟨hlow, hhigh⟩ := offset_mem_region (rot := rot) hl hr
    cases r <;> simp only [ringBase] at hlow hhigh
    · exact .inl ⟨rfl, by omega⟩
    · exact .inr (.inl ⟨rfl, hlow, by omega⟩)
  | none =>
    cases l with
    | val i => exact .inr (.inr (.inl ⟨i, of_decide_eq_true hl, rfl, rfl⟩))
    | closed => exact .inr (.inr (.inr ⟨rfl, rfl⟩))
    | _ => cases hr

/-- Inside a ring's region the control words stand on lines of their own, and the slots after them. -/
theorem offset_inj_of_ring {rot order : Nat} {r : Ring} {l m : Loc} (hl : ringOf l = some r)
    (hm : ringOf m = some r) (h : offset rot order l = offset rot order m) : l = m := by
  have hline : 0 < 2 ^ rot := Nat.two_pow_pos rot
  cases l <;> cases hl <;> cases m <;> cases hm <;>
    simp only [offset, clw, reduceCtorEq, Loc.slot.injEq, true_and] at * <;> omega

/-- Two locations that exist and have one offset are one. -/
theorem offset_inj {rot order : Nat} {l m : Loc} (hl : l.inRange order = true) (hm : m.inRange order = true)
    (h : offset rot order l = offset rot order m) : l = m := by
  rcases offset_area rot hl with ⟨hrl, hl⟩ | ⟨hrl, hl⟩ | ⟨i, hi, rfl, hl⟩ | ⟨rfl, hl⟩ <;>
    rcases offset_area rot hm with ⟨hrm, hm⟩ | ⟨hrm, hm⟩ | ⟨j, hj, rfl, hm⟩ | ⟨rfl, hm⟩ <;> try omega
  · exact offset_inj_of_ring hrl hrm h
  · exact offset_inj_of_ring hrl hrm h
  · congr 1
    omega
  · rfl

/-! ### Many stores as one update of the block's words -/

/-- The stores of the cells listed, first cell first. -/
def Mem.writeAll (m : Mem W) (cs : List (Nat × Word W)) : Mem W :=
  cs.foldl (fun m c => Mem.write m c.1 c.2) m

theorem Mem.writeAll_append (m : Mem W) (cs ds : List (Nat × Word W)) :
    Mem.writeAll m (cs ++ ds) = Mem.writeAll (Mem.writeAll m cs) ds := List.foldl_append

theorem Mem.writeAll_concat (m : Mem W) (cs : List (Nat × Word W)) (c : Nat × Word W) :
    Mem.writeAll m (cs ++ [c]) = Mem.write (Mem.writeAll m cs) c.1 c.2 := List.foldl_concat _ _ _ _

theorem Mem.wf_writeAll {m : Mem W} (h : Mem.wf m = true) (cs : List (Nat × Word W)) :
    Mem.wf (Mem.writeAll m cs) = true := by
  induction cs generalizing m with
  | nil => exact h
  | cons c cs ih => exact ih (Mem.wf_write h c.1 c.2)

/-- An offset none of the cells has reads as before. -/
theorem Mem.read_writeAll_of_notMem {m : Mem W} {cs : List (Nat × Word W)} {a : Nat}
    (h : ∀ c ∈ cs, c.1 ≠ a) : Mem.read (Mem.writeAll m cs) a = Mem.read m a := by
  induction cs using List.reverseRecOn with
  | nil => rfl
  | append_singleton cs c ih =>
    rw [Mem.writeAll_concat, Mem.read_write_other _ _ (h c (by simp)).symm]
    exact ih fun d hd => h d (by simp [hd])

/-- An offset at which every cell listed has the word `v`, and one is listed, reads as `v`. -/
theorem Mem.read_writeAll_of_mem {m : Mem W} {cs : List (Nat × Word W)} {a : Nat} {v : Word W}
    (hmem : (a, v) ∈ cs) (hsame : ∀ w, (a, w) ∈ cs → w = v) : Mem.read (Mem.writeAll m cs) a = some v := by
  induction cs using List.reverseRecOn with
  | nil => cases hmem
  | append_singleton cs c ih =>
    obtain ⟨b, w⟩ := c
    rw [Mem.writeAll_concat, Mem.read_write]
    split
    · next hab => rw [hsame w (by simp [hab])]
    · next hab =>
      refine ih ?_ fun u hu => hsame u (by simp [hu])
      simpa [hab] using hmem

/-- The words listed, stored at the locations they are listed with; none of these is `CLOSED`. -/
def Block.storeAll (s : Block W) (ws : List (Loc × Word W)) : Block W :=
  { s with mem := Mem.writeAll s.mem (ws.map fun w => (s.addr w.1, w.2)) }

@[simp] theorem Block.storeAll_cfg (s : Block W) (ws : List (Loc × Word W)) : (s.storeAll ws).cfg = s.cfg := rfl

@[simp] theorem Block.storeAll_live (s : Block W) (ws : List (Loc × Word W)) : (s.storeAll ws).live = s.live := rfl

@[simp] theorem Block.storeAll_order (s : Block W) (ws : List (Loc × Word W)) : (s.storeAll ws).order = s.order := rfl

@[simp] theorem Block.storeAll_closed (s : Block W) (ws : List (Loc × Word W)) : (s.storeAll ws).closed = s.closed :=
  rfl

@[simp] theorem Block.storeAll_ctxs (s : Block W) (ws : List (Loc × Word W)) : (s.storeAll ws).ctxs = s.ctxs := rfl

@[simp] theorem Block.storeAll_life (s : Block W) (ws : List (Loc × Word W)) : (s.storeAll ws).life = s.life := rfl

@[simp] theorem Block.storeAll_cur (s : Block W) (ws : List (Loc × Word W)) : (s.storeAll ws).cur = s.cur := rfl

@[simp] theorem Block.storeAll_env (s : Block W) (ws : List (Loc × Word W)) : (s.storeAll ws).env = s.env := rfl

@[simp] theorem Block.storeAll_out (s : Block W) (ws : List (Loc × Word W)) : (s.storeAll ws).out = s.out := rfl

@[simp] theorem Block.storeAll_addr (s : Block W) (ws : List (Loc × Word W)) (l : Loc) :
    (s.storeAll ws).addr l = s.addr l := rfl

theorem Block.storeAll_append (s : Block W) (ws vs : List (Loc × Word W)) :
    s.storeAll (ws ++ vs) = (s.storeAll ws).storeAll vs := by
  simp only [Block.storeAll, List.map_append, Mem.writeAll_append]
  rfl

theorem Block.storeAll_cons (s : Block W) {w : Loc × Word W} (ws : List (Loc × Word W)) (h : w.1 ≠ .closed) :
    s.storeAll (w :: ws) = (s.memWrite w.1 w.2).storeAll ws := by
  obtain ⟨l, v⟩ := w
  cases l <;> first | rfl | exact absurd rfl h

/-- A loop that stores one listed word in each turn stores them all. -/
theorem Block.foldl_eq_storeAll {g : Block W → Nat → Block W} {w : Nat → Loc × Word W} {s : Block W}
    (hne : ∀ p, (w p).1 ≠ .closed)
    (hg : ∀ (u : Block W) (p : Nat), u.cfg = s.cfg → u.order = s.order → g u p = u.memWrite (w p).1 (w p).2)
    (ps : List Nat) : ps.foldl g s = s.storeAll (ps.map w) := by
  induction ps generalizing s with
  | nil => rfl
  | cons p ps ih =>
    rw [List.foldl_cons, hg s p rfl rfl, List.map_cons, Block.storeAll_cons _ _ (hne p)]
    exact ih fun u q hc ho => hg u q (by simpa using hc) (by simpa using ho)

/-- No location is listed with two different words. -/
def OneWordEach (ws : List (Loc × Word W)) : Prop := ∀ l v w, (l, v) ∈ ws → (l, w) ∈ ws → v = w

/-- Every location listed exists in a queue of that order and is a word of the block. -/
def StoresWords (order : Nat) (ws : List (Loc × Word W)) : Prop :=
  ∀ l v, (l, v) ∈ ws → l.inRange order = true ∧ l ≠ .closed

theorem Block.memRead_of_ne_closed (s : Block W) {l : Loc} (h : l ≠ .closed) :
    s.memRead l = (Mem.read s.mem (s.addr l)).getD (Config.freeWord W s.life (s.addr l)) := by
  cases l <;> first | rfl | exact absurd rfl h

/-- Each location listed reads as the word it is listed with. -/
theorem Block.storeAll_memRead {s : Block W} {ws : List (Loc × Word W)} {l : Loc} {v : Word W}
    (hws : StoresWords s.order ws) (hone : OneWordEach ws) (h : (l, v) ∈ ws) :
    (s.storeAll ws).memRead l = v := by
  obtain ⟨hl, hc⟩ := hws l v h
  have hread : Mem.read (s.storeAll ws).mem (s.addr l) = some v := by
    refine Mem.read_writeAll_of_mem (List.mem_map.2 ⟨(l, v), h, rfl⟩) fun w hw => ?_
    obtain ⟨⟨m, u⟩, hm, heq⟩ := List.mem_map.1 hw
    obtain ⟨haddr, rfl⟩ := Prod.mk.inj heq
    obtain rfl := offset_inj (hws m u hm).1 hl haddr
    exact hone _ _ _ hm h
  rw [Block.memRead_of_ne_closed _ hc, Block.storeAll_addr, hread]
  rfl

/-- An offset at which no location listed stands reads as before. -/
theorem Block.storeAll_read_of_notMem {s : Block W} {ws : List (Loc × Word W)} {a : Nat}
    (h : ∀ l v, (l, v) ∈ ws → a ≠ s.addr l) : Mem.read (s.storeAll ws).mem a = Mem.read s.mem a := by
  refine Mem.read_writeAll_of_notMem fun c hc => ?_
  obtain ⟨⟨l, v⟩, hl, rfl⟩ := List.mem_map.1 hc
  exact (h l v hl).symm

theorem Block.storeAll_frame {s : Block W} {ws : List (Loc × Word W)} {ls : List Loc} (c : Nat)
    (hws : StoresWords s.order ws) (h : ∀ l v, (l, v) ∈ ws → l ∈ ls) : Frame s (s.storeAll ws) c ls where
  mem _ ha := Block.storeAll_read_of_notMem fun l v hl => ha l (h l v hl) (hws l v hl).2
  closed _ := rfl
  live := rfl
  order := rfl
  cfg := rfl
  life := rfl
  env := rfl
  cur := rfl
  allocOk := rfl
  nctx := rfl
  others _ _ := rfl

/-! ### The two initialisations as lists of stores -/

/-- The control words an initialisation leaves. -/
def controlWords (r : Ring) (head threshold tail : Word W) : List (Loc × Word W) :=
  [(.head r, head), (.threshold r, threshold), (.tail r, tail)]

/-- The words of `RING_INIT_EMPTY` (R121). -/
def emptyWords (order : Nat) (r : Ring) : List (Loc × Word W) :=
  (List.range (nOf order)).map (fun p => (.slot r p, all1)) ++ controlWords r 0 all1 0

/-- The words of `RING_INIT_FILL` (R122). -/
def fillWords (rot order : Nat) (r : Ring) (start fin : Nat) : List (Loc × Word W) :=
  (List.range (nOf order)).map
      (fun i => (.slot r (mapPos rot (kOf order) (BitVec.ofNat W i)).toNat, fillEntry (kOf order) start fin i)) ++
    controlWords r (BitVec.ofNat W start) (thresh order) (BitVec.ofNat W fin)

theorem initControl_eq_storeAll (r : Ring) (head threshold tail : Word W) (s : Block W) :
    initControl r head threshold tail s = s.storeAll (controlWords r head threshold tail) := rfl

theorem initEmpty_eq_storeAll (r : Ring) (s : Block W) : initEmpty r s = s.storeAll (emptyWords s.order r) := by
  rw [initEmpty, initControl_eq_storeAll, emptyWords, Block.storeAll_append,
    Block.foldl_eq_storeAll (w := fun p => (.slot r p, all1)) (by simp) fun _ _ _ _ => rfl]

theorem initFill_eq_storeAll (r : Ring) (start fin : Nat) (s : Block W) :
    initFill r start fin s = s.storeAll (fillWords s.cfg.rot s.order r start fin) := by
  have hloop := Block.foldl_eq_storeAll (s := s)
    (g := fun u i => u.memWrite (.slot r (mapPos u.cfg.rot u.k (BitVec.ofNat W i)).toNat) (fillEntry u.k start fin i))
    (w := fun i =>
      (.slot r (mapPos s.cfg.rot (kOf s.order) (BitVec.ofNat W i)).toNat, fillEntry (kOf s.order) start fin i))
    (by simp) (fun u i hcfg horder => by simp only [Block.k, hcfg, horder])
  rw [initFill, initControl_eq_storeAll, fillWords, Block.storeAll_append, ← hloop]

theorem mem_controlWords {r : Ring} {head threshold tail : Word W} {l : Loc} {v : Word W} :
    (l, v) ∈ controlWords r head threshold tail ↔
      (l = .head r ∧ v = head) ∨ (l = .threshold r ∧ v = threshold) ∨ (l = .tail r ∧ v = tail) := by
  simp [controlWords]

theorem mem_emptyWords {order : Nat} {r : Ring} {l : Loc} {v : Word W} :
    (l, v) ∈ emptyWords order r ↔
      (∃ p < nOf order, l = .slot r p ∧ v = all1) ∨ (l, v) ∈ controlWords r 0 all1 0 := by
  simp [emptyWords, eq_comm]

theorem mem_fillWords {rot order : Nat} {r : Ring} {start fin : Nat} {l : Loc} {v : Word W} :
    (l, v) ∈ fillWords rot order r start fin ↔
      (∃ i < nOf order, l = .slot r (mapPos rot (kOf order) (BitVec.ofNat W i)).toNat ∧
        v = fillEntry (kOf order) start fin i) ∨
      (l, v) ∈ controlWords r (BitVec.ofNat W start) (thresh order) (BitVec.ofNat W fin) := by
  simp [fillWords, eq_comm]

theorem storesWords_controlWords (order : Nat) (r : Ring) (head threshold tail : Word W) :
    StoresWords order (controlWords r head threshold tail) := by
  intro l v h
  rcases mem_controlWords.1 h with ⟨rfl, -⟩ | ⟨rfl, -⟩ | ⟨rfl, -⟩ <;> simp [Loc.inRange]

theorem storesWords_emptyWords (order : Nat) (r : Ring) : StoresWords order (emptyWords (W := W) order r) := by
  intro l v h
  rcases mem_emptyWords.1 h with ⟨p, hp, rfl, -⟩ | h
  · simpa [Loc.inRange, nOf] using hp
  · exact storesWords_controlWords _ _ _ _ _ l v h

theorem storesWords_fillWords (rot order : Nat) (r : Ring) (start fin : Nat) :
    StoresWords order (fillWords (W := W) rot order r start fin) := by
  intro l v h
  rcases mem_fillWords.1 h with ⟨i, -, rfl, -⟩ | h
  · exact ⟨decide_eq_true (mapPos_lt rot (kOf order) (BitVec.ofNat W i)), by simp⟩
  · exact storesWords_controlWords _ _ _ _ _ l v h

theorem oneWordEach_controlWords (r : Ring) (head threshold tail : Word W) :
    OneWordEach (controlWords r head threshold tail) := by
  intro l v w hv hw
  rcases mem_controlWords.1 hv with ⟨rfl, rfl⟩ | ⟨rfl, rfl⟩ | ⟨rfl, rfl⟩ <;>
    simpa [mem_controlWords, eq_comm] using hw

/-- No slot is a control word. -/
theorem slot_notMem_controlWords {r r' : Ring} {p : Nat} {head threshold tail v : Word W} :
    (.slot r p, v) ∉ controlWords r' head threshold tail := by
  simp [mem_controlWords]

theorem oneWordEach_emptyWords (order : Nat) (r : Ring) : OneWordEach (emptyWords (W := W) order r) := by
  intro l v w hv hw
  rcases mem_emptyWords.1 hv with ⟨p, -, rfl, rfl⟩ | hv
  · rcases mem_emptyWords.1 hw with ⟨q, -, -, rfl⟩ | hw
    · rfl
    · exact absurd hw slot_notMem_controlWords
  · rcases mem_emptyWords.1 hw with ⟨q, -, rfl, rfl⟩ | hw
    · exact absurd hv slot_notMem_controlWords
    · exact oneWordEach_controlWords _ _ _ _ _ _ _ hv hw

/-- `map` sends different counters to different slots, so each slot is filled once. -/
theorem oneWordEach_fillWords {rot order : Nat} (horder : order + 4 ≤ W) (r : Ring) (start fin : Nat) :
    OneWordEach (fillWords (W := W) rot order r start fin) := by
  have hk : kOf order ≤ W := by unfold kOf; omega
  intro l v w hv hw
  rcases mem_fillWords.1 hv with ⟨i, hi, rfl, rfl⟩ | hv
  · rcases mem_fillWords.1 hw with ⟨j, hj, heq, rfl⟩ | hw
    · rw [mapPos_ofNat_inj hk hi hj (Loc.slot.inj heq).2]
    · exact absurd hw slot_notMem_controlWords
  · rcases mem_fillWords.1 hw with ⟨j, -, rfl, rfl⟩ | hw
    · exact absurd hv slot_notMem_controlWords
    · exact oneWordEach_controlWords _ _ _ _ _ _ _ hv hw

theorem OneWordEach.append {ws vs : List (Loc × Word W)} (hws : OneWordEach ws) (hvs : OneWordEach vs)
    (h : ∀ l v w, (l, v) ∈ ws → (l, w) ∉ vs) : OneWordEach (ws ++ vs) := by
  intro l v w hv hw
  rcases List.mem_append.1 hv with hv | hv <;> rcases List.mem_append.1 hw with hw | hw
  · exact hws l v w hv hw
  · exact absurd hw (h l v w hv)
  · exact absurd hv (h l w v hw)
  · exact hvs l v w hv hw

theorem StoresWords.append {order : Nat} {ws vs : List (Loc × Word W)} (hws : StoresWords order ws)
    (hvs : StoresWords order vs) : StoresWords order (ws ++ vs) := fun l v h =>
  (List.mem_append.1 h).elim (hws l v) (hvs l v)

theorem ringOf_of_mem_controlWords {r : Ring} {head threshold tail v : Word W} {l : Loc}
    (h : (l, v) ∈ controlWords r head threshold tail) : ringOf l = some r := by
  rcases mem_controlWords.1 h with ⟨rfl, -⟩ | ⟨rfl, -⟩ | ⟨rfl, -⟩ <;> rfl

theorem ringOf_of_mem_emptyWords {order : Nat} {r : Ring} {l : Loc} {v : Word W}
    (h : (l, v) ∈ emptyWords order r) : ringOf l = some r := by
  rcases mem_emptyWords.1 h with ⟨p, -, rfl, -⟩ | h
  · rfl
  · exact ringOf_of_mem_controlWords h

theorem ringOf_of_mem_fillWords {rot order : Nat} {r : Ring} {start fin : Nat} {l : Loc} {v : Word W}
    (h : (l, v) ∈ fillWords rot order r start fin) : ringOf l = some r := by
  rcases mem_fillWords.1 h with ⟨p, -, rfl, -⟩ | h
  · rfl
  · exact ringOf_of_mem_controlWords h

/-- The words `X0` stores in the block it has obtained (42_bounded_queue.md R150). -/
def createWords (rot order : Nat) : List (Loc × Word W) :=
  fillWords rot order .fq 0 (capOf order) ++ emptyWords order .aq

theorem Block.create_eq (s : Block W) (order : Nat) :
    s.create order = ((s.allocate order).storeAll (createWords s.cfg.rot order)).open := by
  rw [Block.create, initFill_eq_storeAll, initEmpty_eq_storeAll, createWords, Block.storeAll_append]
  rfl

@[simp] theorem Block.create_cfg (s : Block W) (order : Nat) : (s.create order).cfg = s.cfg := by
  rw [Block.create_eq]
  rfl

@[simp] theorem Block.create_live (s : Block W) (order : Nat) : (s.create order).live = true := by
  rw [Block.create_eq]
  rfl

@[simp] theorem Block.create_order (s : Block W) (order : Nat) : (s.create order).order = order := by
  rw [Block.create_eq]
  rfl

@[simp] theorem Block.create_closed (s : Block W) (order : Nat) : (s.create order).closed = 0 := by
  rw [Block.create_eq]
  rfl

@[simp] theorem Block.create_ctxs (s : Block W) (order : Nat) : (s.create order).ctxs = s.ctxs := by
  rw [Block.create_eq]
  rfl

@[simp] theorem Block.create_cur (s : Block W) (order : Nat) : (s.create order).cur = s.cur := by
  rw [Block.create_eq]
  rfl

@[simp] theorem Block.create_env (s : Block W) (order : Nat) : (s.create order).env = s.env := by
  rw [Block.create_eq]
  rfl

@[simp] theorem Block.create_out (s : Block W) (order : Nat) : (s.create order).out = s.out := by
  rw [Block.create_eq]
  rfl

theorem storesWords_createWords (rot order : Nat) : StoresWords order (createWords (W := W) rot order) :=
  (storesWords_fillWords rot order .fq 0 (capOf order)).append (storesWords_emptyWords order .aq)

theorem oneWordEach_createWords {rot order : Nat} (horder : order + 4 ≤ W) :
    OneWordEach (createWords (W := W) rot order) := by
  refine (oneWordEach_fillWords horder _ _ _).append (oneWordEach_emptyWords order .aq) fun l v w hv hw => ?_
  have hring := (ringOf_of_mem_fillWords hv).symm.trans (ringOf_of_mem_emptyWords hw)
  cases hring

end Words

end Sys2Proof.Machine

/-! PROOFS. What one step of an operation can do, said once for every operation (`blockExec_next`): it takes its
context on, with at most one store; or it is one of the lifecycle, initialisation and primitive steps. -/

namespace Sys2Proof.Machine

section Steps

variable {W : Nat}

/-! ### A step that takes its context on -/

/-- `u` is `s` but for at most one store, to a location listed that exists. -/
def Touched (s : Block W) (ls : List Loc) (u : Block W) : Prop :=
  u = s ∨ ∃ l ∈ ls, s.hasLoc l = true ∧ ∃ v, u = s.memWrite l v

theorem Touched.refl (s : Block W) (ls : List Loc) : Touched s ls s := .inl rfl

theorem Touched.memWrite {s : Block W} {l : Loc} (h : s.hasLoc l = true) (v : Word W) :
    Touched s [l] (s.memWrite l v) := .inr ⟨l, by simp, h, v, rfl⟩

theorem Touched.frame {s u : Block W} {ls : List Loc} (h : Touched s ls u) (c : Nat) : Frame s u c ls := by
  rcases h with rfl | ⟨l, hl, -, v, rfl⟩
  · exact Frame.refl u c ls
  · exact Frame.memWrite s c l v hl

theorem Touched.ctxs_eq {s u : Block W} {ls : List Loc} (h : Touched s ls u) : u.ctxs = s.ctxs := by
  rcases h with rfl | ⟨l, -, -, v, rfl⟩
  · rfl
  · simp

/-- `t` is `u` with the running context left as `c`, and with what that has produced. -/
def Left (u t : Block W) (c : Ctx W) : Prop :=
  ∃ os, t = { u with ctxs := u.ctxs.set u.cur c, out := os ++ u.out }

theorem goto_left {ph : Phase} {x : Regs W} {u t : Block W} (h : goto ph x u = .next t) :
    Left u t (.busy ph x) := ⟨[], goto_next h⟩

theorem respond_left {st : Status} {d : Option (Word W)} {u t : Block W} (h : respond st d u = .next t) :
    Left u t .idle := ⟨[_], respond_next h⟩

theorem finishRing_left {res : RingResult W} {u t : Block W} (h : finishRing res u = .next t) :
    Left u t .idle := ⟨[_], finishRing_next h⟩

theorem Left.frame {u t : Block W} {c : Ctx W} (h : Left u t c) (ls : List Loc) : Frame u t u.cur ls := by
  obtain ⟨os, rfl⟩ := h
  exact { Frame.setCtx u u.cur c ls with mem := fun _ _ => rfl }

/-! ### What a context must be for the invariant -/

/-- The `K`-bit registers fit (10_state.md R21). -/
structure Regs.Fit (order : Nat) (x : Regs W) : Prop where
  pos : x.pos.toNat < nOf order
  idx : x.idx.toNat < nOf order
  vidx : x.vidx.toNat < nOf order

theorem CtxOk.fit {s : Block W} {ph : Phase} {x : Regs W} (h : CtxOk s ph x) : x.Fit s.order :=
  ⟨h.pos, h.idx, h.vidx⟩

/-- A phase that runs without the hint only is run without it. -/
def HintOk (ph : Phase) (x : Regs W) : Prop := hintFree ph = true → x.hint = false

/-- The phases `CtxOk` says something further of: those of the lifecycle, and `U0`. -/
def Phase.plain : Phase → Bool
  | .x0 => false
  | .y0 => false
  | .u0 => false
  | _ => true

theorem inLifecycle_of_plain {ph : Phase} (h : ph.plain = true) (x : Regs W) :
    (Ctx.busy ph x).inLifecycle = false := by
  cases ph <;> first | rfl | cases h

theorem CtxOk.of_plain {s : Block W} {i : Instr} {ph : Phase} {x : Regs W} (hlive : s.live = true)
    (hi : Ctx.instr (.busy ph x) = some i) (hph : phaseOf i ph = true) (hring : ringOk s.cfg i ph x)
    (hhint : HintOk ph x) (hfit : x.Fit s.order) (hplain : ph.plain = true) : CtxOk s ph x where
  instr := ⟨i, hi, hph, hring⟩
  noHint := hhint
  pos := hfit.pos
  idx := hfit.idx
  vidx := hfit.vidx
  di := by rintro rfl; cases hplain
  live := ⟨fun _ => (by rintro rfl; cases hplain), fun _ => hlive⟩
  order := by rintro rfl; cases hplain

/-- `CtxOk` reads the parameters, `ORDER` and `LIVE` of the block and nothing else. -/
theorem CtxOk.congr {s t : Block W} {ph : Phase} {x : Regs W} (h : CtxOk s ph x) (hcfg : t.cfg = s.cfg)
    (horder : t.order = s.order) (hlive : t.live = s.live) : CtxOk t ph x where
  instr := hcfg ▸ h.instr
  noHint := h.noHint
  pos := horder ▸ h.pos
  idx := horder ▸ h.idx
  vidx := horder ▸ h.vidx
  di := horder ▸ h.di
  live := hlive ▸ h.live
  order := hcfg ▸ h.order

/-- What the invariant asks of the running context when a step leaves it as `c` (the shared state's lifecycle
being as before): it is as `CtxOk` says, and no lifecycle command stands beside another one's operation. -/
def Fits (s : Block W) : Ctx W → Prop
  | .idle => True
  | .busy ph x =>
    CtxOk s ph x ∧ ∀ d y, d ≠ s.cur → s.ctx d = some y →
      y.inLifecycle = false ∧ ((Ctx.busy ph x).inLifecycle = true → y = .idle)

/-- A step that takes its context on: at most one store, to `CLOSED` only in `CLOSE`, and the context left idle
or at a phase as the invariant wants it. -/
def ContextStep (i : Instr) (s t : Block W) : Prop :=
  ∃ ls u c, (.closed ∈ ls → ∃ a, i = .close a) ∧ Touched s ls u ∧ Left u t c ∧ (s.Inv → Fits s c)

theorem ContextStep.frame {i : Instr} {s t : Block W} (h : ContextStep i s t) :
    ∃ ls, (.closed ∈ ls → ∃ a, i = .close a) ∧ Frame s t s.cur ls := by
  obtain ⟨ls, u, c, hclosed, hu, ht, -⟩ := h
  have hcur : u.cur = s.cur := (hu.frame s.cur).cur
  exact ⟨ls, hclosed, (hu.frame s.cur).trans (hcur ▸ ht.frame ls)⟩

/-- A step whose context ends. -/
theorem ContextStep.of_idle {i : Instr} {s t : Block W} (ht : Left s t .idle) : ContextStep i s t :=
  ⟨[], s, .idle, by simp, Touched.refl s [], ht, fun _ => trivial⟩

/-! ### Registers -/

/-- A position of the block's rings fits in `K` bits. -/
theorem mapPos_lt_nOf (s : Block W) (c : Word W) : (mapPos s.cfg.rot s.k c).toNat < nOf s.order :=
  mapPos_lt s.cfg.rot s.k c

theorem idxOf_lt_nOf (s : Block W) (w : Word W) : (idxOf s.k w).toNat < nOf s.order := idxOf_lt s.k w

/-- The operation a context runs is told by `op`, `arg` and `drv` alone, at any phase. -/
theorem instr_congr {ph ph' : Phase} {x y : Regs W} (hop : y.op = x.op) (harg : y.arg = x.arg)
    (hdrv : y.drv = x.drv) : Ctx.instr (.busy ph' y) = Ctx.instr (.busy ph x) := by
  simp only [Ctx.instr, hop, harg, hdrv]

/-- What every phase of a ring operation keeps of the registers. -/
structure Regs.Carried (order : Nat) (x y : Regs W) : Prop where
  op : y.op = x.op
  arg : y.arg = x.arg
  drv : y.drv = x.drv
  r : y.r = x.r
  hint : y.hint = x.hint
  fit : x.Fit order → y.Fit order

theorem Regs.Carried.refl (order : Nat) (x : Regs W) : x.Carried order x := ⟨rfl, rfl, rfl, rfl, rfl, id⟩

/-- A change of registers other than the `K`-bit ones. -/
theorem Regs.Carried.of_eq {order : Nat} {x y : Regs W} (hop : y.op = x.op := by rfl) (harg : y.arg = x.arg := by rfl)
    (hdrv : y.drv = x.drv := by rfl) (hr : y.r = x.r := by rfl) (hhint : y.hint = x.hint := by rfl)
    (hpos : y.pos = x.pos := by rfl) (hidx : y.idx = x.idx := by rfl) (hvidx : y.vidx = x.vidx := by rfl) :
    x.Carried order y :=
  ⟨hop, harg, hdrv, hr, hhint, fun h => ⟨hpos ▸ h.pos, hidx ▸ h.idx, hvidx ▸ h.vidx⟩⟩

theorem Regs.Carried.trans {order : Nat} {x y z : Regs W} (h : x.Carried order y) (g : y.Carried order z) :
    x.Carried order z :=
  ⟨g.op.trans h.op, g.arg.trans h.arg, g.drv.trans h.drv, g.r.trans h.r, g.hint.trans h.hint,
    fun hx => g.fit (h.fit hx)⟩

/-! ### One phase of a ring operation -/

/-- The phases a ring operation goes on to from one of its phases (41_ring_buffer.md R124 to R144); the catch-up
of a dequeue is entered from `D5` (R138), and left by its own continuation. -/
inductive LoopStep : Phase → Phase → Prop
  | enq (e e' : EnqPhase) : LoopStep (.enq e) (.enq e')
  | deq (d d' : DeqPhase) : LoopStep (.deq d) (.deq d')
  | enter (d : DeqPhase) (c : CatPhase) : LoopStep (.deq d) (.cat c)
  | cat (c c' : CatPhase) : LoopStep (.cat c) (.cat c')

/-- Registers `y` at phase `ph'` follow `x` at `ph` in the running of a ring operation, or end its claim. -/
structure Onward (i : Instr) (ph : Phase) (x : Regs W) (ph' : Phase) (y : Regs W) : Prop where
  phase : phaseOf i ph = true → phaseOf i ph' = true
  ring : ∀ p, phaseOf i ph = true → ringOk p i ph x → ringOk p i ph' y
  hint : HintOk ph x → HintOk ph' y
  plain : ph'.plain = true

/-- A phase of a ring operation, from phase `ph` with registers `x`: one access, not to `CLOSED`; then the return
`Ret`, or on to a further phase. -/
def RingStep (ph : Phase) (x : Regs W) (s t : Block W) (Ret : Regs W → Block W → Prop) : Prop :=
  ∃ l u y, l ≠ .closed ∧ Touched s [l] u ∧
    (Ret y u ∨ ∃ ph', goto ph' y u = .next t ∧ LoopStep ph ph' ∧ (HintOk ph x → HintOk ph' y)) ∧
    x.Carried s.order y

theorem LoopStep.onward {ph ph' : Phase} {order : Nat} {x y : Regs W} (h : LoopStep ph ph')
    (hxy : x.Carried order y) (hhint : HintOk ph x → HintOk ph' y) (i : Instr) : Onward i ph x ph' y where
  phase := by cases h <;> cases i <;> simp [phaseOf]
  ring p := by cases h <;> cases i <;> simp [phaseOf, ringOk, hxy.r, hxy.hint]
  hint := hhint
  plain := by cases h <;> rfl

/-- What follows a phase of an operation is as the invariant wants it, where the phase it goes on to is none of
the lifecycle: beside a context that runs no lifecycle command is pending. -/
theorem Fits.of_running {s : Block W} {i : Instr} {ph ph' : Phase} {x y : Regs W} (hs : s.Inv)
    (hrun : s.running i ph x) (hph' : (Ctx.busy ph' y).inLifecycle = false) (hok : CtxOk s ph x → CtxOk s ph' y) :
    Fits s (.busy ph' y) := by
  obtain ⟨hctx, -⟩ := hrun
  refine ⟨hok (hs.ctx_ok _ _ _ hctx), fun d z hd hz => ⟨Bool.eq_false_iff.2 fun hl => ?_, fun hl => ?_⟩⟩
  · cases hs.alone d _ z _ hz hl hctx hd.symm
  · rw [hph'] at hl
    cases hl

/-- From a phase of a running operation to another: the registers that tell the operation kept, the rest as
`CtxOk` wants it. -/
theorem CtxOk.next {s : Block W} {i : Instr} {ph ph' : Phase} {x y : Regs W} (h : CtxOk s ph x)
    (hi : Ctx.instr (.busy ph x) = some i) (hph : ph.plain = true) (hop : y.op = x.op) (harg : y.arg = x.arg)
    (hdrv : y.drv = x.drv) (hphase : phaseOf i ph' = true) (hring : ringOk s.cfg i ph' y) (hhint : HintOk ph' y)
    (hfit : y.Fit s.order) (hplain : ph'.plain = true) : CtxOk s ph' y :=
  .of_plain (h.live.2 (by rintro rfl; cases hph)) ((instr_congr hop harg hdrv).trans hi) hphase hring hhint hfit
    hplain

theorem Onward.ctxOk {s : Block W} {i : Instr} {ph ph' : Phase} {x y : Regs W} (h : Onward i ph x ph' y)
    (hi : Ctx.instr (.busy ph x) = some i) (hph : ph.plain = true) (hxy : x.Carried s.order y)
    (hok : CtxOk s ph x) : CtxOk s ph' y := by
  obtain ⟨j, hj, hphase, hring⟩ := hok.instr
  obtain rfl : j = i := Option.some.inj (hj.symm.trans hi)
  exact hok.next hi hph hxy.op hxy.arg hxy.drv (h.phase hphase) (h.ring _ hphase hring) (h.hint hok.noHint)
    (hxy.fit hok.fit) h.plain

theorem RingStep.contextStep {s t : Block W} {i : Instr} {ph : Phase} {x : Regs W}
    {Ret : Regs W → Block W → Prop} (h : RingStep ph x s t Ret) (hrun : s.running i ph x) (hph : ph.plain = true)
    (hret : ∀ y u, x.Carried s.order y → Ret y u →
      Left u t .idle ∨ ∃ ph', Onward i ph x ph' y ∧ goto ph' y u = .next t) : ContextStep i s t := by
  obtain ⟨l, u, y, hl, hu, h, hxy⟩ := h
  have hend : Left u t .idle ∨ ∃ ph', Onward i ph x ph' y ∧ goto ph' y u = .next t := by
    rcases h with h | ⟨ph', h, hloop, hhint⟩
    · exact hret y u hxy h
    · exact .inr ⟨ph', hloop.onward hxy hhint i, h⟩
  have hclosed : Loc.closed ∈ [l] → ∃ a, i = .close a := fun hmem =>
    absurd (List.mem_singleton.1 hmem).symm hl
  rcases hend with ht | ⟨ph', hon, ht⟩
  · exact ⟨[l], u, .idle, hclosed, hu, ht, fun _ => trivial⟩
  · exact ⟨[l], u, _, hclosed, hu, goto_left ht, fun hs =>
      .of_running hs hrun (inLifecycle_of_plain hon.plain y) (hon.ctxOk hrun.2 hph hxy)⟩

/-! #### `RING_TRY_ENQ` -/

theorem hintOk_of_not_hintFree {ph : Phase} (h : hintFree ph = false) (x : Regs W) : HintOk ph x :=
  fun hph => absurd hph (by simp [h])

theorem enqNext_next {x : Regs W} {s t : Block W} (h : enqNext x s = .next t) :
    ∃ e, goto (.enq e) x s = .next t := by
  unfold enqNext at h
  split at h
  · exact ⟨_, h⟩
  · split at h <;> exact ⟨_, h⟩

/-- A phase of `RING_TRY_ENQ` is one access, and then the return or a further phase of it. -/
theorem tryEnqPhase_next {e : EnqPhase} {x : Regs W} {s t : Block W} {ret : Regs W → Block W → Res W}
    (h : tryEnqPhase e x s ret = .next t) :
    RingStep (.enq e) x s t fun y u => ret y u = .next t := by
  have hgoto : ∀ {e' y u}, goto (.enq e') y u = .next t →
      ∃ ph', goto ph' y u = .next t ∧ LoopStep (.enq e) ph' ∧ (HintOk (.enq e) x → HintOk ph' y) :=
    fun h => ⟨_, h, .enq e _, fun _ => hintOk_of_not_hintFree rfl _⟩
  cases e with
  | e0 =>
    rw [tryEnqPhase, phaseE0] at h
    obtain ⟨hl, h⟩ := faaOp_next h
    refine ⟨_, _, _, by simp, .memWrite hl _, .inr (hgoto h), ⟨rfl, rfl, rfl, rfl, rfl, fun hx => ?_⟩⟩
    exact ⟨by simpa using mapPos_lt_nOf s _, hx.idx, hx.vidx⟩
  | e1 =>
    rw [tryEnqPhase, phaseE1] at h
    obtain ⟨-, h⟩ := ldOp_next h
    obtain ⟨e', h⟩ := enqNext_next h
    exact ⟨slotOf x, s, _, by simp [slotOf], .refl _ _, .inr (hgoto h), .of_eq⟩
  | e2 =>
    rw [tryEnqPhase, phaseE2] at h
    obtain ⟨-, h⟩ := ldOp_next h
    split at h <;> exact ⟨.head x.r, s, _, by simp, .refl _ _, .inr (hgoto h), .of_eq⟩
  | e3 =>
    rw [tryEnqPhase, phaseE3] at h
    obtain ⟨hl, ⟨-, h⟩ | ⟨-, h⟩⟩ := casOp_next h
    · rw [if_pos rfl] at h
      split at h
      · exact ⟨_, _, _, by simp [slotOf], .memWrite hl _, .inl h, .refl _ x⟩
      · exact ⟨_, _, _, by simp [slotOf], .memWrite hl _, .inr (hgoto h), .refl _ x⟩
    · obtain ⟨e', h⟩ := enqNext_next h
      exact ⟨slotOf x, s, _, by simp [slotOf], .refl _ _, .inr (hgoto h), .of_eq⟩
  | e4 =>
    rw [tryEnqPhase, phaseE4] at h
    obtain ⟨-, h⟩ := ldOp_next h
    split at h
    · exact ⟨.threshold x.r, s, _, by simp, .refl _ _, .inr (hgoto h), .of_eq⟩
    · exact ⟨.threshold x.r, s, _, by simp, .refl _ _, .inl h, .of_eq⟩
  | e5 =>
    rw [tryEnqPhase, phaseE5] at h
    obtain ⟨hl, h⟩ := stOp_next h
    exact ⟨_, _, _, by simp, .memWrite hl _, .inl h, .refl _ x⟩

/-! #### `RING_CATCHUP` -/

/-- A phase of `RING_CATCHUP` is one access, and then the leaving of it or a further phase. -/
theorem catchupPhase_next {c : CatPhase} {x : Regs W} {s t : Block W} {leave : Regs W → Block W → Res W}
    (h : catchupPhase c x s leave = .next t) :
    RingStep (.cat c) x s t fun y u => leave y u = .next t := by
  have hgoto : ∀ {c' y u}, goto (.cat c') y u = .next t → y.hint = x.hint →
      ∃ ph', goto ph' y u = .next t ∧ LoopStep (.cat c) ph' ∧ (HintOk (.cat c) x → HintOk ph' y) :=
    fun h hxy => ⟨_, h, .cat c _, fun hx _ => hxy.trans (hx rfl)⟩
  cases c with
  | c0 =>
    rw [catchupPhase, phaseC0] at h
    obtain ⟨hl, ⟨-, h⟩ | ⟨-, h⟩⟩ := casOp_next h
    · exact ⟨_, _, _, by simp, .memWrite hl _, .inl h, .refl _ x⟩
    · exact ⟨.tail x.r, s, _, by simp, .refl _ _, .inr (hgoto h rfl), .refl _ x⟩
  | c1 =>
    rw [catchupPhase, phaseC1] at h
    obtain ⟨-, h⟩ := ldOp_next h
    exact ⟨.head x.r, s, _, by simp, .refl _ _, .inr (hgoto h rfl), .of_eq⟩
  | c2 =>
    rw [catchupPhase, phaseC2] at h
    obtain ⟨-, h⟩ := ldOp_next h
    split at h
    · exact ⟨.tail x.r, s, _, by simp, .refl _ _, .inl h, .of_eq⟩
    · exact ⟨.tail x.r, s, _, by simp, .refl _ _, .inr (hgoto h rfl), .of_eq⟩

/-! #### `RING_TRY_DEQ` -/

/-- `giveup` goes to `D1`, or without the hint to `D5` (R135). -/
theorem giveup_next {x : Regs W} {s t : Block W} (h : giveup x s = .next t) :
    ∃ d, goto (.deq d) x s = .next t ∧ HintOk (.deq d) x := by
  refine ⟨_, h, ?_⟩
  cases hx : x.hint <;> simp [HintOk, hintFree, hx]

/-- `deq_next` goes to a phase of `RING_TRY_DEQ`, to `D5` without the hint only (R135). -/
theorem deqNext_next {x : Regs W} {s t : Block W} (h : deqNext x s = .next t) :
    ∃ d y, goto (.deq d) y s = .next t ∧ HintOk (.deq d) y ∧ x.Carried s.order y := by
  have hgiveup : ∀ {y}, giveup y s = .next t → x.Carried s.order y →
      ∃ d y, goto (.deq d) y s = .next t ∧ HintOk (.deq d) y ∧ x.Carried s.order y := fun h hxy => by
    obtain ⟨d, h, hd⟩ := giveup_next h
    exact ⟨d, _, h, hd, hxy⟩
  unfold deqNext at h
  split at h
  · exact ⟨_, _, h, hintOk_of_not_hintFree rfl _, .refl _ x⟩
  split at h
  · simp only [deqNextFull] at h
    split at h
    · exact hgiveup h .of_eq
    · split at h
      · exact ⟨_, _, h, hintOk_of_not_hintFree rfl _, .of_eq⟩
      · exact hgiveup h .of_eq
  · simp only [deqNextEmpty] at h
    split at h
    · exact ⟨_, _, h, hintOk_of_not_hintFree rfl _, .of_eq⟩
    · split at h
      · exact ⟨_, _, h, hintOk_of_not_hintFree rfl _, .of_eq⟩
      · exact hgiveup h .of_eq

/-- A phase of `RING_TRY_DEQ` is one access, and then the return, a further phase of it, or its catch-up. -/
theorem tryDeqPhase_next {d : DeqPhase} {x : Regs W} {s t : Block W} {ret : Bool → Regs W → Block W → Res W}
    (h : tryDeqPhase d x s ret = .next t) :
    RingStep (.deq d) x s t fun y u => ∃ found, ret found y u = .next t := by
  have hgoto : ∀ {d' y u}, goto (.deq d') y u = .next t → (HintOk (.deq d) x → HintOk (.deq d') y) →
      ∃ ph', goto ph' y u = .next t ∧ LoopStep (.deq d) ph' ∧ (HintOk (.deq d) x → HintOk ph' y) :=
    fun h hhint => ⟨_, h, .deq d _, hhint⟩
  cases d with
  | d0 =>
    rw [tryDeqPhase, phaseD0] at h
    obtain ⟨-, h⟩ := ldOp_next h
    split at h
    · exact ⟨.threshold x.r, s, _, by simp, .refl _ _, .inl ⟨_, h⟩, .of_eq⟩
    · exact ⟨.threshold x.r, s, _, by simp, .refl _ _,
        .inr (hgoto h fun _ => hintOk_of_not_hintFree rfl _), .of_eq⟩
  | d1 =>
    rw [tryDeqPhase, phaseD1] at h
    obtain ⟨hl, h⟩ := faaOp_next h
    refine ⟨_, _, _, by simp, .memWrite hl _, .inr (hgoto h fun _ => hintOk_of_not_hintFree rfl _),
      ⟨rfl, rfl, rfl, rfl, rfl, fun hx => ?_⟩⟩
    exact ⟨by simpa using mapPos_lt_nOf s _, hx.idx, hx.vidx⟩
  | d2 =>
    rw [tryDeqPhase, phaseD2] at h
    obtain ⟨-, h⟩ := ldOp_next h
    obtain ⟨d', y, h, hy, hxy⟩ := deqNext_next h
    exact ⟨slotOf x, s, y, by simp [slotOf], .refl _ _, .inr (hgoto h fun _ => hy), .trans .of_eq hxy⟩
  | d3 =>
    rw [tryDeqPhase, phaseD3] at h
    obtain ⟨hl, h⟩ := forOp_next h
    refine ⟨_, _, _, by simp [slotOf], .memWrite hl _, .inl ⟨_, h⟩, ⟨rfl, rfl, rfl, rfl, rfl, fun hx => ?_⟩⟩
    exact ⟨hx.pos, by simpa using idxOf_lt_nOf s _, hx.vidx⟩
  | d4 =>
    rw [tryDeqPhase, phaseD4] at h
    obtain ⟨hl, ⟨-, h⟩ | ⟨-, h⟩⟩ := casOp_next h
    · obtain ⟨d', h, hd⟩ := giveup_next h
      exact ⟨_, _, x, by simp [slotOf], .memWrite hl _, .inr (hgoto h fun _ => hd), .refl _ x⟩
    · obtain ⟨d', y, h, hy, hxy⟩ := deqNext_next h
      exact ⟨slotOf x, s, y, by simp [slotOf], .refl _ _, .inr (hgoto h fun _ => hy), .trans .of_eq hxy⟩
  | d5 =>
    rw [tryDeqPhase, phaseD5] at h
    obtain ⟨-, h⟩ := ldOp_next h
    split at h
    · exact ⟨.tail x.r, s, _, by simp, .refl _ _, .inr ⟨_, h, .enter _ _, fun hx _ => hx rfl⟩, .of_eq⟩
    · exact ⟨.tail x.r, s, _, by simp, .refl _ _, .inr (hgoto h fun hx _ => hx rfl), .of_eq⟩
  | d6 =>
    rw [tryDeqPhase, phaseD6] at h
    obtain ⟨hl, h⟩ := fsubOp_next h
    split at h
    · exact ⟨_, _, _, by simp, .memWrite hl _, .inl ⟨_, h⟩, .of_eq⟩
    · exact ⟨_, _, _, by simp, .memWrite hl _, .inr (hgoto h fun _ => hintOk_of_not_hintFree rfl _), .of_eq⟩
  | d7 =>
    rw [tryDeqPhase, phaseD7] at h
    obtain ⟨hl, h⟩ := fsubOp_next h
    exact ⟨_, _, _, by simp, .memWrite hl _, .inl ⟨_, h⟩, .refl _ x⟩

/-! #### The returns, and a ring phase for each operation that runs it -/

theorem enqReturn_left {i : Instr} {y : Regs W} {u t : Block W} (h : enqReturn i y u = .next t) :
    Left u t .idle := by
  cases i with
  | enqueue _ => exact respond_left h
  | dequeue _ => exact respond_left h
  | _ => exact finishRing_left h

/-- The return of `RING_TRY_DEQ` ends the operation or goes to `Q1`, `P0` or `P1` (42_bounded_queue.md R153,
R157). -/
theorem deqReturn_next {i : Instr} {d : DeqPhase} {found : Bool} {x y : Regs W} {u t : Block W}
    (h : deqReturn i found y u = .next t) :
    Left u t .idle ∨ ∃ ph', Onward i (.deq d) x ph' y ∧ goto ph' y u = .next t := by
  cases i with
  | enqueue _ =>
    simp only [deqReturn, claimedFree] at h
    split at h
    · exact .inr ⟨.q1, ⟨fun _ => rfl, fun _ _ _ => trivial, fun _ => hintOk_of_not_hintFree rfl y, rfl⟩, h⟩
    · exact .inl (respond_left h)
  | dequeue _ =>
    refine .inr ⟨_, ?_, h⟩
    cases found <;>
      exact ⟨fun _ => rfl, fun _ _ _ => trivial, fun _ => hintOk_of_not_hintFree rfl y, rfl⟩
  | _ => exact .inl (finishRing_left h)

/-- A catch-up ends, or goes on at `D7` inside a dequeue (41_ring_buffer.md R141). -/
theorem catLeave_next {i : Instr} {c : CatPhase} {order : Nat} {x y : Regs W} {u t : Block W}
    (hi : runsCat i = true) (hxy : x.Carried order y) (h : catLeave i y u = .next t) :
    Left u t .idle ∨ ∃ ph', Onward i (.cat c) x ph' y ∧ goto ph' y u = .next t := by
  have hhint : HintOk (.cat c) x → HintOk (.deq .d7) y := fun hx _ => hxy.hint.trans (hx rfl)
  cases i <;> cases hi
  case ringCatchup => exact .inl (finishRing_left h)
  all_goals
    refine .inr ⟨.deq .d7, ⟨fun _ => rfl, fun p _ => ?_, hhint, rfl⟩, h⟩
    simp only [ringOk, hxy.r, hxy.hint, imp_self]

theorem enqPhase_contextStep {i : Instr} {e : EnqPhase} {x : Regs W} {s t : Block W}
    (hrun : s.running i (.enq e) x) (h : tryEnqPhase e x s (enqReturn i) = .next t) : ContextStep i s t :=
  (tryEnqPhase_next h).contextStep hrun rfl fun _ _ _ hret => .inl (enqReturn_left hret)

theorem deqPhase_contextStep {i : Instr} {d : DeqPhase} {x : Regs W} {s t : Block W}
    (hrun : s.running i (.deq d) x) (h : tryDeqPhase d x s (deqReturn i) = .next t) : ContextStep i s t :=
  (tryDeqPhase_next h).contextStep hrun rfl fun _ _ _ ⟨_, hret⟩ => deqReturn_next hret

theorem catPhase_contextStep {i : Instr} {c : CatPhase} {x : Regs W} {s t : Block W} (hi : runsCat i = true)
    (hrun : s.running i (.cat c) x) (h : catchupPhase c x s (catLeave i) = .next t) : ContextStep i s t :=
  (catchupPhase_next h).contextStep hrun rfl fun _ _ hxy hret => catLeave_next hi hxy hret

/-! ### Acceptance -/

/-- A command accepted with `op` and `arg` is told back from them (30_encoding.md R82). -/
theorem instr_of_decodeOp {ph : Phase} {x : Regs W} {i : Instr} (hdrv : x.drv = none)
    (h : decodeOp x.op x.arg = .ok i) : Ctx.instr (.busy ph x) = some i := by
  have hop : qOp (qWord x.op x.arg) = x.op := BitVec.extractLsb'_append_eq_left
  have harg : qArg (qWord x.op x.arg) = x.arg := BitVec.extractLsb'_append_eq_right
  simp only [Ctx.instr, hdrv, decode, hop, harg, h]

theorem instr_of_drv {ph : Phase} {x : Regs W} {i : Instr} (hdrv : x.drv = some i) :
    Ctx.instr (.busy ph x) = some i := by
  simp only [Ctx.instr, hdrv]

/-- The registers of a context that has just accepted something fit. -/
theorem Regs.Fit.of_blank {order : Nat} {x : Regs W} (hpos : x.pos = Regs.blank.pos := by rfl)
    (hidx : x.idx = Regs.blank.idx := by rfl) (hvidx : x.vidx = Regs.blank.vidx := by rfl) : x.Fit order := by
  constructor <;> simp [hpos, hidx, hvidx, Regs.blank, nOf]

/-- An operation accepted where no lifecycle command is pending. -/
theorem ContextStep.of_accept {i : Instr} {ph : Phase} {x : Regs W} {s t : Block W}
    (hquiet : s.ctxs.any Ctx.inLifecycle = false) (h : goto ph x s = .next t)
    (hph : (Ctx.busy ph x).inLifecycle = false) (hok : CtxOk s ph x) : ContextStep i s t := by
  refine ⟨[], s, _, by simp, .refl s [], goto_left h, fun _ => ⟨hok, fun d y _ hy => ⟨?_, ?_⟩⟩⟩
  · exact Bool.eq_false_iff.2 fun hl => by
      simpa [hquiet] using List.any_eq_true.2 ⟨y, List.mem_of_getElem? hy, hl⟩
  · rw [hph]
    exact fun hl => by cases hl

/-- A lifecycle command accepted where every context is idle. -/
theorem ContextStep.of_accept_quiescent {i : Instr} {ph : Phase} {x : Regs W} {s t : Block W}
    (hquiet : s.ctxs.any Ctx.isBusy = false) (h : goto ph x s = .next t) (hok : CtxOk s ph x) :
    ContextStep i s t := by
  have hidle : ∀ d y, s.ctx d = some y → y = .idle := by
    intro d y hy
    cases y with
    | idle => rfl
    | busy ph' z =>
      have hbusy : s.ctxs.any Ctx.isBusy = true := List.any_eq_true.2 ⟨_, List.mem_of_getElem? hy, rfl⟩
      rw [hquiet] at hbusy
      cases hbusy
  refine ⟨[], s, _, by simp, .refl s [], goto_left h, fun _ => ⟨hok, fun d y _ hy => ?_⟩⟩
  rw [hidle d y hy]
  exact ⟨rfl, fun _ => rfl⟩

/-! ### The commands and the looping ring operations -/

/-- The step of a phase, which may store a word of the block other than `CLOSED`, and leaves its context at a
phase that is none of the lifecycle. -/
theorem ContextStep.of_phase {i : Instr} {ph ph' : Phase} {x y : Regs W} {s u t : Block W} {ls : List Loc}
    (hrun : s.running i ph x) (hls : Loc.closed ∉ ls) (hu : Touched s ls u) (h : goto ph' y u = .next t)
    (hph' : (Ctx.busy ph' y).inLifecycle = false) (hok : CtxOk s ph x → CtxOk s ph' y) : ContextStep i s t :=
  ⟨ls, u, _, fun hmem => absurd hmem hls, hu, goto_left h, fun hs => .of_running hs hrun hph' hok⟩

theorem hintOk_startTryDeq {hint : Bool} {x : Regs W} (hx : x.hint = hint) :
    HintOk (.deq (if hint then .d1 else .d0)) x := by
  cases hint <;> simp [HintOk, hintFree, hx]

/-! #### `ENQUEUE` -/

theorem phaseQ0_contextStep {a : Nat} {x : Regs W} {s t : Block W} (hrun : s.running (.enqueue a) .q0 x)
    (h : phaseQ0 x s = .next t) : ContextStep (.enqueue a) s t := by
  rw [phaseQ0] at h
  obtain ⟨-, h⟩ := ldOp_next h
  split at h
  · exact .of_idle (respond_left h)
  · exact .of_phase hrun (ls := []) (by simp) (.refl s _) h rfl fun hok => hok.next hrun.2 rfl rfl rfl rfl rfl
      ⟨rfl, rfl⟩ (hintOk_startTryDeq rfl) ⟨hok.pos, hok.idx, hok.vidx⟩ rfl

theorem phaseQ1_contextStep {a : Nat} {x : Regs W} {s t : Block W} (hrun : s.running (.enqueue a) .q1 x)
    (h : phaseQ1 x s = .next t) : ContextStep (.enqueue a) s t := by
  rw [phaseQ1] at h
  obtain ⟨hl, h⟩ := stOp_next h
  exact .of_phase hrun (by simp) (.memWrite hl _) h rfl fun hok =>
    hok.next hrun.2 rfl rfl rfl rfl rfl ⟨rfl, rfl⟩ (hintOk_of_not_hintFree rfl _) ⟨hok.pos, hok.idx, hok.idx⟩ rfl

theorem blockEnqueue_next {a : Nat} {s t : Block W} (h : blockEnqueue a s = .next t) :
    ContextStep (.enqueue a) s t := by
  rcases onContext_next h with ⟨-, h⟩ | ⟨ph, x, hrun, h⟩
  · obtain ⟨hlive, h⟩ := needLive_next h
    obtain ⟨hquiet, h⟩ := needNoLifecycle_next h
    exact .of_accept hquiet h rfl
      (.of_plain (i := .enqueue _) hlive (instr_of_decodeOp rfl rfl)
        rfl trivial (hintOk_of_not_hintFree rfl _) .of_blank rfl)
  · cases ph with
    | q0 => exact phaseQ0_contextStep hrun h
    | deq d => exact deqPhase_contextStep hrun h
    | cat c => exact catPhase_contextStep rfl hrun h
    | q1 => exact phaseQ1_contextStep hrun h
    | enq e => exact enqPhase_contextStep hrun h
    | _ => cases h

/-! #### `DEQUEUE` -/

theorem phaseP0_contextStep {a : Nat} {x : Regs W} {s t : Block W} (h : phaseP0 x s = .next t) :
    ContextStep (.dequeue a) s t := by
  rw [phaseP0] at h
  obtain ⟨-, h⟩ := ldOp_next h
  exact .of_idle (respond_left h)

theorem phaseP1_contextStep {a : Nat} {x : Regs W} {s t : Block W} (hrun : s.running (.dequeue a) .p1 x)
    (h : phaseP1 x s = .next t) : ContextStep (.dequeue a) s t := by
  rw [phaseP1] at h
  obtain ⟨-, h⟩ := ldOp_next h
  exact .of_phase hrun (ls := []) (by simp) (.refl s _) h rfl fun hok =>
    hok.next hrun.2 rfl rfl rfl rfl rfl ⟨rfl, rfl⟩ (hintOk_of_not_hintFree rfl _) ⟨hok.pos, hok.idx, hok.idx⟩ rfl

theorem blockDequeue_next {a : Nat} {s t : Block W} (h : blockDequeue a s = .next t) :
    ContextStep (.dequeue a) s t := by
  rcases onContext_next h with ⟨-, h⟩ | ⟨ph, x, hrun, h⟩
  · obtain ⟨hlive, h⟩ := needLive_next h
    obtain ⟨hquiet, h⟩ := needNoLifecycle_next h
    exact .of_accept hquiet h rfl
      (.of_plain (i := .dequeue _) hlive (instr_of_decodeOp rfl rfl)
        rfl ⟨rfl, rfl⟩ (hintOk_startTryDeq rfl) .of_blank rfl)
  · cases ph with
    | deq d => exact deqPhase_contextStep hrun h
    | cat c => exact catPhase_contextStep rfl hrun h
    | p0 => exact phaseP0_contextStep h
    | p1 => exact phaseP1_contextStep hrun h
    | enq e => exact enqPhase_contextStep hrun h
    | _ => cases h

/-! #### `CLOSE` -/

theorem phaseK0_contextStep {a : Nat} {x : Regs W} {s t : Block W} (h : phaseK0 x s = .next t) :
    ContextStep (.close a) s t := by
  rw [phaseK0] at h
  obtain ⟨hl, h⟩ := faaOp_next h
  exact ⟨_, _, .idle, fun _ => ⟨a, rfl⟩, .memWrite hl _, respond_left h, fun _ => trivial⟩

theorem blockClose_next {a : Nat} {s t : Block W} (h : blockClose a s = .next t) : ContextStep (.close a) s t := by
  rcases onContext_next h with ⟨-, h⟩ | ⟨ph, x, hrun, h⟩
  · obtain ⟨hlive, h⟩ := needLive_next h
    obtain ⟨hquiet, h⟩ := needNoLifecycle_next h
    exact .of_accept hquiet h rfl
      (.of_plain (i := .close _) hlive (instr_of_decodeOp rfl rfl)
        rfl trivial (hintOk_of_not_hintFree rfl _) .of_blank rfl)
  · cases ph with
    | k0 => exact phaseK0_contextStep h
    | _ => cases h

/-! #### `DUMP` -/

/-- A context at `U0` of a `DUMP`. -/
theorem CtxOk.of_u0 {s : Block W} {a : Nat} {x : Regs W} (hlive : s.live = true)
    (hi : Ctx.instr (.busy .u0 x) = some (.dump a)) (hfit : x.Fit s.order) (hdi : x.di.toNat < capOf s.order) :
    CtxOk s .u0 x where
  instr := ⟨_, hi, rfl, trivial⟩
  noHint h := by cases h
  pos := hfit.pos
  idx := hfit.idx
  vidx := hfit.vidx
  di _ := hdi
  live := ⟨fun _ => (by simp), fun _ => hlive⟩
  order h := by cases h

/-- The next index of a `DUMP` that is not at its last one is below `CAP`. -/
theorem toNat_add_one_lt_capOf {order : Nat} {di : Word W} (hdi : di.toNat < capOf order)
    (hlast : di ≠ BitVec.ofNat W (capOf order - 1)) : (di + 1).toNat < capOf order := by
  have hne : di.toNat ≠ capOf order - 1 := fun h => hlast (BitVec.eq_of_toNat_eq (by
    rw [← h, BitVec.toNat_ofNat, Nat.mod_eq_of_lt di.isLt]))
  have hle : (di + 1).toNat ≤ di.toNat + 1 := by
    rw [BitVec.toNat_add]
    refine (Nat.mod_le _ _).trans (Nat.add_le_add_left ?_ _)
    simpa using Nat.mod_le 1 (2 ^ W)
  omega

theorem phaseU0_contextStep {a : Nat} {x : Regs W} {s t : Block W} (hrun : s.running (.dump a) .u0 x)
    (h : phaseU0 x s = .next t) : ContextStep (.dump a) s t := by
  rw [phaseU0] at h
  obtain ⟨-, h⟩ := ldOp_next h
  split at h
  · exact .of_idle (respond_left h)
  · next hlast =>
    refine ⟨[], s, _, by simp, .refl s _, ⟨[_], goto_next h⟩, fun hs => .of_running hs hrun rfl fun hok => ?_⟩
    exact .of_u0 (hok.live.2 (by simp)) ((instr_congr (ph := .u0) rfl rfl rfl).trans hrun.2)
      ⟨hok.pos, hok.idx, hok.vidx⟩
      (toNat_add_one_lt_capOf (hok.di rfl) hlast)

theorem blockDump_next {a : Nat} {s t : Block W} (h : blockDump a s = .next t) : ContextStep (.dump a) s t := by
  rcases onContext_next h with ⟨-, h⟩ | ⟨ph, x, hrun, h⟩
  · obtain ⟨hlive, h⟩ := needLive_next h
    obtain ⟨hquiet, h⟩ := needNoLifecycle_next h
    exact .of_accept hquiet h rfl (.of_u0 hlive (instr_of_decodeOp rfl rfl) .of_blank (by simp [capOf]))
  · cases ph with
    | u0 => exact phaseU0_contextStep hrun h
    | _ => cases h

/-! #### The ring operations driven directly -/

theorem blockRingTryEnq_next {r : Ring} {hint : Bool} {v : Nat} {s t : Block W}
    (h : blockRingTryEnq r hint v s = .next t) : ContextStep (.ringTryEnq r hint v) s t := by
  rcases onContext_next h with ⟨-, h⟩ | ⟨ph, x, hrun, h⟩
  · obtain ⟨hlive, h⟩ := needLive_next h
    obtain ⟨hquiet, h⟩ := needNoLifecycle_next h
    split at h
    · cases h
    next hv =>
    split at h
    · cases h
    have hvidx : (BitVec.ofNat W v).toNat < nOf s.order := by
      have hle : (BitVec.ofNat W v).toNat ≤ v := by simpa using Nat.mod_le v (2 ^ W)
      have hcap : nOf s.order = 2 * capOf s.order := by simp [nOf, capOf, pow_succ, Nat.mul_comm]
      omega
    have hblank : (Regs.blank : Regs W).Fit s.order := .of_blank
    exact .of_accept hquiet h rfl
      (.of_plain (i := .ringTryEnq r hint v) hlive (instr_of_drv rfl)
        rfl ⟨rfl, rfl⟩ (hintOk_of_not_hintFree rfl _) ⟨hblank.pos, hblank.idx, hvidx⟩ rfl)
  · cases ph with
    | enq e => exact enqPhase_contextStep hrun h
    | _ => cases h

theorem blockRingTryDeq_next {r : Ring} {hint : Bool} {s t : Block W} (h : blockRingTryDeq r hint s = .next t) :
    ContextStep (.ringTryDeq r hint) s t := by
  rcases onContext_next h with ⟨-, h⟩ | ⟨ph, x, hrun, h⟩
  · obtain ⟨hlive, h⟩ := needLive_next h
    obtain ⟨hquiet, h⟩ := needNoLifecycle_next h
    exact .of_accept hquiet h rfl
      (.of_plain (i := .ringTryDeq r hint) hlive (instr_of_drv rfl)
        rfl ⟨rfl, rfl⟩ (hintOk_startTryDeq rfl) .of_blank rfl)
  · cases ph with
    | deq d => exact deqPhase_contextStep hrun h
    | cat c => exact catPhase_contextStep rfl hrun h
    | _ => cases h

theorem blockRingCatchup_next {r : Ring} {tl hd : Nat} {s t : Block W} (h : blockRingCatchup r tl hd s = .next t) :
    ContextStep (.ringCatchup r tl hd) s t := by
  rcases onContext_next h with ⟨-, h⟩ | ⟨ph, x, hrun, h⟩
  · obtain ⟨hlive, h⟩ := needLive_next h
    obtain ⟨hquiet, h⟩ := needNoLifecycle_next h
    exact .of_accept hquiet h rfl
      (.of_plain (i := .ringCatchup r tl hd) hlive (instr_of_drv rfl) rfl rfl (fun _ => rfl) .of_blank rfl)
  · cases ph with
    | cat c => exact catPhase_contextStep rfl hrun h
    | _ => cases h

/-! #### `CREATE` and `DESTROY` -/

/-- A context at `X0` of a `CREATE`, no queue being live. -/
theorem CtxOk.of_x0 {s : Block W} {a : Nat} {x : Regs W} (hlive : s.live = false)
    (hi : Ctx.instr (.busy .x0 x) = some (.create a)) (hfit : x.Fit s.order) (harg : x.arg.toNat ≤ s.cfg.orderMax) :
    CtxOk s .x0 x where
  instr := ⟨_, hi, rfl, trivial⟩
  noHint h := by cases h
  pos := hfit.pos
  idx := hfit.idx
  vidx := hfit.vidx
  di h := by cases h
  live := by simp [hlive]
  order _ := harg

/-- A context at `Y0` of a `DESTROY`. -/
theorem CtxOk.of_y0 {s : Block W} {a : Nat} {x : Regs W} (hlive : s.live = true)
    (hi : Ctx.instr (.busy .y0 x) = some (.destroy a)) (hfit : x.Fit s.order) : CtxOk s .y0 x where
  instr := ⟨_, hi, rfl, trivial⟩
  noHint h := by cases h
  pos := hfit.pos
  idx := hfit.idx
  vidx := hfit.vidx
  di h := by cases h
  live := ⟨fun _ => (by simp), fun _ => hlive⟩
  order h := by cases h

/-- `X0` of a `CREATE` whose allocation has succeeded: the queue is built and the response given (R150). -/
def Created (s t : Block W) : Prop :=
  ∃ a x, s.running (.create a) .x0 x ∧
    t = (s.create x.arg.toNat).finish.emit (.response (s.create x.arg.toNat).cur ⟨.ok, none⟩)

/-- `Y0` of a `DESTROY`: the queue is released and the response given (R161). -/
def Destroyed (s t : Block W) : Prop :=
  ∃ a x, s.running (.destroy a) .y0 x ∧ t = s.release.finish.emit (.response s.cur ⟨.ok, none⟩)

theorem blockCreate_next {a : Nat} {s t : Block W} (h : blockCreate a s = .next t) :
    ContextStep (.create a) s t ∨ Created s t := by
  rcases onContext_next h with ⟨-, h⟩ | ⟨ph, x, hrun, h⟩
  · split at h
    · cases h
    next hlive =>
    split at h
    · cases h
    next harg =>
    obtain ⟨hquiet, h⟩ := needQuiescent_next h
    have hle : (BitVec.ofNat W a).toNat ≤ a := by simpa using Nat.mod_le a (2 ^ W)
    exact .inl (.of_accept_quiescent hquiet h
      (.of_x0 (by simpa using hlive) (instr_of_decodeOp rfl rfl) .of_blank (hle.trans (by omega))))
  · cases ph with
    | x0 =>
      simp only [phaseX0] at h
      split at h
      · exact .inr ⟨a, x, hrun, respond_next h⟩
      · exact .inl (.of_idle (respond_left h))
    | _ => cases h

theorem blockDestroy_next {a : Nat} {s t : Block W} (h : blockDestroy a s = .next t) :
    ContextStep (.destroy a) s t ∨ Destroyed s t := by
  rcases onContext_next h with ⟨-, h⟩ | ⟨ph, x, hrun, h⟩
  · obtain ⟨hlive, h⟩ := needLive_next h
    obtain ⟨hquiet, h⟩ := needQuiescent_next h
    exact .inl (.of_accept_quiescent hquiet h (.of_y0 hlive (instr_of_decodeOp rfl rfl) .of_blank))
  · cases ph with
    | y0 => exact .inr ⟨a, x, hrun, respond_next h⟩
    | _ => cases h

/-! ### The initialisations and the primitives -/

/-- An initialisation of a live ring driven directly: words of the block stored, and its completion. -/
def RingInitStep (s t : Block W) : Prop :=
  s.live = true ∧ ∃ ws o, StoresWords s.order ws ∧ t = (s.storeAll ws).emit o

theorem blockRingInitEmpty_next {r : Ring} {s t : Block W} (h : blockRingInitEmpty r s = .next t) :
    RingInitStep s t := by
  obtain ⟨hlive, h⟩ := needLive_next h
  cases h
  exact ⟨hlive, _, _, storesWords_emptyWords s.order r, by rw [initEmpty_eq_storeAll]⟩

theorem blockRingInitFill_next {r : Ring} {start fin : Nat} {s t : Block W}
    (h : blockRingInitFill r start fin s = .next t) : RingInitStep s t := by
  obtain ⟨hlive, h⟩ := needLive_next h
  split at h
  · cases h
    exact ⟨hlive, _, _, storesWords_fillWords s.cfg.rot s.order r start fin, by rw [initFill_eq_storeAll]⟩
  · cases h

/-- The location a primitive driven directly may store to. -/
def storesTo : Instr → List Loc
  | .st l _ => [l]
  | .faa l _ => [l]
  | .fsub l _ => [l]
  | .fetchOr l _ => [l]
  | .cas l _ _ => [l]
  | _ => []

/-- A primitive that may store to `CLOSED` is one of the five that store, driven at it. -/
theorem closed_mem_storesTo {i : Instr} (h : Loc.closed ∈ storesTo i) :
    (∃ v, i = .st .closed v) ∨ (∃ d, i = .faa .closed d) ∨ (∃ d, i = .fsub .closed d) ∨
      (∃ m, i = .fetchOr .closed m) ∨ ∃ e v, i = .cas .closed e v := by
  cases i <;> simp_all [storesTo]

/-- A primitive driven directly: at most its one store, and its result. -/
def PrimitiveStep (i : Instr) (s t : Block W) : Prop := ∃ u o, Touched s (storesTo i) u ∧ t = u.emit o

theorem blockLd_next {l : Loc} {s t : Block W} (h : blockLd l s = .next t) : PrimitiveStep (.ld l) s t := by
  obtain ⟨-, h⟩ := ldOp_next h
  exact ⟨s, _, .refl s _, finishPrim_next h⟩

theorem blockSt_next {l : Loc} {v : Nat} {s t : Block W} (h : blockSt l v s = .next t) :
    PrimitiveStep (.st l v) s t := by
  obtain ⟨hl, h⟩ := stOp_next h
  exact ⟨_, _, .memWrite hl _, finishPrim_next h⟩

theorem blockFaa_next {l : Loc} {d : Nat} {s t : Block W} (h : blockFaa l d s = .next t) :
    PrimitiveStep (.faa l d) s t := by
  obtain ⟨hl, h⟩ := faaOp_next h
  exact ⟨_, _, .memWrite hl _, finishPrim_next h⟩

theorem blockFsub_next {l : Loc} {d : Nat} {s t : Block W} (h : blockFsub l d s = .next t) :
    PrimitiveStep (.fsub l d) s t := by
  obtain ⟨hl, h⟩ := fsubOp_next h
  exact ⟨_, _, .memWrite hl _, finishPrim_next h⟩

theorem blockFor_next {l : Loc} {m : Nat} {s t : Block W} (h : blockFor l m s = .next t) :
    PrimitiveStep (.fetchOr l m) s t := by
  obtain ⟨hl, h⟩ := forOp_next h
  exact ⟨_, _, .memWrite hl _, finishPrim_next h⟩

theorem blockCas_next {l : Loc} {e v : Nat} {s t : Block W} (h : blockCas l e v s = .next t) :
    PrimitiveStep (.cas l e v) s t := by
  obtain ⟨hl, ⟨-, h⟩ | ⟨-, h⟩⟩ := casOp_next h
  · exact ⟨_, _, .memWrite hl _, finishPrim_next h⟩
  · exact ⟨s, _, .refl s _, finishPrim_next h⟩

/-! ### Every operation -/

/-- What a step of an operation that goes on can have been. -/
inductive ExecStep (i : Instr) (s t : Block W) : Prop
  | context (h : ContextStep i s t)
  | created (a : Nat) (hi : i = .create a) (h : Created s t)
  | destroyed (a : Nat) (hi : i = .destroy a) (h : Destroyed s t)
  | ringInit (h : RingInitStep s t)
  | primitive (h : PrimitiveStep i s t)

theorem blockExec_next {i : Instr} {s t : Block W} (h : blockExec i s = .next t) : ExecStep i s t := by
  cases i with
  | create a => exact (blockCreate_next h).elim .context (.created a rfl)
  | enqueue a => exact .context (blockEnqueue_next h)
  | dequeue a => exact .context (blockDequeue_next h)
  | close a => exact .context (blockClose_next h)
  | destroy a => exact (blockDestroy_next h).elim .context (.destroyed a rfl)
  | dump a => exact .context (blockDump_next h)
  | ringInitEmpty r => exact .ringInit (blockRingInitEmpty_next h)
  | ringInitFill r start fin => exact .ringInit (blockRingInitFill_next h)
  | ringTryEnq r hint v => exact .context (blockRingTryEnq_next h)
  | ringTryDeq r hint => exact .context (blockRingTryDeq_next h)
  | ringCatchup r tl hd => exact .context (blockRingCatchup_next h)
  | ld l => exact .primitive (blockLd_next h)
  | st l v => exact .primitive (blockSt_next h)
  | faa l d => exact .primitive (blockFaa_next h)
  | fsub l d => exact .primitive (blockFsub_next h)
  | fetchOr l m => exact .primitive (blockFor_next h)
  | cas l e v => exact .primitive (blockCas_next h)

end Steps

end Sys2Proof.Machine

/-! PROOFS. The invariant of the block, and the statements of 10_state.md. -/

namespace Sys2Proof.Machine

section Invariant

variable {W : Nat}

/-! ### The words held -/

/-- The block is in canonical form, and holds values at locations of a queue of its order only. -/
structure Block.Placed (s : Block W) : Prop where
  canonical : Mem.wf s.mem = true
  placed : ∀ a w, Mem.read s.mem a = some w → ∃ l : Loc, l.inRange s.order = true ∧ l ≠ .closed ∧ s.addr l = a

theorem Block.Placed.of_nil {s : Block W} (h : s.mem = []) : s.Placed where
  canonical := by rw [h]; rfl
  placed a w hr := by rw [h] at hr; cases hr

theorem Block.Inv.mem_placed {s : Block W} (h : s.Inv) : s.Placed where
  canonical := h.canonical
  placed a w hr := by
    obtain ⟨l, hl, hc, ha⟩ := h.placed a w hr
    exact ⟨l, (Bool.and_eq_true_iff.1 hl).2, hc, ha⟩

theorem Block.Placed.storeAll {s : Block W} (h : s.Placed) {ws : List (Loc × Word W)}
    (hws : StoresWords s.order ws) : (s.storeAll ws).Placed where
  canonical := Mem.wf_writeAll h.canonical _
  placed a w hr := by
    by_cases ha : ∃ l v, (l, v) ∈ ws ∧ s.addr l = a
    · obtain ⟨l, v, hl, ha⟩ := ha
      exact ⟨l, (hws l v hl).1, (hws l v hl).2, ha⟩
    · rw [Block.storeAll_read_of_notMem fun l v hl hla => ha ⟨l, v, hl, hla.symm⟩] at hr
      exact h.placed a w hr

/-- The invariant of the state that the contexts share. -/
structure Block.SharedInv (s : Block W) : Prop where
  params : s.cfg.wf W s.ctxs.length = true
  order_le : s.live = true → s.order ≤ s.cfg.orderMax
  dead : s.live = false → s.mem = [] ∧ s.order = 0 ∧ s.closed = 0
  words : s.Placed

theorem Block.Inv.shared {s : Block W} (h : s.Inv) : s.SharedInv := ⟨h.params, h.order_le, h.dead, h.mem_placed⟩

theorem Block.SharedInv.placed {s : Block W} (h : s.SharedInv) (a : Nat) (w : Word W)
    (hr : Mem.read s.mem a = some w) : ∃ l, s.hasLoc l = true ∧ l ≠ .closed ∧ s.addr l = a := by
  cases hlive : s.live with
  | false =>
    rw [(h.dead hlive).1] at hr
    cases hr
  | true =>
    obtain ⟨l, hl, hc, ha⟩ := h.words.placed a w hr
    exact ⟨l, by simp [Block.hasLoc, hlive, hl], hc, ha⟩

/-- The shared state while no queue is live. -/
theorem Block.SharedInv.of_dead {s : Block W} (hparams : s.cfg.wf W s.ctxs.length = true) (hlive : s.live = false)
    (hmem : s.mem = []) (horder : s.order = 0) (hclosed : s.closed = 0) : s.SharedInv where
  params := hparams
  order_le hl := absurd (hlive.symm.trans hl) (by simp)
  dead _ := ⟨hmem, horder, hclosed⟩
  words := .of_nil hmem

/-- The shared state while a queue is live. -/
theorem Block.SharedInv.of_live {s : Block W} (hparams : s.cfg.wf W s.ctxs.length = true) (hlive : s.live = true)
    (horder : s.order ≤ s.cfg.orderMax) (hwords : s.Placed) : s.SharedInv where
  params := hparams
  order_le _ := horder
  dead hd := absurd (hlive.symm.trans hd) (by simp)
  words := hwords

/-- The invariant is that of the shared state and that of the contexts. -/
theorem Block.Inv.of_shared {s : Block W} (h : s.SharedInv)
    (hok : ∀ c ph x, s.ctx c = some (.busy ph x) → CtxOk s ph x)
    (halone : ∀ c d x y, s.ctx c = some x → x.inLifecycle = true → s.ctx d = some y → d ≠ c → y = .idle) :
    s.Inv where
  params := h.params
  canonical := h.words.canonical
  order_le := h.order_le
  dead := h.dead
  placed := h.placed
  ctx_ok := hok
  alone := halone

/-- Where every context is idle, the invariant is that of the shared state. -/
theorem Block.Inv.of_idle {s : Block W} (h : s.SharedInv) (hidle : ∀ c x, s.ctx c = some x → x = .idle) :
    s.Inv := by
  refine .of_shared h (fun c ph x hc => ?_) fun c d x y _ _ hd _ => hidle d y hd
  cases hidle c _ hc

/-- The invariant reads the parameters, the lifecycle registers, the words and the contexts, nothing of the
environment. -/
theorem Block.Inv.congr {s t : Block W} (h : s.Inv) (hs : t.SharedInv) (hcfg : t.cfg = s.cfg)
    (horder : t.order = s.order) (hlive : t.live = s.live) (hctx : ∀ c, t.ctx c = s.ctx c) : t.Inv :=
  .of_shared hs (fun c ph x hc => (h.ctx_ok c ph x (hctx c ▸ hc)).congr hcfg horder hlive)
    fun c d x y hc hl hd => h.alone c d x y (hctx c ▸ hc) hl (hctx d ▸ hd)

theorem Block.SharedInv.storeAll {s : Block W} (h : s.SharedInv) (hlive : s.live = true)
    {ws : List (Loc × Word W)} (hws : StoresWords s.order ws) : (s.storeAll ws).SharedInv :=
  .of_live h.params hlive (h.order_le hlive) (h.words.storeAll hws)

theorem Block.SharedInv.memWrite {s : Block W} (h : s.SharedInv) {l : Loc} (hl : s.hasLoc l = true) (v : Word W) :
    (s.memWrite l v).SharedInv := by
  obtain ⟨hlive, hrange⟩ := Bool.and_eq_true_iff.1 hl
  by_cases hc : l = .closed
  · subst hc
    exact .of_live h.params hlive (h.order_le hlive) ⟨h.words.canonical, h.words.placed⟩
  · have hword : StoresWords s.order [(l, v)] := fun m w hm => by
      obtain ⟨rfl, rfl⟩ := Prod.mk.inj (List.mem_singleton.1 hm)
      exact ⟨hrange, hc⟩
    have heq : s.memWrite l v = s.storeAll [(l, v)] := (Block.storeAll_cons s (w := (l, v)) [] hc).symm
    rw [heq]
    exact h.storeAll hlive hword

theorem Touched.inv {s u : Block W} {ls : List Loc} (h : Touched s ls u) (hs : s.Inv) : u.Inv := by
  rcases h with rfl | ⟨l, -, hl, v, rfl⟩
  · exact hs
  · exact hs.congr (hs.shared.memWrite hl v) (by simp) (by simp) (by simp) (by simp)

theorem Block.Inv.emit {s : Block W} (h : s.Inv) (o : Output W) : (s.emit o).Inv :=
  h.congr ⟨h.params, h.order_le, h.dead, h.canonical, h.mem_placed.placed⟩ rfl rfl rfl fun _ => rfl

/-! ### Steps that take a context on -/

/-- The contexts after a step that left the running one as `c`. -/
theorem Left.ctx {u t : Block W} {c : Ctx W} (h : Left u t c) {d : Nat} {y : Ctx W} (hy : t.ctx d = some y) :
    (d = u.cur ∧ y = c) ∨ (d ≠ u.cur ∧ u.ctx d = some y) := by
  obtain ⟨os, rfl⟩ := h
  have hset : (u.ctxs.set u.cur c)[d]? = some y := hy
  rw [List.getElem?_set] at hset
  split at hset
  · next hd =>
    split at hset
    · exact .inl ⟨hd.symm, (Option.some.inj hset).symm⟩
    · cases hset
  · next hd => exact .inr ⟨fun h => hd h.symm, hset⟩

theorem Left.shared {u t : Block W} {c : Ctx W} (h : Left u t c) (hu : u.SharedInv) : t.SharedInv := by
  obtain ⟨os, rfl⟩ := h
  exact ⟨by simpa using hu.params, hu.order_le, hu.dead, hu.words.canonical, hu.words.placed⟩

theorem ContextStep.inv {i : Instr} {s t : Block W} (h : ContextStep i s t) (hs : s.Inv) : t.Inv := by
  obtain ⟨ls, u, c, -, hu, ht, hfits⟩ := h
  have hsu := hu.frame s.cur
  have hut := ht.frame ls
  have hok : ∀ {ph x}, CtxOk s ph x → CtxOk t ph x := fun hok =>
    hok.congr (hut.cfg.trans hsu.cfg) (hut.order.trans hsu.order) (hut.live.trans hsu.live)
  have hctx : ∀ {d y}, t.ctx d = some y → (d = s.cur ∧ y = c) ∨ (d ≠ s.cur ∧ s.ctx d = some y) := by
    intro d y hy
    have hold := ht.ctx hy
    rwa [Block.ctx, hu.ctxs_eq, hsu.cur] at hold
  refine .of_shared (ht.shared (hu.inv hs).shared) (fun d ph x hd => ?_) fun d e x y hd hl he hne => ?_
  · rcases hctx hd with ⟨-, rfl⟩ | ⟨-, hd⟩
    · exact hok (hfits hs).1
    · exact hok (hs.ctx_ok d ph x hd)
  · rcases hctx hd with ⟨rfl, rfl⟩ | ⟨hds, hd⟩ <;> rcases hctx he with ⟨rfl, rfl⟩ | ⟨hes, he⟩
    · exact absurd rfl hne
    · cases x with
      | idle => cases hl
      | busy ph z => exact ((hfits hs).2 e y hes he).2 hl
    · cases y with
      | idle => rfl
      | busy ph z =>
        have hx := ((hfits hs).2 d x hds hd).1
        rw [hl] at hx
        cases hx
    · exact hs.alone d e x y hd hl he hne

/-! ### The lifecycle steps -/

/-- Beside a context at `X0` or `Y0` every context is idle, and so is that one when it has ended. -/
theorem idle_of_lifecycle_ended {s t : Block W} {i : Instr} {ph : Phase} {x : Regs W} (hs : s.Inv)
    (hrun : s.running i ph x) (hph : (Ctx.busy ph x).inLifecycle = true) (ht : t.ctxs = s.ctxs.set s.cur .idle) :
    ∀ d y, t.ctx d = some y → y = .idle := by
  intro d y hy
  have hleft : Left s { s with ctxs := t.ctxs } .idle := ⟨[], by rw [ht]; rfl⟩
  rcases hleft.ctx (d := d) (y := y) hy with ⟨-, rfl⟩ | ⟨hd, hy⟩
  · rfl
  · exact hs.alone _ d _ y hrun.1 hph hy hd

theorem Block.create_placed (s : Block W) (order : Nat) : (s.create order).Placed := by
  have hwords : ((s.allocate order).storeAll (createWords s.cfg.rot order)).Placed :=
    (Block.Placed.of_nil rfl).storeAll (storesWords_createWords s.cfg.rot order)
  rw [Block.create_eq]
  exact ⟨hwords.canonical, hwords.placed⟩

/-- The shared invariant does not read which contexts there are, only how many. -/
theorem Block.SharedInv.finish_emit {s : Block W} (h : s.SharedInv) (o : Output W) : (s.finish.emit o).SharedInv :=
  Left.shared ⟨[o], rfl⟩ h

theorem Created.inv {s t : Block W} (h : Created s t) (hs : s.Inv) : t.Inv := by
  obtain ⟨a, x, hrun, rfl⟩ := h
  have hcreated : (s.create x.arg.toNat).SharedInv :=
    .of_live (by simpa using hs.params) (by simp) (by simpa using (hs.ctx_ok _ _ _ hrun.1).order rfl)
      (s.create_placed _)
  exact .of_idle (hcreated.finish_emit _) (idle_of_lifecycle_ended hs hrun rfl (by simp))

theorem Destroyed.inv {s t : Block W} (h : Destroyed s t) (hs : s.Inv) : t.Inv := by
  obtain ⟨a, x, hrun, rfl⟩ := h
  have hreleased : s.release.SharedInv := .of_dead hs.params rfl rfl rfl rfl
  exact .of_idle (hreleased.finish_emit _) (idle_of_lifecycle_ended hs hrun rfl rfl)

theorem hwReset_ctx_idle (s : Block W) : ∀ c x, s.hwReset.ctx c = some x → x = .idle := by
  intro c x hc
  rw [Block.ctx, Block.hwReset_ctxs] at hc
  exact List.eq_of_mem_replicate (List.mem_of_getElem? hc)

theorem Block.Inv.hwReset {s : Block W} (h : s.Inv) : s.hwReset.Inv :=
  .of_idle (.of_dead (by simpa using h.params) rfl rfl rfl rfl) (hwReset_ctx_idle s)

/-! ### Every step -/

theorem RingInitStep.inv {s t : Block W} (h : RingInitStep s t) (hs : s.Inv) : t.Inv := by
  obtain ⟨hlive, ws, o, hws, rfl⟩ := h
  exact (hs.congr (hs.shared.storeAll hlive hws) rfl rfl rfl fun _ => rfl).emit o

theorem PrimitiveStep.inv {i : Instr} {s t : Block W} (h : PrimitiveStep i s t) (hs : s.Inv) : t.Inv := by
  obtain ⟨u, o, hu, rfl⟩ := h
  exact (hu.inv hs).emit o

theorem blockExec_keeps_inv {i : Instr} {s t : Block W} (hs : s.Inv) (h : blockExec i s = .next t) : t.Inv := by
  cases blockExec_next h with
  | context h => exact h.inv hs
  | created _ _ h => exact h.inv hs
  | destroyed _ _ h => exact h.inv hs
  | ringInit h => exact h.inv hs
  | primitive h => exact h.inv hs

/-- What the environment does next, and whom it named last, are no part of the invariant. -/
theorem Block.Inv.withEnv {s : Block W} (h : s.Inv) (env : List (Event W)) (cur : Nat) (allocOk : Bool) :
    ({ s with env := env, cur := cur, allocOk := allocOk } : Block W).Inv :=
  h.congr ⟨h.params, h.order_le, h.dead, h.canonical, h.mem_placed.placed⟩ rfl rfl rfl fun _ => rfl

/-- A step is nothing but the taking of an event, a reset, or a step of one operation. -/
theorem blockStep_exec {s t : Block W} (h : blockStep s = .next t) :
    (∃ rest, t = { s with env := rest }) ∨ (∃ rest, t = Block.hwReset { s with env := rest }) ∨
      ∃ i rest c ok, blockExec i { s with env := rest, cur := c, allocOk := ok } = .next t := by
  rcases blockStep_next h with ⟨-, rfl⟩ | ⟨rest, -, rfl⟩ | ⟨c, ok, rest, -, -, rfl⟩ |
    ⟨c, p, i, rest, -, -, -, h⟩ | ⟨c, ok, ph, x, i, rest, -, -, -, h⟩
  · exact .inl ⟨_, rfl⟩
  · exact .inr (.inl ⟨rest, rfl⟩)
  · exact .inl ⟨rest, rfl⟩
  · exact .inr (.inr ⟨i, rest, c, s.allocOk, h⟩)
  · exact .inr (.inr ⟨i, rest, c, ok, h⟩)

theorem blockStep_keeps_inv {s t : Block W} (hs : s.Inv) (h : blockStep s = .next t) : t.Inv := by
  rcases blockStep_exec h with ⟨rest, rfl⟩ | ⟨rest, rfl⟩ | ⟨i, rest, c, ok, h⟩
  · exact hs.withEnv rest s.cur s.allocOk
  · exact (hs.withEnv rest s.cur s.allocOk).hwReset
  · exact blockExec_keeps_inv (hs.withEnv rest c ok) h

/-! ### Frames of whole operations -/

/-- What every step of an operation leaves as it was (70_reset_and_hazards.md R191). -/
theorem blockExec_params {i : Instr} {s t : Block W} (h : blockExec i s = .next t) :
    t.cfg = s.cfg ∧ t.ctxs.length = s.ctxs.length := by
  cases blockExec_next h with
  | context h =>
    obtain ⟨ls, -, hf⟩ := h.frame
    exact ⟨hf.cfg, hf.nctx⟩
  | created _ _ h =>
    obtain ⟨a, x, -, rfl⟩ := h
    exact ⟨by simp, by simp⟩
  | destroyed _ _ h =>
    obtain ⟨a, x, -, rfl⟩ := h
    exact ⟨rfl, by simp⟩
  | ringInit h =>
    obtain ⟨-, ws, o, -, rfl⟩ := h
    exact ⟨rfl, rfl⟩
  | primitive h =>
    obtain ⟨u, o, hu, rfl⟩ := h
    exact ⟨(hu.frame s.cur).cfg, (hu.frame s.cur).nctx⟩

/-- A step of an operation other than `CREATE` and `DESTROY` changes words of the block and its own context,
and `CLOSED` only where it is `CLOSE` or a primitive driven at it. -/
theorem blockExec_frame {i : Instr} {s t : Block W} (h : blockExec i s = .next t) (hcreate : ∀ a, i ≠ .create a)
    (hdestroy : ∀ a, i ≠ .destroy a) :
    ∃ ls, (.closed ∈ ls → (∃ a, i = .close a) ∨ .closed ∈ storesTo i) ∧ Frame s t s.cur ls := by
  cases blockExec_next h with
  | context h =>
    obtain ⟨ls, hclosed, hf⟩ := h.frame
    exact ⟨ls, fun hmem => .inl (hclosed hmem), hf⟩
  | created a hi _ => exact absurd hi (hcreate a)
  | destroyed a hi _ => exact absurd hi (hdestroy a)
  | ringInit h =>
    obtain ⟨-, ws, o, hws, rfl⟩ := h
    have hf : Frame s (s.storeAll ws) s.cur (ws.map Prod.fst) :=
      Block.storeAll_frame s.cur hws fun l v hl => List.mem_map.2 ⟨(l, v), hl, rfl⟩
    refine ⟨_, fun hmem => ?_, hf.trans (Frame.emit _ _ o _)⟩
    obtain ⟨⟨l, v⟩, hl, rfl⟩ := List.mem_map.1 hmem
    exact absurd rfl (hws _ v hl).2
  | primitive h =>
    obtain ⟨u, o, hu, rfl⟩ := h
    exact ⟨storesTo i, .inr, (hu.frame s.cur).trans (Frame.emit u s.cur o _)⟩

/-- No step changes the parameters or the number of contexts. -/
theorem blockStep_params {s t : Block W} (h : blockStep s = .next t) :
    t.cfg = s.cfg ∧ t.ctxs.length = s.ctxs.length := by
  rcases blockStep_exec h with ⟨rest, rfl⟩ | ⟨rest, rfl⟩ | ⟨i, rest, c, ok, h⟩
  · exact ⟨rfl, rfl⟩
  · exact ⟨rfl, by simp⟩
  · obtain ⟨hcfg, hnctx⟩ := blockExec_params h
    exact ⟨hcfg, hnctx⟩

/-- `ORDER` stays while a queue is live before and after: `X0` runs with none live, `Y0` leaves none. -/
theorem blockExec_order {i : Instr} {s t : Block W} (hs : s.Inv) (h : blockExec i s = .next t)
    (hlive : s.live = true) (hlive' : t.live = true) : t.order = s.order := by
  cases blockExec_next h with
  | context h =>
    obtain ⟨ls, -, hf⟩ := h.frame
    exact hf.order
  | created _ _ h =>
    obtain ⟨a, x, hrun, -⟩ := h
    exact absurd rfl ((hs.ctx_ok _ _ _ hrun.1).live.1 hlive)
  | destroyed _ _ h =>
    obtain ⟨a, x, -, rfl⟩ := h
    cases hlive'
  | ringInit h =>
    obtain ⟨-, ws, o, -, rfl⟩ := h
    rfl
  | primitive h =>
    obtain ⟨u, o, hu, rfl⟩ := h
    exact (hu.frame s.cur).order

theorem blockStep_order {s t : Block W} (hs : s.Inv) (h : blockStep s = .next t) (hlive : s.live = true)
    (hlive' : t.live = true) : t.order = s.order := by
  rcases blockStep_exec h with ⟨rest, rfl⟩ | ⟨rest, rfl⟩ | ⟨i, rest, c, ok, h⟩
  · rfl
  · cases hlive'
  · have horder := blockExec_order (hs.withEnv rest c ok) h hlive hlive'
    exact horder

/-! ### The queue `X0` builds -/

/-- What the queue built reads at a location stored by `X0`. -/
theorem Block.create_memRead {s : Block W} {order : Nat} (horder : order + 4 ≤ W) {l : Loc} {v : Word W}
    (h : (l, v) ∈ createWords s.cfg.rot order) : (s.create order).memRead l = v := by
  have hc := (storesWords_createWords s.cfg.rot order l v h).2
  have hread : ((s.allocate order).storeAll (createWords s.cfg.rot order)).memRead l = v :=
    Block.storeAll_memRead (storesWords_createWords s.cfg.rot order) (oneWordEach_createWords horder) h
  rw [Block.create_eq, ← hread, Block.memRead_of_ne_closed _ hc, Block.memRead_of_ne_closed _ hc]
  rfl

/-- `X0` stores no value. -/
theorem Block.create_read_val (s : Block W) {order i : Nat} (hi : i < capOf order) :
    Mem.read (s.create order).mem ((s.create order).addr (.val i)) = none := by
  rw [Block.create_eq]
  refine Block.storeAll_read_of_notMem (s := s.allocate order) fun l v hl heq => ?_
  have hval : l = .val i := offset_inj (storesWords_createWords s.cfg.rot order l v hl).1
    (show Loc.inRange order (.val i) = true by simpa [Loc.inRange, capOf] using hi) heq.symm
  subst hval
  rcases List.mem_append.1 hl with hl | hl
  · cases ringOf_of_mem_fillWords hl
  · cases ringOf_of_mem_emptyWords hl

/-- The queue `CREATE` leaves, with its context idle and its response given. -/
def createdQueue (s : Block W) (order : Nat) : Block W :=
  (s.create order).finish.emit (.response s.cur ⟨.ok, none⟩)

theorem blockCreate_of_allocOk {v : Nat} {x : Regs W} {s : Block W} (hrun : s.running (.create v) .x0 x)
    (halloc : s.allocOk = true) : blockCreate v s = .next (createdQueue s x.arg.toNat) := by
  simp only [blockCreate, onContext_of_running hrun, phaseX0, halloc, if_true, respond, Block.create_cur,
    createdQueue]

@[simp] theorem createdQueue_live (s : Block W) (order : Nat) : (createdQueue s order).live = true := by
  simp [createdQueue]

@[simp] theorem createdQueue_order (s : Block W) (order : Nat) : (createdQueue s order).order = order := by
  simp [createdQueue]

@[simp] theorem createdQueue_closed (s : Block W) (order : Nat) : (createdQueue s order).closed = 0 := by
  simp [createdQueue]

@[simp] theorem createdQueue_cfg (s : Block W) (order : Nat) : (createdQueue s order).cfg = s.cfg := by
  simp [createdQueue]

@[simp] theorem createdQueue_env (s : Block W) (order : Nat) : (createdQueue s order).env = s.env := by
  simp [createdQueue]

@[simp] theorem createdQueue_out (s : Block W) (order : Nat) :
    (createdQueue s order).out = .response s.cur ⟨.ok, none⟩ :: s.out := by
  simp [createdQueue]

@[simp] theorem createdQueue_k (s : Block W) (order : Nat) : (createdQueue s order).k = kOf order := by
  simp [Block.k]

theorem createdQueue_wf (s : Block W) (order : Nat) : Mem.wf (createdQueue s order).mem = true := by
  rw [createdQueue, Block.emit_mem, Block.finish_mem, (s.create_placed order).canonical]

theorem createdQueue_read_val (s : Block W) {order i : Nat} (hi : i < capOf order) :
    Mem.read (createdQueue s order).mem ((createdQueue s order).addr (.val i)) = none := by
  rw [createdQueue, Block.emit_mem, Block.finish_mem, Block.emit_addr, Block.finish_addr, s.create_read_val hi]

theorem createdQueue_memRead {s : Block W} {order : Nat} (horder : order + 4 ≤ W) {l : Loc} {v : Word W}
    (h : (l, v) ∈ createWords s.cfg.rot order) : (createdQueue s order).memRead l = v := by
  rw [createdQueue, Block.emit_memRead, Block.finish_memRead, Block.create_memRead horder h]

theorem createdQueue_ctx {s : Block W} (order : Nat) {y : Ctx W} (h : s.ctx s.cur = some y) :
    (createdQueue s order).ctx s.cur = some .idle ∧
      ∀ d, d ≠ s.cur → (createdQueue s order).ctx d = s.ctx d := by
  have hctx : ∀ d, (createdQueue s order).ctx d = (s.setCtx s.cur .idle).ctx d := fun d => by
    simp [createdQueue, Block.ctx]
  exact ⟨(hctx _).trans (Block.setCtx_ctx_self s .idle h), fun d hd =>
    (hctx d).trans (Block.setCtx_ctx_other s .idle hd)⟩

/-- `AQ` is empty after `X0` (10_state.md R40). -/
theorem createdQueue_aq {s : Block W} {order : Nat} (horder : order + 4 ≤ W) :
    (createdQueue s order).memRead (.head .aq) = 0 ∧ (createdQueue s order).memRead (.tail .aq) = 0 ∧
      (createdQueue s order).memRead (.threshold .aq) = all1 ∧
      ∀ p, p < nOf order → (createdQueue s order).memRead (.slot .aq p) = all1 := by
  have hread : ∀ {l : Loc} {v : Word W}, (l, v) ∈ emptyWords order .aq → (createdQueue s order).memRead l = v :=
    fun h => createdQueue_memRead horder (List.mem_append_right _ h)
  refine ⟨hread ?_, hread ?_, hread ?_, fun p hp => hread (mem_emptyWords.2 (.inl ⟨p, hp, rfl, rfl⟩))⟩ <;>
    simp [mem_emptyWords, mem_controlWords]

/-- `FQ` holds every index after `X0` (10_state.md R40). -/
theorem createdQueue_fq {s : Block W} {order : Nat} (horder : order + 4 ≤ W) :
    (createdQueue s order).memRead (.head .fq) = 0 ∧
      (createdQueue s order).memRead (.tail .fq) = BitVec.ofNat W (capOf order) ∧
      (createdQueue s order).memRead (.threshold .fq) = BitVec.ofNat W (3 * capOf order - 1) ∧
      ∀ i, i < nOf order →
        (createdQueue s order).memRead (.slot .fq (mapPos s.cfg.rot (kOf order) (BitVec.ofNat W i)).toNat) =
          if i < capOf order then BitVec.ofNat W (nOf order + i) else all1 := by
  have hread : ∀ {l : Loc} {v : Word W}, (l, v) ∈ fillWords s.cfg.rot order .fq 0 (capOf order) →
      (createdQueue s order).memRead l = v :=
    fun h => createdQueue_memRead horder (List.mem_append_left _ h)
  refine ⟨hread ?_, hread ?_, hread ?_, fun i hi => hread (mem_fillWords.2 (.inl ⟨i, hi, rfl, ?_⟩))⟩
  case refine_4 => simp [fillEntry, fillWord, nOf, kOf]
  all_goals simp [mem_fillWords, mem_controlWords, thresh, capOf]

end Invariant

/-! ### The statements -/

/-- Settles O9: each way a step can have gone keeps the invariant. -/
theorem stepKeepsInvariant : Obligations.StepKeepsInvariant := by
  rintro ⟨W, s⟩ t hs h
  obtain ⟨u, hu, rfl⟩ := step_next_state.1 h
  exact blockStep_keeps_inv hs hu

/-- Settles O13, from the ways a step can have gone. -/
theorem orderAndParametersFixed : Obligations.OrderAndParametersFixed := by
  refine ⟨fun W s t hs h => blockStep_order hs (step_next_block.1 h), ?_⟩
  rintro ⟨W, s⟩ t h
  obtain ⟨u, hu, rfl⟩ := step_next_state.1 h
  obtain ⟨hcfg, hnctx⟩ := blockStep_params hu
  exact ⟨rfl, hnctx, hcfg⟩

/-- Settles O14, from the frame of every operation outside the lifecycle. -/
theorem onlyLifecycleChangesLifecycle : Obligations.OnlyLifecycleChangesLifecycle := by
  intro W i s t h
  have hframe := blockExec_frame (exec_next.1 h)
  refine ⟨fun hcreate hdestroy => ?_, fun hcreate hdestroy hclose hst hfaa hfsub hfor hcas => ?_⟩
  · obtain ⟨ls, -, hf⟩ := hframe hcreate hdestroy
    exact ⟨hf.live, hf.order, hf.life⟩
  · obtain ⟨ls, hclosed, hf⟩ := hframe hcreate hdestroy
    refine hf.closed fun hmem => ?_
    rcases hclosed hmem with ⟨a, hi⟩ | hstore
    · exact hclose a hi
    · rcases closed_mem_storesTo hstore with ⟨v, hi⟩ | ⟨d, hi⟩ | ⟨d, hi⟩ | ⟨m, hi⟩ | ⟨e, v, hi⟩
      exacts [hst v hi, hfaa d hi, hfsub d hi, hfor m hi, hcas e v hi]

/-- Settles O48: the queue reads what `X0` stores, each word at a location of its own. -/
theorem createBuildsTheQueue : Obligations.CreateBuildsTheQueue := by
  intro W v x s hrun halloc hwf harg
  have horder : x.arg.toNat + 4 ≤ W := by
    have hmax := of_decide_eq_true (Bool.and_eq_true_iff.1 hwf).1
    omega
  obtain ⟨hheadA, htailA, hthreshA, hslotA⟩ := createdQueue_aq (s := s) horder
  obtain ⟨hheadF, htailF, hthreshF, hslotF⟩ := createdQueue_fq (s := s) horder
  obtain ⟨hidle, hothers⟩ := createdQueue_ctx x.arg.toNat hrun.1
  refine ⟨createdQueue s x.arg.toNat, exec_next.2 (blockCreate_of_allocOk hrun halloc), ?_⟩
  simp only [createdQueue_live, createdQueue_order, createdQueue_closed, createdQueue_cfg, createdQueue_k,
    createdQueue_env, createdQueue_out]
  refine ⟨trivial, trivial, trivial, hheadA, htailA, hthreshA, hslotA, hheadF, htailF, hthreshF, hslotF,
    fun i hi => createdQueue_read_val s hi, hidle, hothers, fun hall d y hy => ?_, trivial, trivial, trivial,
    createdQueue_wf s _⟩
  by_cases hd : d = s.cur
  · subst hd
    exact (Option.some.inj (hidle.symm.trans hy)).symm
  · exact hall d y hd (hothers d hd ▸ hy)

/-- Settles O7: a reset event is taken whatever else is going on, and leaves no context busy. -/
theorem resetLeavesNoQueue : Obligations.ResetLeavesNoQueue := by
  refine ⟨⟨rfl, rfl, fun c x hc => List.eq_of_mem_replicate (List.mem_of_getElem? hc)⟩, fun W s rest henv => ?_⟩
  have hstep : blockStep s = .next (Block.hwReset { s with env := rest }) := by
    simp only [blockStep, fetch, henv]
  exact ⟨_, step_next_block.2 hstep, rfl, rfl, rfl, rfl, by simp, rfl, hwReset_ctx_idle _⟩

/-- Settles O8: no context is busy and nothing is held. -/
theorem invariantAtReset : Obligations.InvariantAtReset :=
  Block.Inv.of_idle (.of_dead (by decide) rfl rfl rfl rfl) fun _ _ hc =>
    List.eq_of_mem_replicate (List.mem_of_getElem? hc)

end Sys2Proof.Machine

/-! PROOFS. The layout of the block, the step and the primitives driven directly: the statements of 20_memory.md. -/

namespace Sys2Proof.Machine

section Memory

variable {W : Nat}

/-! ### The layout (20_memory.md R62) -/

/-- The size of the block, in the words R62 writes it in. -/
theorem blockWords_eq (rot order : Nat) :
    blockWords rot order = 6 * 2 ^ rot + 2 * 2 ^ (order + 1) + 2 ^ order := by
  simp only [blockWords, ringWords, clw, nOf, capOf]
  omega

/-- Every word of the block a location names is inside the block. -/
theorem offset_lt_blockWords {rot order : Nat} {l : Loc} (hl : l.inRange order = true) (hc : l ≠ .closed) :
    offset rot order l < blockWords rot order := by
  rw [blockWords]
  rcases offset_area rot hl with ⟨-, h⟩ | ⟨-, -, h⟩ | ⟨i, hi, -, h⟩ | ⟨h, -⟩
  · omega
  · omega
  · omega
  · exact absurd h hc

/-! ### What the next event comes to (20_memory.md R64) -/

/-- A packet presented to an idle context makes it run what the packet decodes to. -/
theorem fetch_presented_idle {s : Block W} {rest : List (Event W)} {c : Nat} {p : Packet W} {i : Instr}
    (henv : s.env = .present c p :: rest) (hidle : s.ctx c = some .idle) (hdec : decode p = .ok i) :
    fetch s = .run i { s with env := rest, cur := c } := by
  have hctx : Block.ctx { s with env := rest } c = some .idle := hidle
  simp only [fetch, henv, fetchPresented, hctx, hdec]

/-- A step granted to a busy context makes it go on with what it is running. -/
theorem fetch_granted_busy {s : Block W} {rest : List (Event W)} {c : Nat} {ok : Bool} {ph : Phase} {x : Regs W}
    {i : Instr} (henv : s.env = .run c ok :: rest) (hbusy : s.ctx c = some (.busy ph x))
    (hinstr : Ctx.instr (.busy ph x) = some i) :
    fetch s = .run i { s with env := rest, cur := c, allocOk := ok } := by
  have hctx : Block.ctx { s with env := rest } c = some (.busy ph x) := hbusy
  simp only [fetch, henv, fetchGranted, hctx, hinstr]

/-- A step granted to an idle context takes the event and nothing else. -/
theorem fetch_granted_idle {s : Block W} {rest : List (Event W)} {c : Nat} {ok : Bool}
    (henv : s.env = .run c ok :: rest) (hidle : s.ctx c = some .idle) :
    fetch s = .settled (.next { s with env := rest }) := by
  have hctx : Block.ctx { s with env := rest } c = some .idle := hidle
  simp only [fetch, henv, fetchGranted, hctx]

theorem fetch_of_no_event {s : Block W} (henv : s.env = []) : fetch s = .settled (.next s) := by
  simp only [fetch, henv]

/-- The step executes the operation the next event comes to. -/
theorem step_of_fetch_run {s t : Block W} {i : Instr} (h : fetch s = .run i t) : step ⟨W, s⟩ = exec i ⟨W, t⟩ := by
  simp only [step, h]

/-- The step of a settled event is its outcome. -/
theorem step_of_fetch_settled {s : Block W} {r : Res W} (h : fetch s = .settled r) : step ⟨W, s⟩ = ofBlock r := by
  simp only [step_eq, blockStep, h]

/-! ### What a primitive driven directly leaves (30_encoding.md R88) -/

/-- A primitive that answers and stores nothing has changed nothing but the list of outputs. -/
theorem exec_next_of_answered {i : Instr} {s : Block W} {res : PrimResult W}
    (h : blockExec i s = .next (s.emit (.primResult s.cur res))) :
    ∃ t, exec i ⟨W, s⟩ = .next ⟨W, t⟩ ∧ t.out = .primResult s.cur res :: s.out ∧
      t.ctx s.cur = s.ctx s.cur ∧ Frame s t s.cur [] :=
  ⟨_, exec_next.2 h, rfl, rfl, Frame.emit s s.cur _ []⟩

/-- A primitive that stores `v` at `l` and answers has changed that location and the list of outputs only. -/
theorem exec_next_of_stored {i : Instr} {s : Block W} {l : Loc} {v : Word W} {res : PrimResult W}
    (h : blockExec i s = .next ((s.memWrite l v).emit (.primResult s.cur res))) :
    ∃ t, exec i ⟨W, s⟩ = .next ⟨W, t⟩ ∧ t.memRead l = v ∧ t.out = .primResult s.cur res :: s.out ∧
      t.ctx s.cur = s.ctx s.cur ∧ Frame s t s.cur [l] := by
  refine ⟨_, exec_next.2 h, by simp, by simp, by simp, ?_⟩
  exact (Frame.memWrite s s.cur l v (List.mem_singleton_self l)).trans (Frame.emit _ s.cur _ [l])

/-! ### The primitives driven at a location that exists (20_memory.md R56 to R61) -/

theorem blockLd_of_hasLoc {s : Block W} {l : Loc} (h : s.hasLoc l = true) :
    blockLd l s = .next (s.emit (.primResult s.cur (.word (s.memRead l)))) := by
  rw [blockLd, ldOp_of_hasLoc h, finishPrim]

theorem blockSt_of_hasLoc {s : Block W} {l : Loc} (h : s.hasLoc l = true) (v : Word W) :
    blockSt l v.toNat s = .next ((s.memWrite l v).emit (.primResult s.cur .stored)) := by
  rw [blockSt, stOp_of_hasLoc h, finishPrim, Block.memWrite_cur, BitVec.ofNat_toNat, BitVec.setWidth_eq]

theorem blockFaa_of_hasLoc {s : Block W} {l : Loc} (h : s.hasLoc l = true) (d : Word W) :
    blockFaa l d.toNat s =
      .next ((s.memWrite l (s.memRead l + d)).emit (.primResult s.cur (.word (s.memRead l)))) := by
  rw [blockFaa, faaOp_of_hasLoc h, finishPrim, Block.memWrite_cur, BitVec.ofNat_toNat, BitVec.setWidth_eq]

theorem blockFsub_of_hasLoc {s : Block W} {l : Loc} (h : s.hasLoc l = true) (d : Word W) :
    blockFsub l d.toNat s =
      .next ((s.memWrite l (s.memRead l - d)).emit (.primResult s.cur (.word (s.memRead l)))) := by
  rw [blockFsub, fsubOp_of_hasLoc h, finishPrim, Block.memWrite_cur, BitVec.ofNat_toNat, BitVec.setWidth_eq]

theorem blockFor_of_hasLoc {s : Block W} {l : Loc} (h : s.hasLoc l = true) (m : Word W) :
    blockFor l m.toNat s =
      .next ((s.memWrite l (s.memRead l ||| m)).emit (.primResult s.cur (.word (s.memRead l)))) := by
  rw [blockFor, forOp_of_hasLoc h, finishPrim, Block.memWrite_cur, BitVec.ofNat_toNat, BitVec.setWidth_eq]

theorem blockCas_of_eq {s : Block W} {l : Loc} (h : s.hasLoc l = true) {e : Word W} (he : s.memRead l = e)
    (v : Word W) :
    blockCas l e.toNat v.toNat s = .next ((s.memWrite l v).emit (.primResult s.cur (.swapped true e))) := by
  rw [blockCas, casOp_of_eq h (by simpa using he), finishPrim, Block.memWrite_cur, he, BitVec.ofNat_toNat,
    BitVec.setWidth_eq]

theorem blockCas_of_ne {s : Block W} {l : Loc} (h : s.hasLoc l = true) {e : Word W} (he : s.memRead l ≠ e)
    (v : Nat) :
    blockCas l e.toNat v s = .next (s.emit (.primResult s.cur (.swapped false (s.memRead l)))) := by
  rw [blockCas, casOp_of_ne h (by simpa using he), finishPrim]

/-! ### Accesses to a location that does not exist (log entry 7) -/

theorem ldOp_of_absent {s : Block W} {l : Loc} (h : s.hasLoc l = false) (k : Word W → Res W) :
    ldOp l s k = .fault .noSuchLocation := by simp [ldOp, h]

theorem stOp_of_absent {s : Block W} {l : Loc} (h : s.hasLoc l = false) (v : Word W) (k : Block W → Res W) :
    stOp l v s k = .fault .noSuchLocation := by simp [stOp, h]

/-- The three fetch-and-modify primitives fault alike: none gets to its function of the old word. -/
theorem fetchOp_of_absent {s : Block W} {l : Loc} (h : s.hasLoc l = false) (f : Word W → Word W)
    (k : Word W → Block W → Res W) : fetchOp f l s k = .fault .noSuchLocation := by simp [fetchOp, h]

theorem casOp_of_absent {s : Block W} {l : Loc} (h : s.hasLoc l = false) (e v : Word W)
    (k : Bool → Word W → Block W → Res W) : casOp l e v s k = .fault .noSuchLocation := by simp [casOp, h]

/-- The location a primitive driven directly accesses. -/
def accessedLoc : Instr → Option Loc
  | .ld l => some l
  | .st l _ => some l
  | .faa l _ => some l
  | .fsub l _ => some l
  | .fetchOr l _ => some l
  | .cas l _ _ => some l
  | _ => none

/-- Every primitive tests that its location exists before it does anything. -/
theorem blockExec_of_absent {i : Instr} {s : Block W} {l : Loc} (hi : accessedLoc i = some l)
    (h : s.hasLoc l = false) : blockExec i s = .fault .noSuchLocation := by
  cases i <;> cases hi
  case ld => rw [blockExec, blockLd, ldOp_of_absent h]
  case st => rw [blockExec, blockSt, stOp_of_absent h]
  case faa => rw [blockExec, blockFaa, faaOp, fetchOp_of_absent h]
  case fsub => rw [blockExec, blockFsub, fsubOp, fetchOp_of_absent h]
  case fetchOr => rw [blockExec, blockFor, forOp, fetchOp_of_absent h]
  case cas => rw [blockExec, blockCas, casOp_of_absent h]

/-- `exec` faults in the machine exactly as it does in its block. -/
theorem exec_fault {i : Instr} {s : Block W} {e : Fault} :
    exec i ⟨W, s⟩ = .fault e ↔ blockExec i s = .fault e := by
  rw [exec_eq, ofBlock_fault]

/-- No value stands past the value array (20_memory.md R50). -/
theorem Block.hasLoc_val_of_le {s : Block W} {i : Nat} (h : capOf s.order ≤ i) : s.hasLoc (.val i) = false := by
  rw [Block.hasLoc, Bool.and_eq_false_iff]
  exact .inr (decide_eq_false (Nat.not_lt.2 h))

theorem blockEnqueue_of_q1 {s : Block W} {v : Nat} {x : Regs W} (h : s.running (.enqueue v) .q1 x) :
    blockEnqueue v s = phaseQ1 x s := by rw [blockEnqueue, onContext_of_running h]

theorem blockDequeue_of_p1 {s : Block W} {v : Nat} {x : Regs W} (h : s.running (.dequeue v) .p1 x) :
    blockDequeue v s = phaseP1 x s := by rw [blockDequeue, onContext_of_running h]

end Memory

/-! ### The statements -/

/-- Settles O23: the areas of R62 stand one after the other, and inside each a location has a word of its own. -/
theorem locationsDoNotOverlap : Obligations.LocationsDoNotOverlap := fun rot order _ _ hl hm =>
  ⟨offset_inj hl hm, fun hc => blockWords_eq rot order ▸ offset_lt_blockWords hl hc⟩

/-- Settles O5, from what each event comes to. -/
theorem stepRunsTheOperation : Obligations.StepRunsTheOperation := by
  intro W s rest
  refine ⟨fun c p i henv hidle hdec => ?_, fun c ok ph x i henv hbusy hinstr => ?_, fun henv => ?_,
    fun c ok henv hidle => ?_⟩
  · exact step_of_fetch_run (fetch_presented_idle henv hidle hdec)
  · exact step_of_fetch_run (fetch_granted_busy henv hbusy hinstr)
  · exact step_of_fetch_settled (fetch_of_no_event henv)
  · exact step_of_fetch_settled (fetch_granted_idle henv hidle)

/-- Settles O24: the load answers and stores nothing, the store changes its own location only. -/
theorem loadAndStore : Obligations.LoadAndStore := fun _ _ v _ hl =>
  ⟨exec_next_of_answered (blockLd_of_hasLoc hl), exec_next_of_stored (blockSt_of_hasLoc hl v)⟩

/-- Settles O25: each leaves its function of the old word, which the word operations of `BitVec` then read out. -/
theorem fetchAndModify : Obligations.FetchAndModify := by
  intro W l d s hl
  refine ⟨?faa, ?fsub, ?fetchOr⟩
  case faa =>
    obtain ⟨t, hexec, hword, hrest⟩ := exec_next_of_stored (i := .faa l d.toNat) (blockFaa_of_hasLoc hl d)
    exact ⟨t, hexec, by rw [hword, BitVec.toNat_add], hrest⟩
  case fsub =>
    obtain ⟨t, hexec, hword, hrest⟩ := exec_next_of_stored (i := .fsub l d.toNat) (blockFsub_of_hasLoc hl d)
    exact ⟨t, hexec, by rw [hword, BitVec.toNat_sub, Nat.add_comm], hrest⟩
  case fetchOr =>
    obtain ⟨t, hexec, hword, hrest⟩ := exec_next_of_stored (i := .fetchOr l d.toNat) (blockFor_of_hasLoc hl d)
    exact ⟨t, hexec, fun j => by rw [hword, BitVec.getLsbD_or], hrest⟩

/-- Settles O26, from the two branches of R61. -/
theorem compareAndSwap : Obligations.CompareAndSwap := fun _ _ _ v _ hl =>
  ⟨fun he => exec_next_of_stored (blockCas_of_eq hl he v),
    fun he => exec_next_of_answered (blockCas_of_ne hl he v.toNat)⟩

/-- Settles O27: a primitive's location, and the value word `Q1` stores and `P1` loads, do not exist. -/
theorem absentLocationFaults : Obligations.AbsentLocationFaults := by
  intro W s
  refine ⟨fun l d e hl => ?_, fun v x hidx => ⟨fun hrun => ?_, fun hrun => ?_⟩⟩
  · have hfault : ∀ i, accessedLoc i = some l → exec i ⟨W, s⟩ = .fault .noSuchLocation := fun i hi =>
      exec_fault.2 (blockExec_of_absent hi hl)
    exact ⟨hfault _ rfl, hfault _ rfl, hfault _ rfl, hfault _ rfl, hfault _ rfl, hfault _ rfl⟩
  · exact exec_fault.2 ((blockEnqueue_of_q1 hrun).trans (stOp_of_absent (Block.hasLoc_val_of_le hidx) _ _))
  · exact exec_fault.2 ((blockDequeue_of_p1 hrun).trans (ldOp_of_absent (Block.hasLoc_val_of_le hidx) _))

end Sys2Proof.Machine

/-! PROOFS. The words on the interfaces, the acceptance of a command and the response it ends with: the statements of
30_encoding.md. -/

namespace Sys2Proof

section Encoding

variable {W : Nat}

/-! ### Fields of a command word (30_encoding.md R81) -/

theorem qArg_qWord (op : BitVec 3) (arg : Word W) : qArg (qWord op arg) = arg :=
  BitVec.extractLsb'_append_eq_right

/-- The two fields are the whole word. -/
theorem qWord_qOp_qArg (w : BitVec (3 + W)) : qWord (qOp w) (qArg w) = w := by
  rw [qWord, qOp, qArg, BitVec.extractLsb'_append_extractLsb'_eq_extractLsb' (Nat.zero_add W).symm,
    BitVec.extractLsb'_eq_self]

theorem decode_qWord (op : BitVec 3) (arg : Word W) : decode (.q (qWord op arg)) = decodeOp op arg := by
  rw [decode, Laws.OpcodeBits.qOp_qWord, qArg_qWord]

/-! ### Fields of the select bits (R87) -/

theorem selRing_selectBits (r : Ring) (rop : BitVec 3) (hint : Bool) : selRing (selectBits r rop hint) = r := by
  unfold selRing selectBits
  rw [BitVec.getLsbD_append, if_neg (show ¬ 4 < 1 by decide), BitVec.getLsbD_append,
    if_neg (show ¬ 4 - 1 < 3 by decide)]
  cases r <;> rfl

theorem selRop_selectBits (r : Ring) (rop : BitVec 3) (hint : Bool) : selRop (selectBits r rop hint) = rop := by
  unfold selRop selectBits
  rw [BitVec.extractLsb'_append_eq_of_le (by decide)]
  exact BitVec.extractLsb'_append_eq_right

theorem selHint_selectBits (r : Ring) (rop : BitVec 3) (hint : Bool) : selHint (selectBits r rop hint) = hint := by
  unfold selHint selectBits
  rw [BitVec.getLsbD_append, if_pos (by decide)]
  cases hint <;> rfl

/-! ### Decoding an encoded operation -/

/-- An operand word that fits is read back whole. -/
theorem toNat_ofNat_of_fits {a : Nat} (h : decide (a < 2 ^ W) = true) : (BitVec.ofNat W a).toNat = a := by
  rw [BitVec.toNat_ofNat, Nat.mod_eq_of_lt (of_decide_eq_true h)]

/-- The code the encoder writes selects the operation, and each operand stands where the decoder reads it. -/
theorem decode_encode {i : Instr} (h : i.fits W = true) : decode (encode W i) = .ok i := by
  cases i with
  | create a | enqueue a | dequeue a | close a | destroy a | dump a =>
    simp only [encode, decode_qWord, decodeOp, toNat_ofNat_of_fits h]
    rfl
  | ringInitEmpty r | ringTryDeq r hint =>
    simp only [encode, decode, decodeSelect, selRop_selectBits, selRing_selectBits, selHint_selectBits]
    rfl
  | ringTryEnq r hint a =>
    simp only [encode, decode, decodeSelect, selRop_selectBits, selRing_selectBits, selHint_selectBits,
      toNat_ofNat_of_fits h]
    rfl
  | ringInitFill r a b | ringCatchup r a b =>
    obtain ⟨ha, hb⟩ := Bool.and_eq_true_iff.1 h
    simp only [encode, decode, decodeSelect, selRop_selectBits, selRing_selectBits, toNat_ofNat_of_fits ha,
      toNat_ofNat_of_fits hb]
    rfl
  | ld l => rfl
  | st l a | faa l a | fsub l a | fetchOr l a =>
    simp only [encode, decode, decodeMop, toNat_ofNat_of_fits h]
    rfl
  | cas l a b =>
    obtain ⟨ha, hb⟩ := Bool.and_eq_true_iff.1 h
    simp only [encode, decode, decodeMop, toNat_ofNat_of_fits ha, toNat_ofNat_of_fits hb]
    rfl

/-! ### What a packet is read as -/

theorem decodeOp_fits {op : BitVec 3} {arg : Word W} {i : Instr} (h : decodeOp op arg = .ok i) :
    i.fits W = true := by
  unfold decodeOp at h
  split at h <;> cases h <;> exact decide_eq_true arg.isLt

theorem decodeSelect_fits {sel : BitVec 5} {a b : Word W} {i : Instr} (h : decodeSelect sel a b = .ok i) :
    i.fits W = true := by
  unfold decodeSelect at h
  split at h <;> cases h <;> simp [Instr.fits, a.isLt, b.isLt]

theorem decodeMop_fits {mop : BitVec 3} {l : Loc} {a b : Word W} {i : Instr} (h : decodeMop mop l a b = .ok i) :
    i.fits W = true := by
  unfold decodeMop at h
  split at h <;> cases h <;> simp [Instr.fits, a.isLt, b.isLt]

/-- The operands read from a packet are words of it. -/
theorem decode_fits {p : Packet W} {i : Instr} (h : decode p = .ok i) : i.fits W = true := by
  cases p with
  | q w => exact decodeOp_fits h
  | r sel a b => exact decodeSelect_fits h
  | m mop l a b => exact decodeMop_fits h

/-- The codes R82 defines are those below 110. -/
theorem decodeOp_of_lt {op : BitVec 3} (h : op.toNat < 6) (arg : Word W) : ∃ i, decodeOp op arg = .ok i := by
  unfold decodeOp
  interval_cases op.toNat <;> exact ⟨_, rfl⟩

/-- R89 reserves the other two. -/
theorem decodeOp_of_reserved {op : BitVec 3} (h : 6 ≤ op.toNat) (arg : Word W) :
    decodeOp op arg = .error (.reservedOp op) := by
  have hlt := op.isLt
  unfold decodeOp
  interval_cases op.toNat <;> rfl

/-- A command encodes back to the code and the argument it was read from. -/
theorem encode_of_decodeOp {op : BitVec 3} {arg : Word W} {i : Instr} (h : decodeOp op arg = .ok i) :
    encode W i = .q (qWord op arg) := by
  have hcode : ∀ n, op.toNat = n → op = BitVec.ofNat 3 n := by
    rintro n rfl
    rw [BitVec.ofNat_toNat, BitVec.setWidth_eq]
  unfold decodeOp at h
  split at h
  case h_7 => cases h
  all_goals
    next hop =>
    cases h
    rw [hcode _ hop, encode, BitVec.ofNat_toNat, BitVec.setWidth_eq]
    rfl

end Encoding

end Sys2Proof

namespace Sys2Proof.Machine

section Commands

variable {W : Nat}

/-! ### The words on the response interface (30_encoding.md R85, R86) -/

theorem Response.word_status (r : Response W) (u : Word W) : (r.word u).extractLsb' W 3 = r.status.code :=
  BitVec.extractLsb'_append_eq_left

theorem Response.word_data (r : Response W) (u : Word W) : (r.word u).extractLsb' 0 W = r.data.getD u :=
  BitVec.extractLsb'_append_eq_right

theorem Status.ofCode_eq_some {c : BitVec 3} {st : Status} : Status.ofCode c = some st ↔ st.code = c := by
  refine ⟨fun h => ?_, ?_⟩
  · unfold Status.ofCode at h
    split at h <;> cases h
    all_goals
      next hc => exact BitVec.eq_of_toNat_eq hc.symm
  · rintro rfl
    cases st <;> rfl

theorem Status.ofCode_eq_none {c : BitVec 3} : Status.ofCode c = none ↔ 5 ≤ c.toNat := by
  have hlt := c.isLt
  unfold Status.ofCode
  interval_cases c.toNat <;> simp

/-! ### Presentations that are refused (R89, 10_state.md R25) -/

/-- A packet with a reserved code, presented to an idle context, is refused under that code. -/
theorem fetch_presented_reserved {s : Block W} {rest : List (Event W)} {c : Nat} {p : Packet W} {e : DecodeError}
    (henv : s.env = .present c p :: rest) (hidle : s.ctx c = some .idle) (hdec : decode p = .error e) :
    fetch s = .settled (.refused (refusalOf e)) := by
  have hctx : Block.ctx { s with env := rest } c = some .idle := hidle
  simp only [fetch, henv, fetchPresented, hctx, hdec]

theorem fetch_presented_busy {s : Block W} {rest : List (Event W)} {c : Nat} {p : Packet W} {ph : Phase}
    {x : Regs W} (henv : s.env = .present c p :: rest) (hbusy : s.ctx c = some (.busy ph x)) :
    fetch s = .settled (.refused .contextBusy) := by
  have hctx : Block.ctx { s with env := rest } c = some (.busy ph x) := hbusy
  simp only [fetch, henv, fetchPresented, hctx]

/-! ### Acceptance where the preconditions hold (30_encoding.md R83, 60_exceptions.md R171) -/

theorem needLive_of_live {s : Block W} (h : s.live = true) (r : Res W) : needLive s r = r := if_pos h

theorem needNoLifecycle_of_none {s : Block W} (h : ∀ c ph x, s.ctx c = some (.busy ph x) → ph ≠ .x0 ∧ ph ≠ .y0)
    (r : Res W) : needNoLifecycle s r = r := by
  refine if_neg fun hany => ?_
  obtain ⟨y, hy, hl⟩ := List.any_eq_true.1 hany
  obtain ⟨c, hc⟩ := List.mem_iff_getElem?.1 hy
  cases y with
  | idle => cases hl
  | busy ph x =>
    obtain ⟨hx0, hy0⟩ := h c ph x hc
    cases ph with
    | x0 => exact hx0 rfl
    | y0 => exact hy0 rfl
    | _ => cases hl

theorem needQuiescent_of_idle {s : Block W} (h : ∀ c x, s.ctx c = some x → x = .idle) (r : Res W) :
    needQuiescent s r = r := by
  refine if_neg fun hany => ?_
  obtain ⟨y, hy, hl⟩ := List.any_eq_true.1 hany
  obtain ⟨c, hc⟩ := List.mem_iff_getElem?.1 hy
  cases h c y hc
  cases hl

/-- An acceptance sets the phase and the registers of its context, and changes nothing else. -/
theorem exec_next_of_accepted (i : Instr) {s : Block W} {ph : Phase} {x : Regs W}
    (hidle : s.ctx s.cur = some .idle) (h : blockExec i s = goto ph x s) (hdrv : x.drv = none)
    (hx : decodeOp x.op x.arg = .ok i) :
    ∃ t, exec i ⟨W, s⟩ = .next ⟨W, t⟩ ∧ t.running i ph x ∧ t.out = s.out ∧ Frame s t s.cur [] :=
  ⟨_, exec_next.2 h, ⟨Block.setCtx_ctx_self s _ hidle, instr_of_decodeOp hdrv hx⟩, rfl, Frame.setCtx s s.cur _ []⟩

section Preconditions

variable {s : Block W} (hidle : s.ctx s.cur = some .idle) (hlive : s.live = true)
  (hquiet : ∀ c ph x, s.ctx c = some (.busy ph x) → ph ≠ .x0 ∧ ph ≠ .y0)
  (hall : ∀ c x, s.ctx c = some x → x = .idle)

include hidle hall in
theorem blockCreate_accepts (v : Word W) (hdead : s.live = false) (horder : v.toNat ≤ s.cfg.orderMax) :
    blockCreate v.toNat s = goto .x0 (acceptedRegs 0 v) s := by
  rw [blockCreate, onContext_of_idle hidle, if_neg (Bool.eq_false_iff.1 hdead), if_neg (Nat.not_lt.2 horder),
    needQuiescent_of_idle hall, BitVec.ofNat_toNat, BitVec.setWidth_eq]

include hidle hlive hquiet in
theorem blockEnqueue_accepts (v : Word W) : blockEnqueue v.toNat s = goto .q0 (acceptedRegs 1 v) s := by
  rw [blockEnqueue, onContext_of_idle hidle, needLive_of_live hlive, needNoLifecycle_of_none hquiet,
    BitVec.ofNat_toNat, BitVec.setWidth_eq]

include hidle hlive hquiet in
/-- `DEQUEUE` starts its claim in the acceptance (42_bounded_queue.md R157). -/
theorem blockDequeue_accepts (v : Word W) :
    blockDequeue v.toNat s = startTryDeq .aq false (acceptedRegs 2 v) s := by
  rw [blockDequeue, onContext_of_idle hidle, needLive_of_live hlive, needNoLifecycle_of_none hquiet,
    BitVec.ofNat_toNat, BitVec.setWidth_eq]

include hidle hlive hquiet in
theorem blockClose_accepts (v : Word W) : blockClose v.toNat s = goto .k0 (acceptedRegs 3 v) s := by
  rw [blockClose, onContext_of_idle hidle, needLive_of_live hlive, needNoLifecycle_of_none hquiet,
    BitVec.ofNat_toNat, BitVec.setWidth_eq]

include hidle hlive hall in
theorem blockDestroy_accepts (v : Word W) : blockDestroy v.toNat s = goto .y0 (acceptedRegs 4 v) s := by
  rw [blockDestroy, onContext_of_idle hidle, needLive_of_live hlive, needQuiescent_of_idle hall,
    BitVec.ofNat_toNat, BitVec.setWidth_eq]

include hidle hlive hquiet in
theorem blockDump_accepts (v : Word W) :
    blockDump v.toNat s = goto .u0 { acceptedRegs 5 v with di := 0 } s := by
  rw [blockDump, onContext_of_idle hidle, needLive_of_live hlive, needNoLifecycle_of_none hquiet,
    BitVec.ofNat_toNat, BitVec.setWidth_eq]

end Preconditions

/-! ### A step of a command: on, or its one response (10_state.md R25, 30_encoding.md R85) -/

/-- The context goes on, and nothing has been produced. -/
def Continues (s t : Block W) : Prop := ∃ ph x, t.ctx s.cur = some (.busy ph x) ∧ t.out = s.out

/-- Exactly one response has been produced, one that the tables of R82 and R86 give the command. -/
def Answers (i : Instr) (s t : Block W) : Prop :=
  ∃ r, mayAnswer i r = true ∧ t.out = .response s.cur r :: s.out

/-- A step of a command leaves its context busy with no output, or `IDLE` with one response. -/
def CommandStep (i : Instr) (s t : Block W) : Prop := Continues s t ∨ t.ctx s.cur = some .idle ∧ Answers i s t

/-- `u` has the contexts and the outputs of `s`: what a phase has changed before it goes on or answers. -/
structure SameContexts (s u : Block W) : Prop where
  ctxs : u.ctxs = s.ctxs
  cur : u.cur = s.cur
  out : u.out = s.out

theorem SameContexts.refl (s : Block W) : SameContexts s s := ⟨rfl, rfl, rfl⟩

theorem SameContexts.memWrite (s : Block W) (l : Loc) (v : Word W) : SameContexts s (s.memWrite l v) :=
  ⟨Block.memWrite_ctxs s l v, Block.memWrite_cur s l v, Block.memWrite_out s l v⟩

theorem Touched.sameContexts {s u : Block W} {ls : List Loc} (h : Touched s ls u) : SameContexts s u := by
  rcases h with rfl | ⟨l, -, -, v, rfl⟩
  · exact .refl u
  · exact .memWrite s l v

/-- The running context, replaced, is what it was replaced by. -/
theorem SameContexts.setCtx_cur {s u : Block W} (h : SameContexts s u) {y : Ctx W} (hy : s.ctx s.cur = some y)
    (x : Ctx W) : (u.setCtx u.cur x).ctx s.cur = some x := by
  have hu : u.ctx u.cur = some y := by rw [Block.ctx, h.ctxs, h.cur]; exact hy
  exact h.cur ▸ Block.setCtx_ctx_self u x hu

theorem goto_commandStep {i : Instr} {s u t : Block W} {y : Ctx W} {ph : Phase} {x : Regs W}
    (hu : SameContexts s u) (hy : s.ctx s.cur = some y) (h : goto ph x u = .next t) : CommandStep i s t := by
  obtain rfl := goto_next h
  exact .inl ⟨ph, x, hu.setCtx_cur hy _, hu.out⟩

theorem respond_commandStep {i : Instr} {s u t : Block W} {y : Ctx W} {st : Status} {d : Option (Word W)}
    (hu : SameContexts s u) (hy : s.ctx s.cur = some y) (hr : mayAnswer i ⟨st, d⟩ = true)
    (h : respond st d u = .next t) : CommandStep i s t := by
  obtain rfl := respond_next h
  refine .inr ⟨hu.setCtx_cur hy .idle, _, hr, ?_⟩
  rw [Block.emit_out, Block.finish_out, hu.out, hu.cur]

/-- A phase of a ring operation goes on, or does what its return does. -/
theorem RingStep.commandStep {i : Instr} {s t : Block W} {ph : Phase} {x : Regs W} {y : Ctx W}
    {Ret : Regs W → Block W → Prop} (h : RingStep ph x s t Ret) (hy : s.ctx s.cur = some y)
    (hret : ∀ z u, SameContexts s u → Ret z u → CommandStep i s t) : CommandStep i s t := by
  obtain ⟨l, u, z, -, hu, hend, -⟩ := h
  rcases hend with hend | ⟨ph', hgo, -, -⟩
  · exact hret z u hu.sameContexts hend
  · exact goto_commandStep hu.sameContexts hy hgo

/-- The catch-up of a dequeue goes on at `D7`, so none of its phases answers. -/
theorem catchupPhase_commandStep {i : Instr} {c : CatPhase} {x : Regs W} {s t : Block W} {y : Ctx W}
    (hy : s.ctx s.cur = some y) (h : catchupPhase c x s leaveToD7 = .next t) : CommandStep i s t :=
  (catchupPhase_next h).commandStep hy fun _ _ hu hret => goto_commandStep hu hy hret

theorem blockCreate_commandStep {a : Nat} {s t : Block W} (h : blockCreate a s = .next t) :
    CommandStep (.create a) s t := by
  rcases onContext_next h with ⟨hidle, h⟩ | ⟨ph, x, ⟨hctx, -⟩, h⟩
  · split at h
    · cases h
    split at h
    · cases h
    exact goto_commandStep (.refl s) hidle (needQuiescent_next h).2
  · cases ph with
    | x0 =>
      simp only [phaseX0] at h
      split at h
      · exact respond_commandStep ⟨Block.create_ctxs s _, Block.create_cur s _, Block.create_out s _⟩ hctx rfl h
      · exact respond_commandStep (.refl s) hctx rfl h
    | _ => cases h

theorem blockEnqueue_commandStep {a : Nat} {s t : Block W} (h : blockEnqueue a s = .next t) :
    CommandStep (.enqueue a) s t := by
  rcases onContext_next h with ⟨hidle, h⟩ | ⟨ph, x, ⟨hctx, -⟩, h⟩
  · exact goto_commandStep (.refl s) hidle (needNoLifecycle_next (needLive_next h).2).2
  · cases ph with
    | q0 =>
      obtain ⟨-, h⟩ := ldOp_next h
      split at h
      · exact respond_commandStep (.refl s) hctx rfl h
      · exact goto_commandStep (.refl s) hctx h
    | deq d =>
      refine (tryDeqPhase_next h).commandStep hctx fun z u hu ⟨found, hret⟩ => ?_
      cases found with
      | true => exact goto_commandStep hu hctx hret
      | false => exact respond_commandStep hu hctx rfl hret
    | cat c => exact catchupPhase_commandStep hctx h
    | q1 => exact goto_commandStep (.memWrite s _ _) hctx (stOp_next h).2
    | enq e => exact (tryEnqPhase_next h).commandStep hctx fun _ _ hu hret => respond_commandStep hu hctx rfl hret
    | _ => cases h

theorem blockDequeue_commandStep {a : Nat} {s t : Block W} (h : blockDequeue a s = .next t) :
    CommandStep (.dequeue a) s t := by
  rcases onContext_next h with ⟨hidle, h⟩ | ⟨ph, x, ⟨hctx, -⟩, h⟩
  · exact goto_commandStep (.refl s) hidle (needNoLifecycle_next (needLive_next h).2).2
  · cases ph with
    | deq d =>
      exact (tryDeqPhase_next h).commandStep hctx fun _ _ hu ⟨_, hret⟩ => goto_commandStep hu hctx hret
    | cat c => exact catchupPhase_commandStep hctx h
    | p0 =>
      obtain ⟨-, h⟩ := ldOp_next h
      split at h <;> exact respond_commandStep (.refl s) hctx rfl h
    | p1 => exact goto_commandStep (.refl s) hctx (ldOp_next h).2
    | enq e => exact (tryEnqPhase_next h).commandStep hctx fun _ _ hu hret => respond_commandStep hu hctx rfl hret
    | _ => cases h

theorem blockClose_commandStep {a : Nat} {s t : Block W} (h : blockClose a s = .next t) :
    CommandStep (.close a) s t := by
  rcases onContext_next h with ⟨hidle, h⟩ | ⟨ph, x, ⟨hctx, -⟩, h⟩
  · exact goto_commandStep (.refl s) hidle (needNoLifecycle_next (needLive_next h).2).2
  · cases ph with
    | k0 => exact respond_commandStep (.memWrite s _ _) hctx rfl (faaOp_next h).2
    | _ => cases h

theorem blockDestroy_commandStep {a : Nat} {s t : Block W} (h : blockDestroy a s = .next t) :
    CommandStep (.destroy a) s t := by
  rcases onContext_next h with ⟨hidle, h⟩ | ⟨ph, x, ⟨hctx, -⟩, h⟩
  · exact goto_commandStep (.refl s) hidle (needQuiescent_next (needLive_next h).2).2
  · cases ph with
    | y0 => exact respond_commandStep (u := s.release) ⟨rfl, rfl, rfl⟩ hctx rfl h
    | _ => cases h

/-- A step of `DUMP` is its acceptance, or one of its responses (42_bounded_queue.md R162). -/
theorem blockDump_answers {a : Nat} {s t : Block W} (h : blockDump a s = .next t) :
    (s.ctx s.cur = some .idle ∧ t.out = s.out) ∨ Answers (.dump a) s t := by
  rcases onContext_next h with ⟨hidle, h⟩ | ⟨ph, x, -, h⟩
  · obtain rfl := goto_next (needNoLifecycle_next (needLive_next h).2).2
    exact .inl ⟨hidle, rfl⟩
  · cases ph with
    | u0 =>
      obtain ⟨-, h⟩ := ldOp_next h
      split at h
      · obtain rfl := respond_next h
        exact .inr ⟨_, rfl, rfl⟩
      · obtain rfl := goto_next h
        exact .inr ⟨_, rfl, rfl⟩
    | _ => cases h

end Commands

/-! ### The statements -/

/-- Settles O2: each field is read back as it was written, and an operand read is a word of the packet. -/
theorem decodeInvertsEncode : Obligations.DecodeInvertsEncode := fun _ =>
  ⟨fun _ h => decode_encode h, fun _ _ h => decode_fits h⟩

/-- Settles O3: the two fields are the whole word, and `op` alone says whether it is read. -/
theorem commandWordsHaveOneReading : Obligations.CommandWordsHaveOneReading := by
  intro W w
  refine ⟨fun hop => ?_, fun hop => decodeOp_of_reserved hop (qArg w)⟩
  obtain ⟨i, hi⟩ := decodeOp_of_lt hop (qArg w)
  exact ⟨i, hi, by rw [encode_of_decodeOp hi, qWord_qOp_qArg]⟩

/-- Settles O15, from what a step of each command can be. -/
theorem oneResponsePerCommand : Obligations.OneResponsePerCommand := by
  intro W i v s t h
  have hstep := exec_next.1 h
  refine ⟨?_, ?_⟩
  · rintro (rfl | rfl | rfl | rfl | rfl)
    · exact blockCreate_commandStep hstep
    · exact blockEnqueue_commandStep hstep
    · exact blockDequeue_commandStep hstep
    · exact blockClose_commandStep hstep
    · exact blockDestroy_commandStep hstep
  · rintro rfl
    exact blockDump_answers hstep

/-- Settles O1: ten closed words, each read by the decoder. -/
theorem specWordsDecode : Obligations.SpecWordsDecode := by
  unfold Obligations.SpecWordsDecode
  decide

/-- Settles O4, from the two fields of a response word and the reading of a code. -/
theorem responseWordFormat : Obligations.ResponseWordFormat := fun _ r u =>
  ⟨r.word_status u, fun d hd => by rw [r.word_data, hd, Option.getD_some],
    fun hd => by rw [r.word_data, hd, Option.getD_none], ⟨rfl, rfl, rfl, rfl, rfl⟩,
    fun _ => ⟨fun _ => Status.ofCode_eq_some, Status.ofCode_eq_none⟩⟩

/-- Settles O6: neither presentation comes to an operation. -/
theorem presentationsRefused : Obligations.PresentationsRefused := by
  refine fun W s c rest => ⟨fun w henv hidle hop => ?_, fun p ph x henv hbusy => ?_⟩
  · exact step_of_fetch_settled (fetch_presented_reserved henv hidle (decodeOp_of_reserved hop (qArg w)))
  · exact step_of_fetch_settled (fetch_presented_busy henv hbusy)

/-- Settles O45: each precondition holds, so each command goes to its first phase. -/
theorem commandsAreAccepted : Obligations.CommandsAreAccepted := by
  intro W s v hidle hlive hquiet
  refine ⟨?enqueue, ?dequeue, ?close, ?dump⟩
  case enqueue =>
    obtain ⟨t, hexec, hrun, hrest⟩ :=
      exec_next_of_accepted (.enqueue v.toNat) hidle (blockEnqueue_accepts hidle hlive hquiet v) rfl rfl
    exact ⟨t, _, hexec, hrun, rfl, rfl, hrest⟩
  case dequeue =>
    obtain ⟨t, hexec, hrun, hrest⟩ :=
      exec_next_of_accepted (.dequeue v.toNat) hidle (blockDequeue_accepts hidle hlive hquiet v) rfl rfl
    exact ⟨t, _, hexec, hrun, rfl, rfl, rfl, rfl, hrest⟩
  case close =>
    obtain ⟨t, hexec, hrun, hrest⟩ :=
      exec_next_of_accepted (.close v.toNat) hidle (blockClose_accepts hidle hlive hquiet v) rfl rfl
    exact ⟨t, _, hexec, hrun, rfl, rfl, hrest⟩
  case dump =>
    obtain ⟨t, hexec, hrun, hrest⟩ :=
      exec_next_of_accepted (.dump v.toNat) hidle (blockDump_accepts hidle hlive hquiet v) rfl rfl
    exact ⟨t, _, hexec, hrun, rfl, rfl, rfl, hrest⟩

/-- Settles O46: with every context idle, `LIVE` and the order decide. -/
theorem lifecycleCommandsAreAccepted : Obligations.LifecycleCommandsAreAccepted := by
  intro W s v hidle hall
  refine ⟨fun hdead horder => ?create, fun hlive => ?destroy⟩
  case create =>
    obtain ⟨t, hexec, hrun, hrest⟩ :=
      exec_next_of_accepted (.create v.toNat) hidle (blockCreate_accepts hidle hall v hdead horder) rfl rfl
    exact ⟨t, _, hexec, hrun, rfl, rfl, hrest⟩
  case destroy =>
    obtain ⟨t, hexec, hrun, hrest⟩ :=
      exec_next_of_accepted (.destroy v.toNat) hidle (blockDestroy_accepts hidle hlive hall v) rfl rfl
    exact ⟨t, _, hexec, hrun, rfl, rfl, hrest⟩

end Sys2Proof.Machine

/-! PROOFS. Slot words bit by bit, their three fields, the permutation `map` and the signed comparison: the
statements of 40_slot_encoding.md. -/

namespace Sys2Proof.Machine

section SlotWords

variable {W k j : Nat} {w v : Word W}

/-! ### The bits of the words that R105 to R113 build -/

theorem getLsbD_ones_of_lt (hW : j < W) (hj : j < k) : (ones k : Word W).getLsbD j = true := by
  rw [ones, BitVec.getLsbD_ofNat, Nat.testBit_two_pow_sub_one, decide_eq_true hW, decide_eq_true hj, Bool.and_true]

theorem getLsbD_ones_of_ge (hj : k ≤ j) : (ones k : Word W).getLsbD j = false := by
  rw [ones, BitVec.getLsbD_ofNat, Nat.testBit_two_pow_sub_one, decide_eq_false hj.not_gt, Bool.and_false]

theorem getLsbD_nBit_self (hk : k < W) : (nBit k : Word W).getLsbD k = true := by
  rw [nBit, BitVec.getLsbD_ofNat, Nat.testBit_two_pow_self, decide_eq_true hk, Bool.and_true]

theorem getLsbD_nBit_of_ne (hj : k ≠ j) : (nBit k : Word W).getLsbD j = false := by
  rw [nBit, BitVec.getLsbD_ofNat, Nat.testBit_two_pow_of_ne hj, Bool.and_false]

theorem getLsbD_idxOf_of_lt (hW : j < W) (hj : j < k) (w : Word W) : (idxOf k w).getLsbD j = w.getLsbD j := by
  rw [idxOf, BitVec.getLsbD_and, getLsbD_ones_of_lt hW hj, Bool.and_true]

theorem getLsbD_idxOf_of_ge (hj : k ≤ j) (w : Word W) : (idxOf k w).getLsbD j = false := by
  rw [idxOf, BitVec.getLsbD_and, getLsbD_ones_of_ge hj, Bool.and_false]

theorem getLsbD_ecyc_of_le (hW : j < W) (hj : j ≤ k) (w : Word W) : (ecyc k w).getLsbD j = true := by
  rw [ecyc, BitVec.getLsbD_or, getLsbD_ones_of_lt hW (Nat.lt_succ_of_le hj), Bool.or_true]

theorem getLsbD_ecyc_of_gt (hj : k < j) (w : Word W) : (ecyc k w).getLsbD j = w.getLsbD j := by
  rw [ecyc, BitVec.getLsbD_or, getLsbD_ones_of_ge hj, Bool.or_false]

theorem getLsbD_cyc_of_le (hW : j < W) (hj : j ≤ k) (c : Word W) : (cyc k c).getLsbD j = true := by
  rw [cyc, BitVec.getLsbD_or, getLsbD_ones_of_lt hW (Nat.lt_succ_of_le hj), Bool.or_true]

/-- Above `SAFE` a cycle word is its counter moved up one place. -/
theorem getLsbD_cyc_of_gt (hW : j < W) (hj : k < j) (c : Word W) : (cyc k c).getLsbD j = c.getLsbD (j - 1) := by
  rw [cyc, BitVec.getLsbD_or, getLsbD_ones_of_ge hj, BitVec.getLsbD_shiftLeft, decide_eq_true hW,
    decide_eq_false (show ¬ j < 1 by omega), Bool.or_false, Bool.not_false, Bool.and_true, Bool.true_and]

theorem getLsbD_of_toNat_lt {n : Nat} (hw : w.toNat < 2 ^ n) (hj : n ≤ j) : w.getLsbD j = false := by
  rw [← BitVec.testBit_toNat]
  exact Nat.testBit_lt_two_pow (hw.trans_le (Nat.pow_le_pow_right (by decide) hj))

/-- `enc` inverts the index against the ones of the cycle word, so that `IDX` reads the index itself. -/
theorem getLsbD_pack_of_lt (hW : j < W) (hj : j < k) (c i : Word W) : (pack k c i).getLsbD j = i.getLsbD j := by
  rw [pack, enc, BitVec.getLsbD_xor, BitVec.getLsbD_xor, getLsbD_cyc_of_le hW hj.le, getLsbD_ones_of_lt hW hj,
    Bool.xor_true, Bool.true_xor, Bool.not_not]

theorem getLsbD_pack_of_ge (hj : k ≤ j) (c : Word W) {i : Word W} (hi : i.toNat < 2 ^ k) :
    (pack k c i).getLsbD j = (cyc k c).getLsbD j := by
  rw [pack, enc, BitVec.getLsbD_xor, BitVec.getLsbD_xor, getLsbD_of_toNat_lt hi hj, getLsbD_ones_of_ge hj,
    Bool.xor_false, Bool.xor_false]

theorem getLsbD_clearSafe_self (hk : k < W) (w : Word W) : (clearSafe k w).getLsbD k = false := by
  rw [clearSafe, BitVec.getLsbD_and, BitVec.getLsbD_not, getLsbD_nBit_self hk, Bool.not_true, Bool.and_false,
    Bool.and_false]

theorem getLsbD_clearSafe_of_ne (hW : j < W) (hj : k ≠ j) (w : Word W) :
    (clearSafe k w).getLsbD j = w.getLsbD j := by
  rw [clearSafe, BitVec.getLsbD_and, BitVec.getLsbD_not, getLsbD_nBit_of_ne hj, decide_eq_true hW, Bool.not_false,
    Bool.and_true, Bool.and_true]

theorem getLsbD_or_consumeMask_of_lt (hW : j < W) (hj : j < k) (w : Word W) :
    (w ||| consumeMask k).getLsbD j = true := by
  rw [consumeMask, BitVec.getLsbD_or, getLsbD_ones_of_lt hW hj, Bool.or_true]

theorem getLsbD_or_consumeMask_of_ge (hj : k ≤ j) (w : Word W) :
    (w ||| consumeMask k).getLsbD j = w.getLsbD j := by
  rw [consumeMask, BitVec.getLsbD_or, getLsbD_ones_of_ge hj, Bool.or_false]

/-- Over a cycle word, whose `SAFE` is 1, `force` takes the `SAFE` of the word it replaces. -/
theorem getLsbD_forceWord_self (hk : k < W) {hcyc : Word W} (hsafe : hcyc.getLsbD k = true) (w : Word W) :
    (forceWord k hcyc w).getLsbD k = w.getLsbD k := by
  rw [forceWord, BitVec.getLsbD_xor, BitVec.getLsbD_and, BitVec.getLsbD_not, getLsbD_nBit_self hk, hsafe,
    decide_eq_true hk, Bool.true_and, Bool.and_true, Bool.true_xor, Bool.not_not]

theorem getLsbD_forceWord_of_ne (hj : k ≠ j) (hcyc w : Word W) :
    (forceWord k hcyc w).getLsbD j = hcyc.getLsbD j := by
  rw [forceWord, BitVec.getLsbD_xor, BitVec.getLsbD_and, getLsbD_nBit_of_ne hj, Bool.and_false, Bool.xor_false]

/-! ### The fields `IDX`, `SAFE` and `CYC` (R100, R108, R109) -/

/-- The three fields are the whole word. -/
theorem eq_iff_fields (hk : k < W) :
    w = v ↔ (∀ j < k, w.getLsbD j = v.getLsbD j) ∧ w.getLsbD k = v.getLsbD k ∧
      ∀ j, k < j → j < W → w.getLsbD j = v.getLsbD j := by
  refine ⟨by rintro rfl; simp, fun ⟨hidx, hsafe, hcyc⟩ => BitVec.eq_of_getLsbD_eq fun j hj => ?_⟩
  obtain hlt | rfl | hgt := Nat.lt_trichotomy j k
  · exact hidx j hlt
  · exact hsafe
  · exact hcyc j hgt hj

theorem idxOf_congr (h : ∀ j, j < k → j < W → w.getLsbD j = v.getLsbD j) : idxOf k w = idxOf k v := by
  refine BitVec.eq_of_getLsbD_eq fun j hW => ?_
  obtain hj | hj := Nat.lt_or_ge j k
  · rw [getLsbD_idxOf_of_lt hW hj, getLsbD_idxOf_of_lt hW hj, h j hj hW]
  · rw [getLsbD_idxOf_of_ge hj, getLsbD_idxOf_of_ge hj]

theorem idxOf_eq_self (h : w.toNat < 2 ^ k) : idxOf k w = w := by
  refine BitVec.eq_of_getLsbD_eq fun j hW => ?_
  obtain hj | hj := Nat.lt_or_ge j k
  · rw [getLsbD_idxOf_of_lt hW hj]
  · rw [getLsbD_idxOf_of_ge hj, getLsbD_of_toNat_lt h hj]

theorem idxOf_eq_bot_iff (hk : k ≤ W) : idxOf k w = bot k ↔ ∀ j < k, w.getLsbD j = true := by
  refine ⟨fun h j hj => ?_, fun h => BitVec.eq_of_getLsbD_eq fun j hW => ?_⟩
  · have hW : j < W := hj.trans_le hk
    rw [← getLsbD_idxOf_of_lt hW hj, h, bot, getLsbD_ones_of_lt hW hj]
  · obtain hj | hj := Nat.lt_or_ge j k
    · rw [getLsbD_idxOf_of_lt hW hj, h j hj, bot, getLsbD_ones_of_lt hW hj]
    · rw [getLsbD_idxOf_of_ge hj, bot, getLsbD_ones_of_ge hj]

theorem ecyc_congr (h : ∀ j, k < j → j < W → w.getLsbD j = v.getLsbD j) : ecyc k w = ecyc k v := by
  refine BitVec.eq_of_getLsbD_eq fun j hW => ?_
  obtain hj | hj := Nat.lt_or_ge k j
  · rw [getLsbD_ecyc_of_gt hj, getLsbD_ecyc_of_gt hj, h j hj hW]
  · rw [getLsbD_ecyc_of_le hW hj, getLsbD_ecyc_of_le hW hj]

/-- The all-ones index is no index below it. -/
theorem ne_bot_of_lt (hk : k ≤ W) {i : Word W} (hi : i.toNat + 1 < 2 ^ k) : i ≠ bot k := by
  have hle : 2 ^ k ≤ 2 ^ W := Nat.pow_le_pow_right (by decide) hk
  rintro rfl
  rw [bot, ones, BitVec.toNat_ofNat, Nat.mod_eq_of_lt (by omega)] at hi
  omega

/-- A cycle word has all ones up to `SAFE` (R108). -/
theorem getLsbD_of_ecyc_eq_self (h : ecyc k w = w) (hW : j < W) (hj : j ≤ k) : w.getLsbD j = true := by
  rw [← h, getLsbD_ecyc_of_le hW hj]

theorem clearSafe_eq_self_iff (hk : k < W) : clearSafe k w = w ↔ w.getLsbD k = false := by
  rw [eq_iff_fields hk, getLsbD_clearSafe_self hk]
  exact ⟨fun ⟨_, hsafe, _⟩ => hsafe.symm, fun hsafe =>
    ⟨fun j hj => getLsbD_clearSafe_of_ne (hj.trans hk) hj.ne' w, hsafe.symm,
      fun j hj hW => getLsbD_clearSafe_of_ne hW hj.ne w⟩⟩

/-! ### Classes (R101) -/

/-- `(w | N) == e` is the test for `IDX = BOT`. -/
theorem or_nBit_eq_ecyc_iff (hk : k < W) : w ||| nBit k = ecyc k w ↔ idxOf k w = bot k := by
  have hne (j) (hj : k ≠ j) : (w ||| nBit k).getLsbD j = w.getLsbD j := by
    rw [BitVec.getLsbD_or, getLsbD_nBit_of_ne hj, Bool.or_false]
  have hidx : (∀ j < k, (w ||| nBit k).getLsbD j = (ecyc k w).getLsbD j) ↔ ∀ j < k, w.getLsbD j = true :=
    forall₂_congr fun j hj => by rw [hne j hj.ne', getLsbD_ecyc_of_le (hj.trans hk) hj.le]
  have hsafe : (w ||| nBit k).getLsbD k = (ecyc k w).getLsbD k := by
    rw [BitVec.getLsbD_or, getLsbD_nBit_self hk, Bool.or_true, getLsbD_ecyc_of_le hk le_rfl]
  have hcyc : ∀ j, k < j → j < W → (w ||| nBit k).getLsbD j = (ecyc k w).getLsbD j := fun j hj _ => by
    rw [hne j hj.ne, getLsbD_ecyc_of_gt hj]
  rw [eq_iff_fields hk, hidx, idxOf_eq_bot_iff hk.le]
  exact and_iff_left ⟨hsafe, hcyc⟩

/-- `w == e` is the test for `IDX = BOT` and `SAFE = 1`. -/
theorem eq_ecyc_iff (hk : k < W) : w = ecyc k w ↔ idxOf k w = bot k ∧ w.getLsbD k = true := by
  have hidx : (∀ j < k, w.getLsbD j = (ecyc k w).getLsbD j) ↔ ∀ j < k, w.getLsbD j = true :=
    forall₂_congr fun j hj => by rw [getLsbD_ecyc_of_le (hj.trans hk) hj.le]
  rw [eq_iff_fields hk, hidx, idxOf_eq_bot_iff hk.le, getLsbD_ecyc_of_le hk le_rfl]
  exact and_congr_right' (and_iff_left fun j hj _ => (getLsbD_ecyc_of_gt hj w).symm)

/-- `w == e ^ N` is the test for `IDX = BOT` and `SAFE = 0`. -/
theorem eq_ecyc_xor_nBit_iff (hk : k < W) :
    w = ecyc k w ^^^ nBit k ↔ idxOf k w = bot k ∧ w.getLsbD k = false := by
  have hne (j) (hj : k ≠ j) : (ecyc k w ^^^ nBit k).getLsbD j = (ecyc k w).getLsbD j := by
    rw [BitVec.getLsbD_xor, getLsbD_nBit_of_ne hj, Bool.xor_false]
  have hidx : (∀ j < k, w.getLsbD j = (ecyc k w ^^^ nBit k).getLsbD j) ↔ ∀ j < k, w.getLsbD j = true :=
    forall₂_congr fun j hj => by rw [hne j hj.ne', getLsbD_ecyc_of_le (hj.trans hk) hj.le]
  have hsafe : (ecyc k w ^^^ nBit k).getLsbD k = false := by
    rw [BitVec.getLsbD_xor, getLsbD_ecyc_of_le hk le_rfl, getLsbD_nBit_self hk, Bool.xor_true, Bool.not_true]
  have hcyc : ∀ j, k < j → j < W → w.getLsbD j = (ecyc k w ^^^ nBit k).getLsbD j := fun j hj _ => by
    rw [hne j hj.ne, getLsbD_ecyc_of_gt hj]
  rw [eq_iff_fields hk, hidx, idxOf_eq_bot_iff hk.le, hsafe]
  exact and_congr_right' (and_iff_left hcyc)

/-- The class table of R101: `IDX` says whether the word is empty, `SAFE` whether it is safe. -/
theorem slotClass_eq (hk : k < W) (w : Word W) :
    slotClass k w =
      if idxOf k w = bot k then if w.getLsbD k then .emptySafe else .emptyUnsafe
      else if w.getLsbD k then .fullSafe else .fullUnsafe := by
  simp only [slotClass, eq_ecyc_iff hk, eq_ecyc_xor_nBit_iff hk]
  by_cases hidx : idxOf k w = bot k
  · cases w.getLsbD k <;> simp [hidx]
  · simp [hidx]

/-! ### Cycle words and packing (R105, R106) -/

theorem ecyc_cyc (k : Nat) (c : Word W) : ecyc k (cyc k c) = cyc k c := by
  rw [ecyc, cyc, BitVec.or_assoc, BitVec.or_self]

/-- The cycle word of a counter keeps its bits `[W-2:K]`. -/
theorem cyc_eq_iff (c d : Word W) :
    cyc k c = cyc k d ↔ ∀ j, k ≤ j → j + 2 ≤ W → c.getLsbD j = d.getLsbD j := by
  refine ⟨fun h j hj hW => ?_, fun h => BitVec.eq_of_getLsbD_eq fun j hW => ?_⟩
  · have hbit (c : Word W) : (cyc k c).getLsbD (j + 1) = c.getLsbD j :=
      getLsbD_cyc_of_gt hW (Nat.lt_succ_of_le hj) c
    rw [← hbit c, h, hbit d]
  · obtain hj | hj := Nat.lt_or_ge k j
    · rw [getLsbD_cyc_of_gt hW hj, getLsbD_cyc_of_gt hW hj, h (j - 1) (by omega) (by omega)]
    · rw [getLsbD_cyc_of_le hW hj, getLsbD_cyc_of_le hW hj]

theorem idxOf_pack (c : Word W) {i : Word W} (hi : i.toNat < 2 ^ k) : idxOf k (pack k c i) = i :=
  calc idxOf k (pack k c i)
      = idxOf k i := idxOf_congr fun _ hj hW => getLsbD_pack_of_lt hW hj c i
    _ = i := idxOf_eq_self hi

theorem ecyc_pack (c : Word W) {i : Word W} (hi : i.toNat < 2 ^ k) : ecyc k (pack k c i) = cyc k c :=
  calc ecyc k (pack k c i)
      = ecyc k (cyc k c) := ecyc_congr fun _ hj _ => getLsbD_pack_of_ge hj.le c hi
    _ = cyc k c := ecyc_cyc k c

/-! ### The permutation `map` (R103, R104) -/

theorem mapPos_congr {rot : Nat} (hk : k ≤ W) {c d : Word W} (h : c.toNat % 2 ^ k = d.toNat % 2 ^ k) :
    mapPos rot k c = mapPos rot k d := by
  apply BitVec.eq_of_toNat_eq
  by_cases hr : k ≤ rot
  · rw [mapPos_of_le hr, mapPos_of_le hr, toNat_and_ones hk, toNat_and_ones hk, h]
  · have hlow : c.toNat % 2 ^ (k - rot) = d.toNat % 2 ^ (k - rot) :=
      Nat.ModEq.of_dvd (pow_dvd_pow 2 (Nat.sub_le k rot)) h
    rw [toNat_mapPos_of_lt hk (by omega), toNat_mapPos_of_lt hk (by omega), h, hlow]

/-- Adding `N` leaves the low `K` bits as they were, also where the counter wraps past `W` bits. -/
theorem toNat_add_nBit_mod (hk : k ≤ W) (c : Word W) : (c + nBit k).toNat % 2 ^ k = c.toNat % 2 ^ k := by
  have hdvd : 2 ^ k ∣ 2 ^ W := pow_dvd_pow 2 hk
  rw [BitVec.toNat_add, Nat.mod_mod_of_dvd _ hdvd, nBit, BitVec.toNat_ofNat, Nat.add_mod,
    Nat.mod_mod_of_dvd _ hdvd, Nat.mod_self, Nat.add_zero, Nat.mod_mod]

/-- A one-to-one map of `[0, N)` into itself leaves no position out. -/
theorem mapPos_surj (rot : Nat) (hk : k ≤ W) {p : Word W} (hp : p.toNat < 2 ^ k) :
    ∃ c : Word W, c.toNat < 2 ^ k ∧ mapPos rot k c = p := by
  have hsurj := Finset.surjOn_of_injOn_of_card_le (s := Finset.range (2 ^ k)) (t := Finset.range (2 ^ k))
    (fun n => (mapPos rot k (BitVec.ofNat W n)).toNat)
    (fun n _ => Finset.mem_coe.2 (Finset.mem_range.2 (mapPos_lt rot k _)))
    (fun n hn m hm h => mapPos_ofNat_inj hk (by simpa using hn) (by simpa using hm) h) le_rfl
  obtain ⟨n, hn, hnp⟩ := hsurj (Finset.mem_coe.2 (Finset.mem_range.2 hp))
  refine ⟨BitVec.ofNat W n, ?_, BitVec.eq_of_toNat_eq hnp⟩
  exact (Nat.mod_le _ _).trans_lt (by simpa using hn)

/-! ### The signed comparison (R107) -/

theorem scmpLe_eq (x y : BitVec W) : scmpLe x y = (scmpLt x y || decide (x = y)) := by
  have hzero : (x - y).toInt = 0 ↔ x = y := by
    rw [← BitVec.toInt_zero (w := W), BitVec.toInt_inj]
    exact sub_eq_zero
  rw [scmpLe, scmpLt, ← Bool.decide_or]
  exact decide_eq_decide.2 (le_iff_lt_or_eq.trans (or_congr_right hzero))

theorem scmpGe_eq (x y : BitVec W) : scmpGe x y = !scmpLt x y := by
  rw [scmpGe, scmpLt, ← decide_not]
  exact decide_eq_decide.2 Int.not_lt.symm

/-- Wrapped quantities less than `2^(W-1)` apart have their true difference. -/
theorem toInt_ofInt_sub_ofInt (hW : 0 < W) {X Y : Int} (hlo : -(2 ^ (W - 1) : Int) < X - Y)
    (hhi : X - Y < 2 ^ (W - 1)) : (BitVec.ofInt W X - BitVec.ofInt W Y).toInt = X - Y := by
  rw [BitVec.sub_eq_add_neg, ← BitVec.ofInt_neg, ← BitVec.ofInt_add, ← Int.sub_eq_add_neg,
    BitVec.toInt_ofInt_eq_self hW hlo.le hhi]

/-- The distance `2^(W-1)` is its own negative. -/
theorem toNat_sub_comm_of_half (hW : 0 < W) {x y : BitVec W} (h : (x - y).toNat = 2 ^ (W - 1)) :
    (y - x).toNat = 2 ^ (W - 1) := by
  have hpow : 2 ^ W = 2 * 2 ^ (W - 1) := by rw [← pow_succ', Nat.sub_add_cancel hW]
  have hpos : 0 < 2 ^ (W - 1) := Nat.two_pow_pos _
  have hneg : y - x = -(x - y) := (neg_sub x y).symm
  rw [hneg, BitVec.toNat_neg, h, Nat.mod_eq_of_lt (by omega)]
  omega

theorem scmpLt_of_half (hW : 0 < W) {x y : BitVec W} (h : (x - y).toNat = 2 ^ (W - 1)) : scmpLt x y = true := by
  have hpow : 2 ^ W = 2 * 2 ^ (W - 1) := by rw [← pow_succ', Nat.sub_add_cancel hW]
  rw [scmpLt, decide_eq_true_iff, BitVec.toInt_neg_iff, h, hpow]

theorem scmpLt_ofInt (hW : 0 < W) {X Y : Int} (hlo : -(2 ^ (W - 1) : Int) < X - Y) (hhi : X - Y < 2 ^ (W - 1)) :
    scmpLt (BitVec.ofInt W X) (BitVec.ofInt W Y) = decide (X < Y) := by
  rw [scmpLt, toInt_ofInt_sub_ofInt hW hlo hhi]
  exact decide_eq_decide.2 sub_neg

theorem scmpLe_ofInt (hW : 0 < W) {X Y : Int} (hlo : -(2 ^ (W - 1) : Int) < X - Y) (hhi : X - Y < 2 ^ (W - 1)) :
    scmpLe (BitVec.ofInt W X) (BitVec.ofInt W Y) = decide (X ≤ Y) := by
  rw [scmpLe, toInt_ofInt_sub_ofInt hW hlo hhi]
  exact decide_eq_decide.2 sub_nonpos

theorem scmpGe_ofInt (hW : 0 < W) {X Y : Int} (hlo : -(2 ^ (W - 1) : Int) < X - Y) (hhi : X - Y < 2 ^ (W - 1)) :
    scmpGe (BitVec.ofInt W X) (BitVec.ofInt W Y) = decide (Y ≤ X) := by
  rw [scmpGe, toInt_ofInt_sub_ofInt hW hlo hhi]
  exact decide_eq_decide.2 sub_nonneg

/-! ### The words initialisation writes (R114, 41_ring_buffer.md R122) -/

/-- All ones in every field: `ALL1` is a cycle word. -/
theorem ecyc_all1 (k : Nat) : ecyc k (all1 : Word W) = all1 := BitVec.allOnes_or

theorem slotClass_all1 (k : Nat) : slotClass k (all1 : Word W) = .emptySafe := by
  rw [slotClass, if_pos (ecyc_all1 k).symm]

theorem cyc_zero (k : Nat) : cyc k (0 : Word W) = ones (k + 1) := by
  rw [cyc, BitVec.ofNat_eq_ofNat, BitVec.zero_shiftLeft, BitVec.zero_or]

theorem all1_eq_ofInt : (all1 : Word W) = BitVec.ofInt W (-1) := by
  rw [BitVec.ofInt_neg]
  exact BitVec.neg_one_eq_allOnes.symm

theorem ones_eq_ofInt (k : Nat) : (ones k : Word W) = BitVec.ofInt W (2 ^ k - 1) := by
  rw [ones, ← BitVec.ofInt_natCast, Nat.cast_sub Nat.one_le_two_pow, Nat.cast_pow, Nat.cast_ofNat, Nat.cast_one]

/-- `2^k - 1` is `2^k` ahead of `-1`. -/
theorem ones_eq_all1_add (k : Nat) : (ones k : Word W) = all1 + BitVec.ofNat W (2 ^ k) := by
  rw [ones_eq_ofInt, all1_eq_ofInt, ← BitVec.ofInt_natCast, ← BitVec.ofInt_add, Nat.cast_pow, Nat.cast_ofNat,
    Int.sub_eq_add_neg, Int.add_comm]

theorem scmpLt_all1_ones (hk : k + 1 < W) : scmpLt (all1 : Word W) (ones k) = true := by
  have hpos : (0 : Int) < 2 ^ k := by positivity
  have hlt : (2 : Int) ^ k < 2 ^ (W - 1) := pow_lt_pow_right₀ (by decide) (by omega)
  rw [all1_eq_ofInt, ones_eq_ofInt, scmpLt_ofInt (by omega) (by omega) (by omega)]
  exact decide_eq_true (by omega)

theorem getLsbD_fillWord_self (hk : k < W) {i : Nat} (hi : i < 2 ^ k) :
    (fillWord k i : Word W).getLsbD k = true := by
  rw [fillWord, BitVec.getLsbD_ofNat, Nat.testBit_two_pow_add_eq, Nat.testBit_lt_two_pow hi, decide_eq_true hk,
    Bool.not_false, Bool.and_true]

theorem getLsbD_fillWord_of_ne (hj : k ≠ j) {i : Nat} (hi : i < 2 ^ k) :
    (fillWord k i : Word W).getLsbD j = (BitVec.ofNat W i).getLsbD j := by
  have hsplit : 2 ^ k + i = 2 ^ k ||| i := by simpa using Nat.two_pow_add_eq_or_of_lt hi 1
  rw [fillWord, hsplit, BitVec.getLsbD_ofNat, BitVec.getLsbD_ofNat, Nat.testBit_or, Nat.testBit_two_pow_of_ne hj,
    Bool.false_or]

/-- An index is a counter of traversal 0, whose tag is 0. -/
theorem fillWord_eq_pack (hk : k < W) {i : Nat} (hi : i < 2 ^ k) :
    fillWord k i = pack k (BitVec.ofNat W i) (BitVec.ofNat W i) := by
  have hword : (BitVec.ofNat W i).toNat < 2 ^ k := (Nat.mod_le _ _).trans_lt hi
  refine (eq_iff_fields hk).2 ⟨fun j hj => ?idx, ?safe, fun j hj hW => ?cyc⟩
  case idx => rw [getLsbD_fillWord_of_ne hj.ne' hi, getLsbD_pack_of_lt (hj.trans hk) hj]
  case safe => rw [getLsbD_fillWord_self hk hi, getLsbD_pack_of_ge le_rfl _ hword, getLsbD_cyc_of_le hk le_rfl]
  case cyc =>
    rw [getLsbD_fillWord_of_ne hj.ne hi, getLsbD_pack_of_ge hj.le _ hword, getLsbD_cyc_of_gt hW hj,
      getLsbD_of_toNat_lt hword hj.le, getLsbD_of_toNat_lt hword (Nat.le_sub_one_of_lt hj)]

end SlotWords

/-! ### The statements -/

/-- Settles O16, from the bits of a cycle word. -/
theorem cycleWordOfTraversal : Obligations.CycleWordOfTraversal := by
  intro W k hk c d
  refine ⟨?idx, getLsbD_cyc_of_le (by omega) le_rfl c, fun j hj hW => getLsbD_cyc_of_gt hW hj c, cyc_eq_iff c d⟩
  exact (idxOf_eq_bot_iff (by omega)).2 fun j hj => getLsbD_cyc_of_le (by omega) hj.le c

/-- Settles O17: above `IDX` a packed word is the cycle word of its counter. -/
theorem packedWordFields : Obligations.PackedWordFields := by
  intro W order hW c i hi
  have hk : kOf order < W := by rw [kOf]; omega
  have hcap : i.toNat + 1 < 2 ^ kOf order := by
    have hi : i.toNat < 2 ^ order := hi
    have hpos : 0 < 2 ^ order := Nat.two_pow_pos order
    rw [kOf, pow_succ]
    omega
  have hin : i.toNat < 2 ^ kOf order := Nat.lt_of_succ_lt hcap
  have hidx := idxOf_pack c hin
  refine ⟨hidx, ?safe, fun j hj hjW => ?cyc, ecyc_pack c hin, ?full⟩
  case safe => rw [getLsbD_pack_of_ge le_rfl c hin, getLsbD_cyc_of_le hk le_rfl]
  case cyc => rw [getLsbD_pack_of_ge (Nat.le_of_succ_le hj) c hin, getLsbD_cyc_of_gt hjW hj]
  case full =>
    rw [isFull, decide_eq_true_iff, Ne, or_nBit_eq_ecyc_iff hk, hidx]
    exact ne_bot_of_lt hk.le hcap

/-- Settles O18: `map` is one to one on `[0, N)`, hence onto. -/
theorem mapIsBijection : Obligations.MapIsBijection := by
  intro W rot k hW
  have hk : k ≤ W := by omega
  exact ⟨mapPos_lt rot k, fun c => mapPos_congr hk (toNat_add_nBit_mod hk c),
    fun c d hc hd h => mapPos_inj hk hc hd (congrArg BitVec.toNat h), fun p hp => mapPos_surj rot hk hp⟩

/-- Settles O19, from the sign of the wrapped difference. -/
theorem signedDifferenceLaws : Obligations.SignedDifferenceLaws := fun _ hw =>
  ⟨scmpLe_eq, scmpGe_eq,
    fun _ _ hlo hhi => ⟨scmpLt_ofInt hw hlo hhi, scmpLe_ofInt hw hlo hhi, scmpGe_ofInt hw hlo hhi⟩,
    fun _ _ h => ⟨scmpLt_of_half hw h, scmpLt_of_half hw (toNat_sub_comm_of_half hw h)⟩⟩

/-- Settles O20, from the class table read by `IDX` and `SAFE`. -/
theorem slotClassesByFields : Obligations.SlotClassesByFields := by
  intro W k hW w
  have hk : k < W := by omega
  refine ⟨?emptySafe, ?emptyUnsafe, ?fullSafe, ?fullUnsafe, or_nBit_eq_ecyc_iff hk, fun i hi => ?noIndex⟩
  case noIndex =>
    exact ne_bot_of_lt hk.le <| calc
      (BitVec.ofNat W i).toNat + 1 ≤ i + 1 := Nat.succ_le_succ (Nat.mod_le _ _)
      _ < 2 ^ k := by omega
  all_goals
    rw [slotClass_eq hk]
    by_cases hidx : idxOf k w = bot k
    all_goals cases w.getLsbD k <;> simp [hidx]

/-- Settles O21: each operation changes the bits of its own fields. -/
theorem markConsumeForceFields : Obligations.MarkConsumeForceFields := by
  intro W k hW w hcyc hcycle
  have hk : k < W := by omega
  have hone : ∀ j ≤ k, hcyc.getLsbD j = true := fun j hj => getLsbD_of_ecyc_eq_self hcycle (by omega) hj
  refine ⟨⟨?clearIdx, getLsbD_clearSafe_self hk w, ?clearCyc, clearSafe_eq_self_iff hk⟩,
    ⟨?consumeIdx, getLsbD_or_consumeMask_of_ge le_rfl w, ?consumeCyc⟩,
    ?forceIdx, getLsbD_forceWord_self hk (hone k le_rfl) w, ?forceCyc⟩
  case clearIdx => exact idxOf_congr fun j hj hjW => getLsbD_clearSafe_of_ne hjW hj.ne' w
  case clearCyc => exact ecyc_congr fun j hj hjW => getLsbD_clearSafe_of_ne hjW hj.ne w
  case consumeIdx => exact (idxOf_eq_bot_iff hk.le).2 fun j hj => getLsbD_or_consumeMask_of_lt (hj.trans hk) hj w
  case consumeCyc => exact ecyc_congr fun j hj _ => getLsbD_or_consumeMask_of_ge hj.le w
  case forceIdx =>
    refine (idxOf_eq_bot_iff hk.le).2 fun j hj => ?_
    rw [getLsbD_forceWord_of_ne hj.ne', hone j hj.le]
  case forceCyc =>
    calc ecyc k (forceWord k hcyc w)
        = ecyc k hcyc := ecyc_congr fun j hj _ => getLsbD_forceWord_of_ne hj.ne hcyc w
      _ = hcyc := hcycle

/-- Settles O22: `ALL1` is `-1` and `ones(K+1)` is `2N - 1`, so the comparison is that of the two numbers. -/
theorem initialSlotWords : Obligations.InitialSlotWords := by
  intro W order hW
  have hk : kOf order + 3 ≤ W := hW
  refine ⟨slotClass_all1 _, ?behind, ?ordered, (cyc_zero _).symm, fun i hi => ?fill⟩
  case behind => rw [cyc_zero, ones_eq_all1_add, nOf, ← pow_succ', kOf]
  case ordered =>
    rw [ecyc_all1, cyc_zero]
    exact scmpLt_all1_ones (by omega)
  case fill => exact fillWord_eq_pack (by omega) (lt_trans hi (Nat.pow_lt_pow_succ (by decide)))

end Sys2Proof.Machine

/-! PROOFS. The phases of the ring operations, each as what it comes to where the location it accesses exists; the
initialisations; that a busy context can always step; and the spin of a dequeuer: the statements of
41_ring_buffer.md. -/

namespace Sys2Proof.Machine

section RingPhases

variable {W : Nat}

/-! ### Where the words of a ring exist -/

/-- While a queue is live, a location whose index is in range exists (20_memory.md R50). -/
theorem Block.hasLoc_of_live {s : Block W} {l : Loc} (hlive : s.live = true) (hl : l.inRange s.order = true) :
    s.hasLoc l = true := Bool.and_eq_true_iff.2 ⟨hlive, hl⟩

theorem Block.live_of_hasLoc {s : Block W} {l : Loc} (h : s.hasLoc l = true) : s.live = true :=
  (Bool.and_eq_true_iff.1 h).1

/-- The slot at a position below `N`. -/
theorem Block.hasLoc_slotOf {s : Block W} {x : Regs W} (hlive : s.live = true) (hpos : x.pos.toNat < nOf s.order) :
    s.hasLoc (slotOf x) = true := Block.hasLoc_of_live hlive (decide_eq_true hpos)

/-! ### The phases of `RING_TRY_ENQ` (R124 to R130) -/

section Phases

variable {x : Regs W} {s : Block W}

theorem enqNext_eq (x : Regs W) (s : Block W) : enqNext x s = goto (enqNextPhase s.k x.tcyc x.entry) x s := by
  simp only [enqNext, enqNextPhase, admissibleSafe, admissibleUnsafe, Bool.and_eq_true, decide_eq_true_eq]
  split_ifs <;> rfl

theorem phaseE0_of_live (hlive : s.live = true) :
    phaseE0 x s =
      goto (.enq .e1)
        { x with
          t := s.memRead (.tail x.r), tcyc := cyc s.k (s.memRead (.tail x.r)),
          pos := mapPos s.cfg.rot s.k (s.memRead (.tail x.r)) }
        (s.memWrite (.tail x.r) (s.memRead (.tail x.r) + 1)) := by
  rw [phaseE0, faaOp_of_hasLoc (Block.hasLoc_of_live hlive rfl), Block.memWrite_k, Block.memWrite_cfg]

theorem phaseE1_of_hasLoc (hslot : s.hasLoc (slotOf x) = true) :
    phaseE1 x s =
      goto (enqNextPhase s.k x.tcyc (s.memRead (slotOf x))) { x with entry := s.memRead (slotOf x) } s := by
  rw [phaseE1, ldOp_of_hasLoc hslot, enqNext_eq]

theorem phaseE2_of_live (hlive : s.live = true) :
    phaseE2 x s =
      goto (if scmpLe (s.memRead (.head x.r)) x.t then .enq .e3 else .enq .e0)
        { x with hd := s.memRead (.head x.r) } s := by
  rw [phaseE2, ldOp_of_hasLoc (Block.hasLoc_of_live hlive rfl), apply_ite Phase.enq]

theorem phaseE3_of_eq {ret : Regs W → Block W → Res W} (hslot : s.hasLoc (slotOf x) = true)
    (heq : s.memRead (slotOf x) = x.entry) :
    phaseE3 x s ret =
      if x.hint then ret x (s.memWrite (slotOf x) (pack s.k x.t x.vidx))
      else goto (.enq .e4) x (s.memWrite (slotOf x) (pack s.k x.t x.vidx)) := by
  rw [phaseE3, casOp_of_eq hslot heq, if_pos rfl]

theorem phaseE3_of_ne {ret : Regs W → Block W → Res W} (hslot : s.hasLoc (slotOf x) = true)
    (hne : s.memRead (slotOf x) ≠ x.entry) :
    phaseE3 x s ret =
      goto (enqNextPhase s.k x.tcyc (s.memRead (slotOf x))) { x with entry := s.memRead (slotOf x) } s := by
  rw [phaseE3, casOp_of_ne hslot hne, if_neg Bool.false_ne_true, enqNext_eq]

theorem phaseE4_of_live {ret : Regs W → Block W → Res W} (hlive : s.live = true) :
    phaseE4 x s ret =
      if s.memRead (.threshold x.r) = thresh s.order then ret { x with th := s.memRead (.threshold x.r) } s
      else goto (.enq .e5) { x with th := s.memRead (.threshold x.r) } s := by
  rw [phaseE4, ldOp_of_hasLoc (Block.hasLoc_of_live hlive rfl), ite_not]

theorem phaseE5_of_live {ret : Regs W → Block W → Res W} (hlive : s.live = true) :
    phaseE5 x s ret = ret x (s.memWrite (.threshold x.r) (thresh s.order)) := by
  rw [phaseE5, stOp_of_hasLoc (Block.hasLoc_of_live hlive rfl)]

/-! ### The local function `deq_next` (R135) -/

theorem giveup_eq (x : Regs W) (s : Block W) : giveup x s = goto (giveupPhase x.hint) x s := by
  rw [giveup, giveupPhase, apply_ite Phase.deq]

/-- A full word is marked if it is safe and older; otherwise the slot is given up. -/
theorem deqNextFull_eq (x : Regs W) (s : Block W) :
    deqNextFull x s =
      goto
        (if x.entry ≠ clearSafe s.k x.entry ∧ scmpLt (ecyc s.k x.entry) x.hcyc = true then .deq .d4
          else giveupPhase x.hint)
        { x with new := clearSafe s.k x.entry } s := by
  simp only [deqNextFull, giveup_eq]
  by_cases hsafe : x.entry = clearSafe s.k x.entry
  · rw [if_pos hsafe, if_neg fun h => h.1 hsafe]
  · rw [if_neg hsafe, ← apply_ite (goto · _ s)]
    simp only [hsafe, ne_eq, not_false_eq_true, true_and]

theorem deqNextEmpty_of_le (hspin : x.spins + 1 ≤ s.cfg.spinLimit) :
    deqNextEmpty x s = goto (.deq .d2) x.countSpin s := by
  simp only [deqNextEmpty, Regs.countSpin_spins, if_pos hspin]

theorem deqNextEmpty_of_gt (hspin : ¬ x.spins + 1 ≤ s.cfg.spinLimit) :
    deqNextEmpty x s =
      goto (if scmpLt (ecyc s.k x.entry) x.hcyc = true then .deq .d4 else giveupPhase x.hint)
        { x.countSpin with new := forceWord s.k x.hcyc x.entry } s := by
  simp only [deqNextEmpty, Regs.countSpin_spins, if_neg hspin, giveup_eq, Regs.countSpin_entry, Regs.countSpin_hcyc,
    Regs.countSpin_hint]
  exact (apply_ite (goto · _ s) _ _ _).symm

/-- `deq_next` sets the phase and the registers that R135 says, and does nothing else. -/
theorem deqNext_eq (x : Regs W) (s : Block W) :
    ∃ ph y, deqNext x s = goto ph y s ∧ DeqNext s.cfg s.k x ph y := by
  by_cases hcycle : ecyc s.k x.entry = x.hcyc
  · exact ⟨_, _, if_pos hcycle, by simp only [DeqNext, if_pos hcycle, and_self]⟩
  by_cases hfull : x.entry ||| nBit s.k ≠ ecyc s.k x.entry
  · refine ⟨_, _, ?_, by simp only [DeqNext, if_neg hcycle, if_pos hfull]; exact ⟨rfl, rfl⟩⟩
    rw [deqNext, if_neg hcycle, isFull, if_pos (decide_eq_true hfull), deqNextFull_eq]
  have hempty : deqNext x s = deqNextEmpty x s := by
    rw [deqNext, if_neg hcycle, isFull, if_neg (by simpa using hfull)]
  by_cases hspin : x.spins + 1 ≤ s.cfg.spinLimit
  · refine ⟨_, _, hempty.trans (deqNextEmpty_of_le hspin), ?_⟩
    simp only [DeqNext, if_neg hcycle, if_neg hfull, if_pos hspin, Regs.countSpin_eq, and_self]
  · refine ⟨_, _, hempty.trans (deqNextEmpty_of_gt hspin), ?_⟩
    simp only [DeqNext, if_neg hcycle, if_neg hfull, if_neg hspin, Regs.countSpin_eq, and_self]

/-! ### The phases of `RING_TRY_DEQ` (R132 to R140) -/

theorem phaseD0_of_live {ret : Bool → Regs W → Block W → Res W} (hlive : s.live = true) :
    phaseD0 x s ret =
      if (s.memRead (.threshold x.r)).toInt < 0 then ret false { x with th := s.memRead (.threshold x.r) } s
      else goto (.deq .d1) { x with th := s.memRead (.threshold x.r) } s := by
  simp only [phaseD0, ldOp_of_hasLoc (Block.hasLoc_of_live (l := .threshold x.r) hlive rfl), thNegative,
    decide_eq_true_eq]

theorem phaseD1_of_live (hlive : s.live = true) :
    phaseD1 x s =
      goto (.deq .d2)
        { x with
          h := s.memRead (.head x.r), hcyc := cyc s.k (s.memRead (.head x.r)),
          pos := mapPos s.cfg.rot s.k (s.memRead (.head x.r)), attempt := 0, attemptWraps := 0 }
        (s.memWrite (.head x.r) (s.memRead (.head x.r) + 1)) := by
  rw [phaseD1, faaOp_of_hasLoc (Block.hasLoc_of_live hlive rfl), Block.memWrite_k, Block.memWrite_cfg]

theorem phaseD2_of_hasLoc (hslot : s.hasLoc (slotOf x) = true) :
    phaseD2 x s = deqNext { x with entry := s.memRead (slotOf x) } s := by
  rw [phaseD2, ldOp_of_hasLoc hslot]

theorem phaseD3_of_hasLoc {ret : Bool → Regs W → Block W → Res W} (hslot : s.hasLoc (slotOf x) = true) :
    phaseD3 x s ret =
      ret true { x with idx := x.entry &&& ones s.k } (s.memWrite (slotOf x) (s.memRead (slotOf x) ||| ones s.k)) := by
  rw [phaseD3, forOp_of_hasLoc hslot, consumeMask, Block.memWrite_k, idxOf]

theorem phaseD4_of_eq (hslot : s.hasLoc (slotOf x) = true) (heq : s.memRead (slotOf x) = x.entry) :
    phaseD4 x s = goto (giveupPhase x.hint) x (s.memWrite (slotOf x) x.new) := by
  rw [phaseD4, casOp_of_eq hslot heq, if_pos rfl, giveup_eq]

theorem phaseD4_of_ne (hslot : s.hasLoc (slotOf x) = true) (hne : s.memRead (slotOf x) ≠ x.entry) :
    phaseD4 x s = deqNext { x with entry := s.memRead (slotOf x) } s := by
  rw [phaseD4, casOp_of_ne hslot hne, if_neg Bool.false_ne_true]

theorem phaseD5_of_live (hlive : s.live = true) :
    phaseD5 x s =
      if scmpLe (s.memRead (.tail x.r)) (x.h + 1) then
        goto (.cat .c0) { x with tl := s.memRead (.tail x.r), hd := x.h + 1 } s
      else goto (.deq .d6) { x with tl := s.memRead (.tail x.r) } s := by
  rw [phaseD5, ldOp_of_hasLoc (Block.hasLoc_of_live hlive rfl), startCatchup]

theorem phaseD6_of_live {ret : Bool → Regs W → Block W → Res W} (hlive : s.live = true) :
    phaseD6 x s ret =
      if (s.memRead (.threshold x.r)).toInt ≤ 0 then
        ret false { x with th := s.memRead (.threshold x.r) }
          (s.memWrite (.threshold x.r) (s.memRead (.threshold x.r) - 1))
      else
        goto (.deq .d1) { x with th := s.memRead (.threshold x.r) }
          (s.memWrite (.threshold x.r) (s.memRead (.threshold x.r) - 1)) := by
  simp only [phaseD6, fsubOp_of_hasLoc (Block.hasLoc_of_live (l := .threshold x.r) hlive rfl), thNonPositive,
    decide_eq_true_eq]

theorem phaseD7_of_live {ret : Bool → Regs W → Block W → Res W} (hlive : s.live = true) :
    phaseD7 x s ret = ret false x (s.memWrite (.threshold x.r) (s.memRead (.threshold x.r) - 1)) := by
  rw [phaseD7, fsubOp_of_hasLoc (Block.hasLoc_of_live hlive rfl)]

/-! ### The phases of `RING_CATCHUP` (R142 to R144) -/

theorem phaseC0_of_eq {leave : Regs W → Block W → Res W} (hlive : s.live = true)
    (heq : s.memRead (.tail x.r) = x.tl) :
    phaseC0 x s leave = leave x (s.memWrite (.tail x.r) x.hd) := by
  rw [phaseC0, casOp_of_eq (Block.hasLoc_of_live hlive rfl) heq, if_pos rfl]

theorem phaseC0_of_ne {leave : Regs W → Block W → Res W} (hlive : s.live = true)
    (hne : s.memRead (.tail x.r) ≠ x.tl) : phaseC0 x s leave = goto (.cat .c1) x s := by
  rw [phaseC0, casOp_of_ne (Block.hasLoc_of_live hlive rfl) hne, if_neg Bool.false_ne_true]

theorem phaseC1_of_live (hlive : s.live = true) :
    phaseC1 x s = goto (.cat .c2) { x with hd := s.memRead (.head x.r) } s := by
  rw [phaseC1, ldOp_of_hasLoc (Block.hasLoc_of_live hlive rfl)]

theorem phaseC2_of_live {leave : Regs W → Block W → Res W} (hlive : s.live = true) :
    phaseC2 x s leave =
      if scmpGe (s.memRead (.tail x.r)) x.hd then leave { x with tl := s.memRead (.tail x.r) } s
      else goto (.cat .c0) { x with tl := s.memRead (.tail x.r) } s := by
  rw [phaseC2, ldOp_of_hasLoc (Block.hasLoc_of_live hlive rfl)]

end Phases

/-! ### What a step hands on -/

theorem Left.memRead {u t : Block W} {c : Ctx W} (h : Left u t c) (l : Loc) : t.memRead l = u.memRead l := by
  obtain ⟨os, rfl⟩ := h
  cases l <;> rfl

/-- A step of `i` from `s` answers a next state of which `P` holds: every location reads there as in `u`, and nothing
but the locations listed and the running context has changed. -/
def Yields (i : Instr) (s u : Block W) (ls : List Loc) (P : Block W → Prop) : Prop :=
  ∃ t, exec i ⟨W, s⟩ = .next ⟨W, t⟩ ∧ P t ∧ Frame s t s.cur ls ∧ ∀ l, t.memRead l = u.memRead l

theorem Yields.of_left {i : Instr} {s u t : Block W} {c : Ctx W} {ls : List Loc} {P : Block W → Prop}
    (hu : Touched s ls u) (ht : Left u t c) (hP : P t) (h : blockExec i s = .next t) : Yields i s u ls P := by
  have hcur : u.cur = s.cur := hu.sameContexts.cur
  exact ⟨t, exec_next.2 h, hP, (hu.frame s.cur).trans (hcur ▸ ht.frame ls), ht.memRead⟩

section HandsOn

variable {i : Instr} {s u : Block W} {x : Regs W} {ph : Phase} {ls : List Loc} {c : Ctx W}
  (hc : s.ctx s.cur = some c) (hu : Touched s ls u)

include hc hu

/-- The running context goes on at a phase. -/
theorem yields_of_goto (h : blockExec i s = goto ph x u) : Yields i s u ls (At ph x s) :=
  .of_left hu (goto_left rfl) ⟨hu.sameContexts.setCtx_cur hc _, hu.sameContexts.out⟩ h

/-- The running context ends with an output. -/
theorem yields_of_output {o : Output W} (h : blockExec i s = .next (u.finish.emit o)) :
    Yields i s u ls fun t => t.ctx s.cur = some .idle ∧ t.out = o :: s.out :=
  .of_left hu ⟨[o], rfl⟩
    ⟨hu.sameContexts.setCtx_cur hc .idle, congrArg (o :: ·) hu.sameContexts.out⟩ h

theorem yields_of_respond {st : Status} {d : Option (Word W)} (h : blockExec i s = respond st d u) :
    Yields i s u ls fun t => t.ctx s.cur = some .idle ∧ t.out = .response s.cur ⟨st, d⟩ :: s.out :=
  yields_of_output hc hu (hu.sameContexts.cur ▸ h)

theorem yields_of_finishRing {res : RingResult W} (h : blockExec i s = finishRing res u) :
    Yields i s u ls fun t => t.ctx s.cur = some .idle ∧ t.out = .ringResult s.cur res :: s.out :=
  yields_of_output hc hu (hu.sameContexts.cur ▸ h)

/-- `RING_TRY_ENQ` returns to the operation that runs it (42_bounded_queue.md R155, R159). -/
theorem yields_of_enqReturn (h : blockExec i s = enqReturn i x u) : Yields i s u ls (EnqReturned i x s) := by
  cases i with
  | enqueue _ => exact yields_of_respond hc hu h
  | dequeue _ => exact yields_of_respond hc hu h
  | _ => exact yields_of_finishRing hc hu h

/-- `RING_TRY_DEQ` returns to the operation that runs it (42_bounded_queue.md R153, R157). -/
theorem yields_of_deqReturn {found : Bool} (h : blockExec i s = deqReturn i found x u) :
    Yields i s u ls (DeqReturned i found x s) := by
  cases i with
  | enqueue _ =>
    cases found with
    | true => exact yields_of_goto hc hu h
    | false => exact yields_of_respond hc hu h
  | dequeue _ => exact yields_of_goto hc hu h
  | _ => exact yields_of_finishRing hc hu h

/-- `RING_CATCHUP` is left to where its caller goes on (R141). -/
theorem yields_of_catLeave (h : blockExec i s = catLeave i x u) : Yields i s u ls (CatLeft i x s) := by
  cases i with
  | ringCatchup _ _ _ => exact yields_of_finishRing hc hu h
  | _ => exact yields_of_goto hc hu h

end HandsOn

/-- `deq_next` goes on as R135 says. -/
theorem yields_of_deqNext {i : Instr} {s : Block W} {x : Regs W} {c : Ctx W} (hc : s.ctx s.cur = some c)
    (h : blockExec i s = deqNext x s) : ∃ ph y, DeqNext s.cfg s.k x ph y ∧ Yields i s s [] (At ph y s) := by
  obtain ⟨ph, y, heq, hnext⟩ := deqNext_eq x s
  exact ⟨ph, y, hnext, yields_of_goto hc (.refl s []) (h.trans heq)⟩

/-- What `RING_TRY_ENQ` returns does not depend on the threshold it has read. -/
theorem enqReturned_with_th {i : Instr} {x : Regs W} {s t : Block W} (th : Word W) :
    EnqReturned i { x with th := th } s t ↔ EnqReturned i x s t := by
  cases i <;> rfl

/-! ### The hint in `deq_next` -/

/-- The phases of the loop that a dequeue with the hint runs in (R131). -/
def DeqPhase.InHintLoop (d : DeqPhase) : Prop := d = .d1 ∨ d = .d2 ∨ d = .d3 ∨ d = .d4

/-- `deq_next` leaves the hint as it was. -/
theorem DeqNext.hint_eq {p : Params} {k : Nat} {x y : Regs W} {ph : Phase} (h : DeqNext p k x ph y) :
    y.hint = x.hint := by
  simp only [DeqNext] at h
  split_ifs at h <;> obtain ⟨rfl, rfl⟩ := h <;> rfl

/-- With the hint `deq_next` stays in the loop, because `giveup` goes to `D1`. -/
theorem DeqNext.inHintLoop {p : Params} {k : Nat} {x y : Regs W} {ph : Phase} (h : DeqNext p k x ph y)
    (hhint : x.hint = true) : ∃ d, ph = .deq d ∧ d.InHintLoop := by
  have hforward {q : Prop} [Decidable q] :
      ∃ d, (if q then .deq .d4 else giveupPhase x.hint) = Phase.deq d ∧ d.InHintLoop := by
    rw [hhint]
    split
    · exact ⟨.d4, rfl, by simp [DeqPhase.InHintLoop]⟩
    · exact ⟨.d1, rfl, by simp [DeqPhase.InHintLoop]⟩
  simp only [DeqNext] at h
  split at h
  · exact ⟨.d3, h.1, by simp [DeqPhase.InHintLoop]⟩
  split at h
  · exact h.2 ▸ hforward
  split at h
  · exact ⟨.d2, h.2, by simp [DeqPhase.InHintLoop]⟩
  · exact h.2 ▸ hforward

/-! ### Frames and outcomes -/

theorem Frame.mono {s t : Block W} {c : Nat} {ls ms : List Loc} (h : Frame s t c ls) (hls : ls ⊆ ms) :
    Frame s t c ms where
  mem a ha := h.mem a fun l hl => ha l (hls hl)
  closed hc := h.closed fun hl => hc (hls hl)
  live := h.live
  order := h.order
  cfg := h.cfg
  life := h.life
  env := h.env
  cur := h.cur
  allocOk := h.allocOk
  nctx := h.nctx
  others := h.others

/-- A step has one outcome. -/
theorem exec_next_unique {i : Instr} {s t u : Block W} (ht : exec i ⟨W, s⟩ = .next ⟨W, t⟩)
    (hu : exec i ⟨W, s⟩ = .next ⟨W, u⟩) : t = u := by
  rw [exec_next] at ht hu
  exact Host.Outcome.next.inj (ht.symm.trans hu)

/-! ### The initialisations driven directly (R121, R122) -/

/-- The words an initialisation of ring `r` stores stand at its control words and slots. -/
def initLocs (order : Nat) (r : Ring) : List Loc :=
  [.head r, .threshold r, .tail r] ++ (List.range (nOf order)).map (.slot r)

theorem mem_initLocs_of_slot {order p : Nat} {r : Ring} (hp : p < nOf order) : .slot r p ∈ initLocs order r :=
  List.mem_append_right _ (List.mem_map.2 ⟨p, List.mem_range.2 hp, rfl⟩)

theorem mem_initLocs_of_controlWords {order : Nat} {r : Ring} {head threshold tail v : Word W} {l : Loc}
    (h : (l, v) ∈ controlWords r head threshold tail) : l ∈ initLocs order r := by
  rcases mem_controlWords.1 h with ⟨rfl, -⟩ | ⟨rfl, -⟩ | ⟨rfl, -⟩ <;> simp [initLocs]

theorem mem_initLocs_of_emptyWords {order : Nat} {r : Ring} {l : Loc} {v : Word W}
    (h : (l, v) ∈ emptyWords order r) : l ∈ initLocs order r := by
  rcases mem_emptyWords.1 h with ⟨p, hp, rfl, -⟩ | h
  · exact mem_initLocs_of_slot hp
  · exact mem_initLocs_of_controlWords h

theorem mem_initLocs_of_fillWords {rot order : Nat} {r : Ring} {start fin : Nat} {l : Loc} {v : Word W}
    (h : (l, v) ∈ fillWords rot order r start fin) : l ∈ initLocs order r := by
  rcases mem_fillWords.1 h with ⟨i, -, rfl, -⟩ | h
  · exact mem_initLocs_of_slot (mapPos_lt rot (kOf order) _)
  · exact mem_initLocs_of_controlWords h

/-- An initialisation that stores the words `ws` in ring `r`: each location listed reads its word, and nothing else
has changed but for the completion. -/
theorem exec_next_of_initialised {i : Instr} {s : Block W} {r : Ring} {ws : List (Loc × Word W)}
    (hws : StoresWords s.order ws) (hone : OneWordEach ws) (hlocs : ∀ l v, (l, v) ∈ ws → l ∈ initLocs s.order r)
    (h : blockExec i s = .next ((s.storeAll ws).emit (.ringResult s.cur .done))) :
    ∃ t, exec i ⟨W, s⟩ = .next ⟨W, t⟩ ∧ (∀ l v, (l, v) ∈ ws → t.memRead l = v) ∧
      t.out = .ringResult s.cur .done :: s.out ∧ t.ctx s.cur = s.ctx s.cur ∧
      Frame s t s.cur (initLocs s.order r) := by
  refine ⟨_, exec_next.2 h, fun l v hl => ?_, rfl, rfl, ?_⟩
  · rw [Block.emit_memRead, Block.storeAll_memRead hws hone hl]
  · exact (Block.storeAll_frame s.cur hws hlocs).trans (Frame.emit _ _ _ _)

theorem blockRingInitEmpty_of_live {s : Block W} (hlive : s.live = true) (r : Ring) :
    blockRingInitEmpty r s = .next ((s.storeAll (emptyWords s.order r)).emit (.ringResult s.cur .done)) := by
  rw [blockRingInitEmpty, needLive_of_live hlive, initEmpty_eq_storeAll]

theorem blockRingInitFill_of_range {s : Block W} (hlive : s.live = true) {start fin : Nat}
    (hrange : start ≤ fin ∧ fin ≤ capOf s.order) (r : Ring) :
    blockRingInitFill r start fin s =
      .next ((s.storeAll (fillWords s.cfg.rot s.order r start fin)).emit (.ringResult s.cur .done)) := by
  rw [blockRingInitFill, needLive_of_live hlive, if_pos hrange, initFill_eq_storeAll]

theorem blockRingInitFill_of_not_range {s : Block W} (hlive : s.live = true) {start fin : Nat}
    (hrange : ¬ (start ≤ fin ∧ fin ≤ capOf s.order)) (r : Ring) :
    blockRingInitFill r start fin s = .refused .badFillRange := by
  rw [blockRingInitFill, needLive_of_live hlive, if_neg hrange]

/-- `exec` refuses in the machine exactly as it does in its block. -/
theorem exec_refused {i : Instr} {s : Block W} {e : Refusal} :
    exec i ⟨W, s⟩ = .refused e ↔ blockExec i s = .refused e := by
  rw [exec_eq, ofBlock_refused]

/-! ### The looping ring operations driven directly (R123, R131, R141) -/

/-- A ring operation driven at an idle context sets the phase and the registers, and changes nothing else. -/
theorem exec_next_of_driven {i : Instr} {s : Block W} {ph : Phase} {x : Regs W} (hidle : s.ctx s.cur = some .idle)
    (h : blockExec i s = goto ph x s) (hdrv : x.drv = some i) :
    ∃ t, exec i ⟨W, s⟩ = .next ⟨W, t⟩ ∧ t.running i ph x ∧ t.out = s.out ∧ Frame s t s.cur [] :=
  ⟨_, exec_next.2 h, ⟨Block.setCtx_ctx_self s _ hidle, instr_of_drv hdrv⟩, rfl, Frame.setCtx s s.cur _ []⟩

section Driven

variable {s : Block W} (hidle : s.ctx s.cur = some .idle) (hlive : s.live = true)
  (hquiet : ∀ c ph x, s.ctx c = some (.busy ph x) → ph ≠ .x0 ∧ ph ≠ .y0) (r : Ring)

include hidle hlive hquiet

/-- Past the acceptance tests the operands decide (93_implementation_defined.md U15). -/
theorem blockRingTryEnq_of_idle (hint : Bool) (v : Nat) :
    blockRingTryEnq r hint v s =
      if capOf s.order ≤ v then .refused .badValueIndex
      else if capOf s.order ≤ s.present r then .refused .ringFull
      else startTryEnq r hint (BitVec.ofNat W v) (drivenRegs (.ringTryEnq r hint v)) s := by
  rw [blockRingTryEnq, onContext_of_idle hidle, needLive_of_live hlive, needNoLifecycle_of_none hquiet]

theorem blockRingTryDeq_of_idle (hint : Bool) :
    blockRingTryDeq r hint s = startTryDeq r hint (drivenRegs (.ringTryDeq r hint)) s := by
  rw [blockRingTryDeq, onContext_of_idle hidle, needLive_of_live hlive, needNoLifecycle_of_none hquiet]

theorem blockRingCatchup_of_idle (tl hd : Word W) :
    blockRingCatchup r tl.toNat hd.toNat s =
      startCatchup r tl hd (drivenRegs (.ringCatchup r tl.toNat hd.toNat)) s := by
  rw [blockRingCatchup, onContext_of_idle hidle, needLive_of_live hlive, needNoLifecycle_of_none hquiet]
  simp only [BitVec.ofNat_toNat, BitVec.setWidth_eq]

end Driven

/-! ### Every phase of a running operation answers -/

section Progress

variable {x : Regs W} {s : Block W}

theorem tryEnqPhase_goes {ret : Regs W → Block W → Res W} (hslot : s.hasLoc (slotOf x) = true)
    (hret : ∀ y u, ∃ t, ret y u = .next t) (e : EnqPhase) : ∃ t, tryEnqPhase e x s ret = .next t := by
  have hlive := Block.live_of_hasLoc hslot
  cases e with
  | e0 => exact ⟨_, phaseE0_of_live hlive⟩
  | e1 => exact ⟨_, phaseE1_of_hasLoc hslot⟩
  | e2 => exact ⟨_, phaseE2_of_live hlive⟩
  | e3 =>
    rw [tryEnqPhase]
    by_cases heq : s.memRead (slotOf x) = x.entry
    · rw [phaseE3_of_eq hslot heq]
      split
      · exact hret _ _
      · exact ⟨_, rfl⟩
    · exact ⟨_, phaseE3_of_ne hslot heq⟩
  | e4 =>
    rw [tryEnqPhase, phaseE4_of_live hlive]
    split
    · exact hret _ _
    · exact ⟨_, rfl⟩
  | e5 =>
    rw [tryEnqPhase, phaseE5_of_live hlive]
    exact hret _ _

theorem deqNext_goes (x : Regs W) (s : Block W) : ∃ t, deqNext x s = .next t := by
  obtain ⟨ph, y, h, -⟩ := deqNext_eq x s
  exact ⟨_, h⟩

theorem tryDeqPhase_goes {ret : Bool → Regs W → Block W → Res W} (hslot : s.hasLoc (slotOf x) = true)
    (hret : ∀ found y u, ∃ t, ret found y u = .next t) (d : DeqPhase) : ∃ t, tryDeqPhase d x s ret = .next t := by
  have hlive := Block.live_of_hasLoc hslot
  cases d with
  | d0 =>
    rw [tryDeqPhase, phaseD0_of_live hlive]
    split
    · exact hret _ _ _
    · exact ⟨_, rfl⟩
  | d1 => exact ⟨_, phaseD1_of_live hlive⟩
  | d2 =>
    rw [tryDeqPhase, phaseD2_of_hasLoc hslot]
    exact deqNext_goes _ _
  | d3 =>
    rw [tryDeqPhase, phaseD3_of_hasLoc hslot]
    exact hret _ _ _
  | d4 =>
    rw [tryDeqPhase]
    by_cases heq : s.memRead (slotOf x) = x.entry
    · exact ⟨_, phaseD4_of_eq hslot heq⟩
    · rw [phaseD4_of_ne hslot heq]
      exact deqNext_goes _ _
  | d5 =>
    rw [tryDeqPhase, phaseD5_of_live hlive]
    split <;> exact ⟨_, rfl⟩
  | d6 =>
    rw [tryDeqPhase, phaseD6_of_live hlive]
    split
    · exact hret _ _ _
    · exact ⟨_, rfl⟩
  | d7 =>
    rw [tryDeqPhase, phaseD7_of_live hlive]
    exact hret _ _ _

theorem catchupPhase_goes {leave : Regs W → Block W → Res W} (hlive : s.live = true)
    (hleave : ∀ y u, ∃ t, leave y u = .next t) (c : CatPhase) : ∃ t, catchupPhase c x s leave = .next t := by
  cases c with
  | c0 =>
    rw [catchupPhase]
    by_cases heq : s.memRead (.tail x.r) = x.tl
    · rw [phaseC0_of_eq hlive heq]
      exact hleave _ _
    · exact ⟨_, phaseC0_of_ne hlive heq⟩
  | c1 => exact ⟨_, phaseC1_of_live hlive⟩
  | c2 =>
    rw [catchupPhase, phaseC2_of_live hlive]
    split
    · exact hleave _ _
    · exact ⟨_, rfl⟩

theorem enqReturn_goes (i : Instr) (y : Regs W) (u : Block W) : ∃ t, enqReturn i y u = .next t := by
  cases i <;> exact ⟨_, rfl⟩

theorem deqReturn_goes (i : Instr) (found : Bool) (y : Regs W) (u : Block W) :
    ∃ t, deqReturn i found y u = .next t := by
  cases i with
  | enqueue _ => cases found <;> exact ⟨_, rfl⟩
  | _ => exact ⟨_, rfl⟩

theorem catLeave_goes (i : Instr) (y : Regs W) (u : Block W) : ∃ t, catLeave i y u = .next t := by
  cases i <;> exact ⟨_, rfl⟩

theorem runsEnq_of_phaseOf {i : Instr} {e : EnqPhase} (h : phaseOf i (.enq e) = true) : runsEnq i = true := by
  cases i <;> cases h <;> rfl

theorem runsDeq_of_phaseOf {i : Instr} {d : DeqPhase} (h : phaseOf i (.deq d) = true) : runsDeq i = true := by
  cases i <;> cases h <;> rfl

theorem runsCat_of_phaseOf {i : Instr} {c : CatPhase} (h : phaseOf i (.cat c) = true) : runsCat i = true := by
  cases i <;> cases h <;> rfl

theorem phaseX0_goes (x : Regs W) (s : Block W) : ∃ t, phaseX0 x s = .next t := by
  rw [phaseX0]
  split <;> exact ⟨_, rfl⟩

theorem phaseU0_goes (hloc : s.hasLoc (.val x.di.toNat) = true) : ∃ t, phaseU0 x s = .next t := by
  rw [phaseU0, ldOp_of_hasLoc hloc]
  split <;> exact ⟨_, rfl⟩

theorem phaseK0_goes (hclosed : s.hasLoc .closed = true) : ∃ t, phaseK0 x s = .next t :=
  ⟨_, faaOp_of_hasLoc hclosed⟩

theorem phaseQ0_goes (hclosed : s.hasLoc .closed = true) : ∃ t, phaseQ0 x s = .next t := by
  rw [phaseQ0, ldOp_of_hasLoc hclosed]
  split <;> exact ⟨_, rfl⟩

theorem phaseQ1_goes (hloc : s.hasLoc (.val x.idx.toNat) = true) : ∃ t, phaseQ1 x s = .next t :=
  ⟨_, stOp_of_hasLoc hloc⟩

theorem phaseP0_goes (hclosed : s.hasLoc .closed = true) : ∃ t, phaseP0 x s = .next t :=
  ⟨_, ldOp_of_hasLoc hclosed⟩

theorem phaseP1_goes (hloc : s.hasLoc (.val x.idx.toNat) = true) : ∃ t, phaseP1 x s = .next t :=
  ⟨_, ldOp_of_hasLoc hloc⟩

/-- A context as the invariant wants it finds every location it accesses, but for the value index of `Q1` and `P1`,
which the invariant says nothing of (42_bounded_queue.md R163). -/
theorem blockExec_goes {i : Instr} {ph : Phase} (hrun : s.running i ph x) (hok : CtxOk s ph x)
    (hidx : ph = .q1 ∨ ph = .p1 → x.idx.toNat < capOf s.order) : ∃ t, blockExec i s = .next t := by
  obtain ⟨j, hj, hphase, -⟩ := hok.instr
  obtain rfl : j = i := Option.some.inj (hj.symm.trans hrun.2)
  have hloc {l : Loc} (hph : ph ≠ .x0) (hl : l.inRange s.order = true) : s.hasLoc l = true :=
    Block.hasLoc_of_live (hok.live.2 hph) hl
  have hslot (hph : ph ≠ .x0) : s.hasLoc (slotOf x) = true := Block.hasLoc_slotOf (hok.live.2 hph) hok.pos
  cases ph with
  | enq e =>
    rw [blockExec_enq (runsEnq_of_phaseOf hphase) hrun]
    exact tryEnqPhase_goes (hslot (by simp)) (enqReturn_goes j) e
  | deq d =>
    rw [blockExec_deq (runsDeq_of_phaseOf hphase) hrun]
    exact tryDeqPhase_goes (hslot (by simp)) (deqReturn_goes j) d
  | cat c =>
    rw [blockExec_cat (runsCat_of_phaseOf hphase) hrun]
    exact catchupPhase_goes (hok.live.2 (by simp)) (catLeave_goes j) c
  | x0 =>
    cases j <;> cases hphase
    rw [blockExec, blockCreate, onContext_of_running hrun]
    exact phaseX0_goes x s
  | y0 =>
    cases j <;> cases hphase
    rw [blockExec, blockDestroy, onContext_of_running hrun]
    exact ⟨_, rfl⟩
  | u0 =>
    cases j <;> cases hphase
    rw [blockExec, blockDump, onContext_of_running hrun]
    exact phaseU0_goes (hloc (by simp) (decide_eq_true (hok.di rfl)))
  | k0 =>
    cases j <;> cases hphase
    rw [blockExec, blockClose, onContext_of_running hrun]
    exact phaseK0_goes (hloc (by simp) rfl)
  | q0 =>
    cases j <;> cases hphase
    rw [blockExec, blockEnqueue, onContext_of_running hrun]
    exact phaseQ0_goes (hloc (by simp) rfl)
  | q1 =>
    cases j <;> cases hphase
    rw [blockExec, blockEnqueue_of_q1 hrun]
    exact phaseQ1_goes (hloc (by simp) (decide_eq_true (hidx (.inl rfl))))
  | p0 =>
    cases j <;> cases hphase
    rw [blockExec, blockDequeue, onContext_of_running hrun]
    exact phaseP0_goes (hloc (by simp) rfl)
  | p1 =>
    cases j <;> cases hphase
    rw [blockExec, blockDequeue_of_p1 hrun]
    exact phaseP1_goes (hloc (by simp) (decide_eq_true (hidx (.inr rfl))))

end Progress

/-- No operation reads or changes what the environment does next. -/
theorem blockExec_env {i : Instr} {s t : Block W} (h : blockExec i s = .next t) : t.env = s.env := by
  cases blockExec_next h with
  | context h =>
    obtain ⟨ls, -, hf⟩ := h.frame
    exact hf.env
  | created _ _ h =>
    obtain ⟨a, x, -, rfl⟩ := h
    simp
  | destroyed _ _ h =>
    obtain ⟨a, x, -, rfl⟩ := h
    rfl
  | ringInit h =>
    obtain ⟨-, ws, o, -, rfl⟩ := h
    rfl
  | primitive h =>
    obtain ⟨u, o, hu, rfl⟩ := h
    exact (hu.frame s.cur).env

/-! ### A step granted to a busy context -/

/-- The block as it is when the step granted to context `c` runs its operation. -/
def Block.granted (s : Block W) (c : Nat) (ok : Bool) (rest : List (Event W)) : Block W :=
  { s with env := rest, cur := c, allocOk := ok }

theorem step_of_granted {s : Block W} {c : Nat} {ok : Bool} {rest : List (Event W)} {ph : Phase} {x : Regs W}
    {i : Instr} (henv : s.env = .run c ok :: rest) (hc : s.ctx c = some (.busy ph x))
    (hi : Ctx.instr (.busy ph x) = some i) : step ⟨W, s⟩ = exec i ⟨W, s.granted c ok rest⟩ :=
  step_of_fetch_run (fetch_granted_busy henv hc hi)

theorem running_granted {s : Block W} {c : Nat} {ph : Phase} {x : Regs W} {i : Instr}
    (hc : s.ctx c = some (.busy ph x)) (hi : Ctx.instr (.busy ph x) = some i) (ok : Bool) (rest : List (Event W)) :
    (s.granted c ok rest).running i ph x := ⟨hc, hi⟩

/-! ### Spinning on an empty slot (R135, 70_reset_and_hazards.md R203) -/

/-- `t` differs from `s` in context `c`, in what the environment does next and whom it named last only. -/
structure SameBut (c : Nat) (s t : Block W) : Prop where
  mem : t.mem = s.mem
  closed : t.closed = s.closed
  live : t.live = s.live
  order : t.order = s.order
  cfg : t.cfg = s.cfg
  life : t.life = s.life
  out : t.out = s.out
  others : ∀ d, d ≠ c → t.ctx d = s.ctx d

theorem SameBut.trans {c : Nat} {s t u : Block W} (h : SameBut c s t) (g : SameBut c t u) : SameBut c s u where
  mem := g.mem.trans h.mem
  closed := g.closed.trans h.closed
  live := g.live.trans h.live
  order := g.order.trans h.order
  cfg := g.cfg.trans h.cfg
  life := g.life.trans h.life
  out := g.out.trans h.out
  others d hd := (g.others d hd).trans (h.others d hd)

theorem SameBut.k {c : Nat} {s t : Block W} (h : SameBut c s t) : t.k = s.k := by
  rw [Block.k, Block.k, h.order]

theorem SameBut.hasLoc {c : Nat} {s t : Block W} (h : SameBut c s t) (l : Loc) : t.hasLoc l = s.hasLoc l := by
  rw [Block.hasLoc, Block.hasLoc, h.live, h.order]

theorem SameBut.memRead {c : Nat} {s t : Block W} (h : SameBut c s t) (l : Loc) : t.memRead l = s.memRead l := by
  cases l <;> simp only [Block.memRead, Block.addr, h.mem, h.closed, h.life, h.order, h.cfg]

/-- A granted step that comes to a change of phase. -/
theorem step_granted_goto {s : Block W} {c : Nat} {ok : Bool} {rest : List (Event W)} {ph ph' : Phase} {x y : Regs W}
    {i : Instr} (henv : s.env = .run c ok :: rest) (hc : s.ctx c = some (.busy ph x))
    (hi : Ctx.instr (.busy ph x) = some i)
    (h : blockExec i (s.granted c ok rest) = goto ph' y (s.granted c ok rest)) :
    ∃ t, step ⟨W, s⟩ = .next ⟨W, t⟩ ∧ t.ctx c = some (.busy ph' y) ∧ t.env = rest ∧ SameBut c s t := by
  refine ⟨_, (step_of_granted henv hc hi).trans (exec_next.2 h), ?_, rfl, ?_⟩
  · exact Block.setCtx_ctx_self (s.granted c ok rest) (.busy ph' y) hc
  · exact ⟨rfl, rfl, rfl, rfl, rfl, rfl, rfl, fun d hd => Block.setCtx_ctx_other _ _ hd⟩

/-- Context `c` runs `i` at `D2` with registers `x`, and its slot holds the word `w`, an empty one of an older
traversal. -/
structure AtOlderEmpty (s : Block W) (c : Nat) (i : Instr) (x : Regs W) (w : Word W) : Prop where
  ctx : s.ctx c = some (.busy (.deq .d2) x)
  instr : Ctx.instr (.busy (.deq .d2) x) = some i
  loc : s.hasLoc (slotOf x) = true
  word : s.memRead (slotOf x) = w
  empty : idxOf s.k w = bot s.k
  older : scmpLt (ecyc s.k w) x.hcyc = true
  width : s.k < W

/-- The registers `x` after a load of the empty word `w` has been counted. -/
def Regs.spun (x : Regs W) (w : Word W) : Regs W := Regs.countSpin { x with entry := w }

theorem Regs.spun_spins (x : Regs W) (w : Word W) : (x.spun w).spins = x.spins + 1 := Regs.countSpin_spins _

/-- The registers `x` when the force of the empty word `w` has been decided, `n` loads having been counted. -/
def Regs.forced (k n : Nat) (x : Regs W) (w : Word W) : Regs W :=
  { x with entry := w, attempt := BitVec.ofNat W n, attemptWraps := n / 2 ^ W, new := forceWord k x.hcyc w }

theorem Regs.forced_spun (k n : Nat) (x : Regs W) (w : Word W) : (x.spun w).forced k n w = x.forced k n w := rfl

theorem Regs.spun_with_new (k : Nat) (x : Regs W) (w : Word W) :
    { x.spun w with new := forceWord k x.hcyc w } = x.forced k (x.spins + 1) w := by
  have hattempt : (x.spun w).attempt = BitVec.ofNat W (x.spins + 1) := by
    rw [← Regs.spun_spins x w, Regs.ofNat_spins]
  have hwraps : (x.spun w).attemptWraps = (x.spins + 1) / 2 ^ W := by
    rw [← Regs.spun_spins x w, Regs.spins_div]
  rw [Regs.forced, ← hattempt, ← hwraps]
  rfl

/-- On an empty word of an older traversal `deq_next` counts, and nothing else. -/
theorem deqNext_of_olderEmpty {x : Regs W} {s : Block W} (hk : s.k < W) (hempty : idxOf s.k x.entry = bot s.k)
    (holder : scmpLt (ecyc s.k x.entry) x.hcyc = true) : deqNext x s = deqNextEmpty x s := by
  have hcycle : ecyc s.k x.entry ≠ x.hcyc := by
    intro heq
    rw [heq, scmpLt, BitVec.sub_self, BitVec.toInt_zero] at holder
    exact absurd (of_decide_eq_true holder) (lt_irrefl 0)
  have hfull : isFull s.k x.entry = false := decide_eq_false (not_not_intro ((or_nBit_eq_ecyc_iff hk).2 hempty))
  rw [deqNext, if_neg hcycle, hfull, if_neg Bool.false_ne_true]

section Spin

variable {i : Instr} {s : Block W} {c : Nat} {x : Regs W} {w : Word W} {ok : Bool} {rest : List (Event W)}
  (hi : runsDeq i = true) (hat : AtOlderEmpty s c i x w)

include hi hat

/-- A step granted at such a slot classifies it as empty. -/
theorem AtOlderEmpty.blockExec_granted (ok : Bool) (rest : List (Event W)) :
    blockExec i (s.granted c ok rest) = deqNextEmpty { x with entry := w } (s.granted c ok rest) := by
  have hword : (s.granted c ok rest).memRead (slotOf x) = w := hat.word
  have hrun := running_granted hat.ctx hat.instr ok rest
  rw [blockExec_deq hi hrun, tryDeqPhase, phaseD2_of_hasLoc (s := s.granted c ok rest) hat.loc, hword]
  exact deqNext_of_olderEmpty hat.width hat.empty hat.older

/-- While the count is below `SPIN_LIMIT` the context stays there, with one load more counted. -/
theorem AtOlderEmpty.step_spins (henv : s.env = .run c ok :: rest) (hspin : x.spins + 1 ≤ s.cfg.spinLimit) :
    ∃ t, step ⟨W, s⟩ = .next ⟨W, t⟩ ∧ AtOlderEmpty t c i (x.spun w) w ∧ t.env = rest ∧ SameBut c s t := by
  have hstep := (hat.blockExec_granted hi ok rest).trans (deqNextEmpty_of_le hspin)
  obtain ⟨t, ht, hctx, hrest, hsame⟩ := step_granted_goto henv hat.ctx hat.instr hstep
  refine ⟨t, ht, ⟨hctx, ?_, ?_, ?_, ?_, ?_, ?_⟩, hrest, hsame⟩
  · exact (instr_congr (ph := .deq .d2) rfl rfl rfl).trans hat.instr
  · exact (hsame.hasLoc _).trans hat.loc
  · exact (hsame.memRead _).trans hat.word
  · exact hsame.k ▸ hat.empty
  · exact hsame.k ▸ hat.older
  · exact hsame.k ▸ hat.width

/-- The load that passes `SPIN_LIMIT` decides to force the slot. -/
theorem AtOlderEmpty.step_forces (henv : s.env = .run c ok :: rest) (hspin : ¬ x.spins + 1 ≤ s.cfg.spinLimit) :
    ∃ t, step ⟨W, s⟩ = .next ⟨W, t⟩ ∧ t.ctx c = some (.busy (.deq .d4) (x.forced s.k (x.spins + 1) w)) ∧
      t.env = rest ∧ SameBut c s t := by
  have hstep : blockExec i (s.granted c ok rest) =
      goto (.deq .d4) { x.spun w with new := forceWord s.k x.hcyc w } (s.granted c ok rest) :=
    ((hat.blockExec_granted hi ok rest).trans (deqNextEmpty_of_gt hspin)).trans
      (congrArg (goto · _ _) (if_pos hat.older))
  rw [Regs.spun_with_new] at hstep
  exact step_granted_goto henv hat.ctx hat.instr hstep

end Spin

/-- With `n` loads left to count before `SPIN_LIMIT`, `n + 1` granted steps come to the force. -/
theorem AtOlderEmpty.run_forces {i : Instr} (hi : runsDeq i = true) {c : Nat} {w : Word W} {ok : Bool}
    {rest : List (Event W)} (n : Nat) {s : Block W} {x : Regs W} (hat : AtOlderEmpty s c i x w)
    (hn : x.spins + n = s.cfg.spinLimit) (henv : s.env = List.replicate (n + 1) (.run c ok) ++ rest) :
    ∃ t : Block W, Host.Core.run core (n + 1) ⟨W, s⟩ = .next ⟨W, t⟩ ∧
      t.ctx c = some (.busy (.deq .d4) (x.forced s.k (s.cfg.spinLimit + 1) w)) ∧ t.env = rest ∧
      SameBut c s t := by
  induction n generalizing s x with
  | zero =>
    obtain ⟨t, ht, hctx, hrest, hsame⟩ := hat.step_forces hi henv (by omega)
    rw [← hn]
    exact ⟨t, core_run_succ ht, hctx, hrest, hsame⟩
  | succ n ih =>
    obtain ⟨t, ht, hat', henv', hsame⟩ := hat.step_spins hi henv (by omega)
    have hn' : (x.spun w).spins + n = t.cfg.spinLimit := by
      rw [Regs.spun_spins, hsame.cfg]
      omega
    obtain ⟨u, hu, hctx, hrest, hsame'⟩ := ih hat' hn' henv'
    rw [Regs.forced_spun, hsame.k, hsame.cfg] at hctx
    exact ⟨u, (core_run_succ ht).trans hu, hctx, hrest, hsame.trans hsame'⟩

end RingPhases

/-! ### The statements -/

/-- Settles O31: the reservation is the old tail. -/
theorem enqReservesTail : Obligations.EnqReservesTail := by
  intro W i x s hi hrun hlive
  have hstep := (blockExec_enq hi hrun).trans (phaseE0_of_live hlive)
  obtain ⟨t, hexec, hat, hframe, hread⟩ :=
    yields_of_goto hrun.1 (.memWrite (Block.hasLoc_of_live hlive rfl) _) hstep
  exact ⟨t, hexec, by rw [hread, Block.memRead_memWrite_same], hat, hframe⟩

/-- Settles O32, from the phase `enq_next` sets. -/
theorem enqReadsSlot : Obligations.EnqReadsSlot := by
  intro W i x s hi hrun hslot
  have hstep := (blockExec_enq hi hrun).trans (phaseE1_of_hasLoc hslot)
  obtain ⟨t, hexec, hat, hframe, -⟩ := yields_of_goto hrun.1 (.refl s []) hstep
  exact ⟨t, hexec, hat, hframe⟩

/-- Settles O33: a load, and the test of R127. -/
theorem enqConsultsHead : Obligations.EnqConsultsHead := by
  intro W i x s hi hrun hlive
  have hstep := (blockExec_enq hi hrun).trans (phaseE2_of_live hlive)
  obtain ⟨t, hexec, hat, hframe, -⟩ := yields_of_goto hrun.1 (.refl s []) hstep
  exact ⟨t, hexec, hat, hframe⟩

/-- Settles O34: where the slot still holds the entry the hint says how it goes on; where not, `enq_next` does. -/
theorem enqInstalls : Obligations.EnqInstalls := by
  intro W i x s hi hrun hslot
  refine ⟨fun heq => ?installs, fun hne => ?retests⟩
  case installs =>
    have hstep := (blockExec_enq hi hrun).trans (phaseE3_of_eq hslot heq)
    have htouched := Touched.memWrite hslot (pack s.k x.t x.vidx)
    cases hhint : x.hint with
    | true =>
      rw [hhint, if_pos rfl] at hstep
      obtain ⟨t, hexec, hret, hframe, hread⟩ := yields_of_enqReturn hrun.1 htouched hstep
      exact ⟨t, hexec, by rw [hread, Block.memRead_memWrite_same], fun _ => hret, by simp, hframe⟩
    | false =>
      rw [hhint, if_neg Bool.false_ne_true] at hstep
      obtain ⟨t, hexec, hat, hframe, hread⟩ := yields_of_goto hrun.1 htouched hstep
      exact ⟨t, hexec, by rw [hread, Block.memRead_memWrite_same], by simp, fun _ => hat, hframe⟩
  case retests =>
    have hstep := (blockExec_enq hi hrun).trans (phaseE3_of_ne hslot hne)
    obtain ⟨t, hexec, hat, hframe, -⟩ := yields_of_goto hrun.1 (.refl s []) hstep
    exact ⟨t, hexec, hat, hframe⟩

/-- Settles O35: `E4` returns where the threshold is `THRESH`, and `E5` makes it so. -/
theorem enqRearmsThreshold : Obligations.EnqRearmsThreshold := by
  intro W i x s hi hlive
  refine ⟨fun hrun => ?e4, fun hrun => ?e5⟩
  case e4 =>
    have hstep := (blockExec_enq hi hrun).trans (phaseE4_of_live hlive)
    by_cases hthresh : s.memRead (.threshold x.r) = thresh s.order
    · obtain ⟨t, hexec, hret, hframe, -⟩ :=
        yields_of_enqReturn hrun.1 (.refl s []) (hstep.trans (if_pos hthresh))
      exact ⟨t, hexec, hframe, fun hne => absurd hthresh hne, fun _ => (enqReturned_with_th _).1 hret⟩
    · obtain ⟨t, hexec, hat, hframe, -⟩ := yields_of_goto hrun.1 (.refl s []) (hstep.trans (if_neg hthresh))
      exact ⟨t, hexec, hframe, fun _ => hat, fun heq => absurd heq hthresh⟩
  case e5 =>
    have hstep := (blockExec_enq hi hrun).trans (phaseE5_of_live hlive)
    obtain ⟨t, hexec, hret, hframe, hread⟩ :=
      yields_of_enqReturn hrun.1 (.memWrite (Block.hasLoc_of_live hlive rfl) _) hstep
    exact ⟨t, hexec, (hread _).trans (Block.memRead_memWrite_same s _ _), hret, hframe⟩

/-- Settles O36, by the sign of the threshold. -/
theorem deqFastEmpty : Obligations.DeqFastEmpty := by
  intro W i x s hi hrun hlive
  have hstep := (blockExec_deq hi hrun).trans (phaseD0_of_live hlive)
  by_cases hneg : (s.memRead (.threshold x.r)).toInt < 0
  · obtain ⟨t, hexec, hret, hframe, -⟩ := yields_of_deqReturn hrun.1 (.refl s []) (hstep.trans (if_pos hneg))
    exact ⟨t, hexec, hframe, fun _ => hret, fun hpos => absurd hneg hpos.not_gt⟩
  · obtain ⟨t, hexec, hat, hframe, -⟩ := yields_of_goto hrun.1 (.refl s []) (hstep.trans (if_neg hneg))
    exact ⟨t, hexec, hframe, fun h => absurd h hneg, fun _ => hat⟩

/-- Settles O37: the reservation is the old head. -/
theorem deqReservesHead : Obligations.DeqReservesHead := by
  intro W i x s hi hrun hlive
  have hstep := (blockExec_deq hi hrun).trans (phaseD1_of_live hlive)
  obtain ⟨t, hexec, hat, hframe, hread⟩ :=
    yields_of_goto hrun.1 (.memWrite (Block.hasLoc_of_live hlive rfl) _) hstep
  exact ⟨t, hexec, by rw [hread, Block.memRead_memWrite_same], hat, hframe⟩

/-- Settles O38: a load, and what `deq_next` makes of the word. -/
theorem deqReadsSlot : Obligations.DeqReadsSlot := by
  intro W i x s hi hrun hslot
  have hstep := (blockExec_deq hi hrun).trans (phaseD2_of_hasLoc hslot)
  obtain ⟨ph, y, hnext, t, hexec, hat, hframe, -⟩ := yields_of_deqNext hrun.1 hstep
  exact ⟨t, ph, y, hexec, hnext, hat, hframe⟩

/-- Settles O39: the consume mask or-ed in, and the claim returned. -/
theorem deqConsumes : Obligations.DeqConsumes := by
  intro W i x s hi hrun hslot
  have hstep := (blockExec_deq hi hrun).trans (phaseD3_of_hasLoc hslot)
  obtain ⟨t, hexec, hret, hframe, hread⟩ := yields_of_deqReturn hrun.1 (.memWrite hslot _) hstep
  exact ⟨t, hexec, by rw [hread, Block.memRead_memWrite_same], hret, hframe⟩

/-- Settles O40: the two outcomes of the `CAS`. -/
theorem deqMarksOrForces : Obligations.DeqMarksOrForces := by
  intro W i x s hi hrun hslot
  refine ⟨fun heq => ?installs, fun hne => ?reclassifies⟩
  case installs =>
    have hstep := (blockExec_deq hi hrun).trans (phaseD4_of_eq hslot heq)
    obtain ⟨t, hexec, hat, hframe, hread⟩ := yields_of_goto hrun.1 (.memWrite hslot _) hstep
    exact ⟨t, hexec, by rw [hread, Block.memRead_memWrite_same], hat, hframe⟩
  case reclassifies =>
    have hstep := (blockExec_deq hi hrun).trans (phaseD4_of_ne hslot hne)
    obtain ⟨ph, y, hnext, t, hexec, hat, hframe, -⟩ := yields_of_deqNext hrun.1 hstep
    exact ⟨t, ph, y, hexec, hnext, hat, hframe⟩

/-- Settles O41, by the test of R138. -/
theorem deqChecksTail : Obligations.DeqChecksTail := by
  intro W i x s hi hrun hlive
  have hstep := (blockExec_deq hi hrun).trans (phaseD5_of_live hlive)
  cases hcmp : scmpLe (s.memRead (.tail x.r)) (x.h + 1) with
  | true =>
    rw [hcmp, if_pos rfl] at hstep
    obtain ⟨t, hexec, hat, hframe, -⟩ := yields_of_goto hrun.1 (.refl s []) hstep
    exact ⟨t, hexec, hframe, fun _ => hat, by simp⟩
  | false =>
    rw [hcmp, if_neg Bool.false_ne_true] at hstep
    obtain ⟨t, hexec, hat, hframe, -⟩ := yields_of_goto hrun.1 (.refl s []) hstep
    exact ⟨t, hexec, hframe, by simp, fun _ => hat⟩

/-- Settles O42: `D6` by the sign of the old threshold, `D7` whatever it was. -/
theorem deqSpendsThreshold : Obligations.DeqSpendsThreshold := by
  intro W i x s hi hlive
  have htouched : Touched s [.threshold x.r] (s.memWrite (.threshold x.r) (s.memRead (.threshold x.r) - 1)) :=
    .memWrite (Block.hasLoc_of_live hlive rfl) _
  refine ⟨fun hrun => ?d6, fun hrun => ?d7⟩
  case d6 =>
    have hstep := (blockExec_deq hi hrun).trans (phaseD6_of_live hlive)
    by_cases hspent : (s.memRead (.threshold x.r)).toInt ≤ 0
    · obtain ⟨t, hexec, hret, hframe, hread⟩ :=
        yields_of_deqReturn hrun.1 htouched (hstep.trans (if_pos hspent))
      exact ⟨t, hexec, by rw [hread, Block.memRead_memWrite_same], hframe, fun _ => hret,
        fun hpos => absurd hspent hpos.not_ge⟩
    · obtain ⟨t, hexec, hat, hframe, hread⟩ := yields_of_goto hrun.1 htouched (hstep.trans (if_neg hspent))
      exact ⟨t, hexec, by rw [hread, Block.memRead_memWrite_same], hframe, fun h => absurd h hspent, fun _ => hat⟩
  case d7 =>
    have hstep := (blockExec_deq hi hrun).trans (phaseD7_of_live hlive)
    obtain ⟨t, hexec, hret, hframe, hread⟩ := yields_of_deqReturn hrun.1 htouched hstep
    exact ⟨t, hexec, by rw [hread, Block.memRead_memWrite_same], hret, hframe⟩

/-- Settles O43: a step that goes on found its location there, so it is the step of its phase. -/
theorem hintedDequeueNeverReportsEmpty : Obligations.HintedDequeueNeverReportsEmpty := by
  intro W i d x s t hi hrun hhint hd hexec
  have hstep := (blockExec_deq hi hrun).symm.trans (exec_next.1 hexec)
  obtain rfl | rfl | rfl | rfl := hd
  case inl =>
    rw [tryDeqPhase, phaseD1] at hstep
    have hlive := Block.live_of_hasLoc (faaOp_next hstep).1
    obtain ⟨u, hu, -, hat, hframe⟩ := deqReservesHead W i x s hi hrun hlive
    obtain rfl := exec_next_unique hu hexec
    exact ⟨hframe.mono (by simp), .inl ⟨_, _, hat, hhint, .inr (.inl rfl)⟩⟩
  case inr.inl =>
    rw [tryDeqPhase, phaseD2] at hstep
    obtain ⟨u, ph, y, hu, hnext, hat, hframe⟩ := deqReadsSlot W i x s hi hrun (ldOp_next hstep).1
    obtain rfl := exec_next_unique hu hexec
    obtain ⟨d, rfl, hloop⟩ := hnext.inHintLoop hhint
    exact ⟨hframe.mono (by simp), .inl ⟨d, y, hat, hnext.hint_eq.trans hhint, hloop⟩⟩
  case inr.inr.inl =>
    rw [tryDeqPhase, phaseD3] at hstep
    obtain ⟨u, hu, -, hret, hframe⟩ := deqConsumes W i x s hi hrun (forOp_next hstep).1
    obtain rfl := exec_next_unique hu hexec
    exact ⟨hframe.mono (by simp), .inr ⟨rfl, _, hret⟩⟩
  case inr.inr.inr =>
    rw [tryDeqPhase, phaseD4] at hstep
    obtain ⟨hinstalls, hreclassifies⟩ := deqMarksOrForces W i x s hi hrun (casOp_next hstep).1
    by_cases heq : s.memRead (slotOf x) = x.entry
    · obtain ⟨u, hu, -, hat, hframe⟩ := hinstalls heq
      obtain rfl := exec_next_unique hu hexec
      rw [if_pos hhint] at hat
      exact ⟨hframe.mono (by simp), .inl ⟨_, x, hat, hhint, .inl rfl⟩⟩
    · obtain ⟨u, ph, y, hu, hnext, hat, hframe⟩ := hreclassifies heq
      obtain rfl := exec_next_unique hu hexec
      obtain ⟨d, rfl, hloop⟩ := hnext.inHintLoop hhint
      exact ⟨hframe.mono (by simp), .inl ⟨d, y, hat, hnext.hint_eq.trans hhint, hloop⟩⟩

/-- Settles O44: the two outcomes of `C0`'s `CAS`, `C1`'s load, and the test of `C2`. -/
theorem catchupMovesTail : Obligations.CatchupMovesTail := by
  intro W i x s hi hlive
  refine ⟨fun hrun heq => ?moves, fun hrun hne => ?stays, fun hrun => ?c1, fun hrun => ?c2⟩
  case moves =>
    have hstep := (blockExec_cat hi hrun).trans (phaseC0_of_eq hlive heq)
    obtain ⟨t, hexec, hleft, hframe, hread⟩ :=
      yields_of_catLeave hrun.1 (.memWrite (Block.hasLoc_of_live hlive rfl) _) hstep
    exact ⟨t, hexec, by rw [hread, Block.memRead_memWrite_same], hleft, hframe⟩
  case stays =>
    have hstep := (blockExec_cat hi hrun).trans (phaseC0_of_ne hlive hne)
    obtain ⟨t, hexec, hat, hframe, -⟩ := yields_of_goto hrun.1 (.refl s []) hstep
    exact ⟨t, hexec, hat, hframe⟩
  case c1 =>
    have hstep := (blockExec_cat hi hrun).trans (phaseC1_of_live hlive)
    obtain ⟨t, hexec, hat, hframe, -⟩ := yields_of_goto hrun.1 (.refl s []) hstep
    exact ⟨t, hexec, hat, hframe⟩
  case c2 =>
    have hstep := (blockExec_cat hi hrun).trans (phaseC2_of_live hlive)
    cases hcmp : scmpGe (s.memRead (.tail x.r)) x.hd with
    | true =>
      rw [hcmp, if_pos rfl] at hstep
      obtain ⟨t, hexec, hleft, hframe, -⟩ := yields_of_catLeave hrun.1 (.refl s []) hstep
      exact ⟨t, hexec, hframe, fun _ => hleft, by simp⟩
    | false =>
      rw [hcmp, if_neg Bool.false_ne_true] at hstep
      obtain ⟨t, hexec, hat, hframe, -⟩ := yields_of_goto hrun.1 (.refl s []) hstep
      exact ⟨t, hexec, hframe, by simp, fun _ => hat⟩

/-- Settles O28, from the words the initialisation stores. -/
theorem ringInitEmptyResult : Obligations.RingInitEmptyResult := by
  intro W r s hlive
  obtain ⟨t, hexec, hread, hrest⟩ :=
    exec_next_of_initialised (i := .ringInitEmpty r) (storesWords_emptyWords s.order r) (oneWordEach_emptyWords _ _)
      (fun _ _ => mem_initLocs_of_emptyWords) (blockRingInitEmpty_of_live hlive r)
  refine ⟨t, hexec, fun p hp => hread _ _ (mem_emptyWords.2 (.inl ⟨p, hp, rfl, rfl⟩)), hread _ _ ?_, hread _ _ ?_,
    hread _ _ ?_, hrest⟩
  all_goals simp [mem_emptyWords, mem_controlWords]

/-- Settles O29: in its range it stores a word in each slot once, because `map` is one to one. -/
theorem ringInitFillResult : Obligations.RingInitFillResult := by
  intro W r start fin s hlive horder
  refine ⟨fun hrange => ?fills, fun hbad => ?refused⟩
  case fills =>
    obtain ⟨t, hexec, hread, hrest⟩ :=
      exec_next_of_initialised (i := .ringInitFill r start fin) (storesWords_fillWords s.cfg.rot s.order r start fin)
        (oneWordEach_fillWords horder _ _ _) (fun _ _ => mem_initLocs_of_fillWords)
        (blockRingInitFill_of_range hlive hrange r)
    refine ⟨t, hexec, fun i hi => hread _ _ (mem_fillWords.2 (.inl ⟨i, hi, rfl, rfl⟩)), hread _ _ ?_, hread _ _ ?_,
      hread _ _ ?_, hrest⟩
    all_goals simp [mem_fillWords, mem_controlWords, thresh, capOf]
  case refused => exact exec_refused.2 (blockRingInitFill_of_not_range hlive (by omega) r)

/-- Settles O30: each start passes the acceptance tests, and `RING_TRY_ENQ` its own two. -/
theorem drivenRingOperationsStart : Obligations.DrivenRingOperationsStart := by
  intro W s hidle hlive hquiet
  refine ⟨fun r hint v => ?enq, fun r hint => ?deq, fun r tl hd => ?catchup⟩
  case enq =>
    have hstart : blockExec (.ringTryEnq r hint v) s = _ := blockRingTryEnq_of_idle hidle hlive hquiet r hint v
    refine ⟨fun hv hpresent => ?_, fun hv => ?_, fun hv hpresent => ?_⟩
    · rw [if_neg hv.not_ge, if_neg hpresent.not_ge] at hstart
      obtain ⟨t, hexec, hrun, hrest⟩ := exec_next_of_driven hidle hstart rfl
      exact ⟨t, _, hexec, hrun, rfl, rfl, rfl, hrest⟩
    · exact exec_refused.2 (hstart.trans (if_pos hv))
    · exact exec_refused.2 (hstart.trans ((if_neg hv.not_ge).trans (if_pos hpresent)))
  case deq =>
    have hstart : blockExec (.ringTryDeq r hint) s = _ := blockRingTryDeq_of_idle hidle hlive hquiet r hint
    obtain ⟨t, hexec, hrun, hrest⟩ := exec_next_of_driven hidle hstart rfl
    exact ⟨t, _, hexec, hrun, rfl, rfl, hrest⟩
  case catchup =>
    have hstart : blockExec (.ringCatchup r tl.toNat hd.toNat) s = _ :=
      blockRingCatchup_of_idle hidle hlive hquiet r tl hd
    obtain ⟨t, hexec, hrun, hrest⟩ := exec_next_of_driven hidle hstart rfl
    exact ⟨t, _, hexec, hrun, rfl, rfl, rfl, hrest⟩

/-- Settles O11: a context as the invariant wants it finds every location its phase accesses. -/
theorem busyContextCanStep : Obligations.BusyContextCanStep := by
  intro W s c ok ph x rest hs henv hctx hidx
  have hok := hs.ctx_ok c ph x hctx
  obtain ⟨i, hi, -⟩ := hok.instr
  obtain ⟨t, ht⟩ :=
    blockExec_goes (running_granted hctx hi ok rest) (hok.congr (t := s.granted c ok rest) rfl rfl rfl) hidx
  exact ⟨t, (step_of_granted henv hctx hi).trans (exec_next.2 ht), blockExec_env ht⟩

/-- Settles O58, by induction on the loads left before `SPIN_LIMIT`. -/
theorem spinsThenForces : Obligations.SpinsThenForces := by
  intro W i x s c ok rest hi hctx hinstr hattempt hwraps hloc hempty horder holder henv
  have hspins : x.spins + s.cfg.spinLimit = s.cfg.spinLimit := by simp [Regs.spins, hattempt, hwraps]
  have hat : AtOlderEmpty s c i x (s.memRead (slotOf x)) :=
    ⟨hctx, hinstr, hloc, rfl, hempty, holder, by rw [Block.k, kOf]; omega⟩
  obtain ⟨t, hrun, hforced, hrest, hsame⟩ := AtOlderEmpty.run_forces hi s.cfg.spinLimit hat hspins henv
  exact ⟨t, hrun, hforced, hsame.mem, hsame.closed, hsame.live, hsame.order, hsame.cfg, hsame.out, hrest,
    hsame.others⟩

end Sys2Proof.Machine

/-! PROOFS. The phases of the composer, each as what it comes to; runs in which one context alone is granted steps; and
whole operations run so: the statements of 42_bounded_queue.md. -/

namespace Sys2Proof.Machine

section Composer

variable {W : Nat}

/-! ### How a step leaves its context -/

/-- `u` with its running context left as `x`, having produced the outputs `os`, newest first. -/
def Block.leave (u : Block W) (x : Ctx W) (os : List (Output W)) : Block W :=
  { u with ctxs := u.ctxs.set u.cur x, out := os ++ u.out }

theorem Block.leave_left (u : Block W) (x : Ctx W) (os : List (Output W)) : Left u (u.leave x os) x := ⟨os, rfl⟩

/-- The return of `RING_TRY_ENQ` leaves its context idle, whoever the caller is (R155, R159). -/
theorem enqReturn_eq_leave (i : Instr) (x : Regs W) (u : Block W) :
    enqReturn i x u = .next (u.leave .idle [enqOutput u.cur x i]) := by
  cases i <;> rfl

/-- What `RING_TRY_ENQ` returns is told by `val` alone. -/
theorem enqOutput_congr {x y : Regs W} (h : y.val = x.val) (c : Nat) (i : Instr) :
    enqOutput c y i = enqOutput c x i := by
  cases i <;> simp only [enqOutput, h]

/-! ### The phases of the composer (R150 to R162) -/

section Phases

variable {s : Block W} {x : Regs W} {v : Nat}

theorem blockCreate_of_not_allocOk (hrun : s.running (.create v) .x0 x) (halloc : s.allocOk = false) :
    blockCreate v s = respond .allocFail none s := by
  rw [blockCreate, onContext_of_running hrun]
  exact if_neg (Bool.eq_false_iff.1 halloc)

theorem blockEnqueue_of_q0 (hrun : s.running (.enqueue v) .q0 x) (hlive : s.live = true) :
    blockEnqueue v s =
      if s.closed = 0 then startTryDeq .fq s.cfg.fqHint { x with cl := s.closed } s
      else respond .closed none s := by
  have hld : phaseQ0 x s = _ := ldOp_of_hasLoc (Block.hasLoc_of_live hlive rfl)
  rw [blockEnqueue, onContext_of_running hrun]
  refine hld.trans ?_
  simp only [isClosed, decide_eq_true_eq, ne_eq, ite_not]
  rfl

theorem blockEnqueue_of_q1_inRange (hrun : s.running (.enqueue v) .q1 x) (hloc : s.hasLoc (.val x.idx.toNat) = true) :
    blockEnqueue v s =
      goto (.enq .e0) { x with r := .aq, hint := false, vidx := x.idx } (s.memWrite (.val x.idx.toNat) x.arg) := by
  rw [blockEnqueue_of_q1 hrun, phaseQ1, stOp_of_hasLoc hloc, startTryEnq]

theorem blockDequeue_of_p0 (hrun : s.running (.dequeue v) .p0 x) (hlive : s.live = true) :
    blockDequeue v s = respond (if s.closed = 0 then .empty else .closed) none s := by
  have hld : phaseP0 x s = _ := ldOp_of_hasLoc (Block.hasLoc_of_live hlive rfl)
  rw [blockDequeue, onContext_of_running hrun]
  refine hld.trans ?_
  simp only [isClosed, decide_eq_true_eq, ne_eq, ite_not]
  rfl

theorem blockDequeue_of_p1_inRange (hrun : s.running (.dequeue v) .p1 x) (hloc : s.hasLoc (.val x.idx.toNat) = true) :
    blockDequeue v s =
      goto (.enq .e0)
        { x with val := s.memRead (.val x.idx.toNat), r := .fq, hint := s.cfg.fqHint, vidx := x.idx } s := by
  rw [blockDequeue_of_p1 hrun, phaseP1, ldOp_of_hasLoc hloc, startTryEnq]

theorem blockClose_of_k0 (hrun : s.running (.close v) .k0 x) (hlive : s.live = true) :
    blockClose v s = respond .ok none (s.memWrite .closed (s.closed + 1)) := by
  have hfaa : phaseK0 x s = _ := faaOp_of_hasLoc (Block.hasLoc_of_live hlive rfl)
  rw [blockClose, onContext_of_running hrun]
  exact hfaa

theorem blockDestroy_of_y0 (hrun : s.running (.destroy v) .y0 x) :
    blockDestroy v s = respond .ok none s.release := by
  rw [blockDestroy, onContext_of_running hrun]
  rfl

/-- The response `DUMP` gives for `VAL[i]` (R162). -/
def dumpOutput (s : Block W) (c i : Nat) : Output W := .response c ⟨.ok, some (s.memRead (.val i))⟩

theorem toNat_eq_last_iff {order : Nat} (horder : order + 4 ≤ W) (di : Word W) :
    di = BitVec.ofNat W (capOf order - 1) ↔ di.toNat = capOf order - 1 := by
  have hcap : capOf order ≤ 2 ^ W := Nat.pow_le_pow_right (by decide) (by omega)
  have hpos : 0 < capOf order := Nat.two_pow_pos order
  rw [← BitVec.toNat_inj, BitVec.toNat_ofNat, Nat.mod_eq_of_lt (by omega)]

/-- The response of a `U0`, after which the last index ends the command and another goes up by one. -/
theorem blockDump_of_u0 (hrun : s.running (.dump v) .u0 x) (horder : s.order + 4 ≤ W)
    (hloc : s.hasLoc (.val x.di.toNat) = true) :
    blockDump v s =
      .next
        (s.leave (if x.di.toNat = capOf s.order - 1 then .idle else .busy .u0 { x with di := x.di + 1 })
          [dumpOutput s s.cur x.di.toNat]) := by
  have hu0 : blockDump v s = phaseU0 x s := by rw [blockDump, onContext_of_running hrun]
  rw [hu0, phaseU0, ldOp_of_hasLoc hloc]
  simp only [toNat_eq_last_iff horder]
  split <;> rfl

end Phases

end Composer

section Runs

variable {W : Nat}

/-! ### Runs in which one context alone is granted steps -/

/-- `s` with the words `ws` stored and the outputs `os` produced, newest first. -/
def Block.after (s : Block W) (ws : List (Loc × Word W)) (os : List (Output W)) : Block W :=
  { s.storeAll ws with out := os ++ s.out }

theorem Block.after_memRead (s : Block W) (ws : List (Loc × Word W)) (os : List (Output W)) (l : Loc) :
    (s.after ws os).memRead l = (s.storeAll ws).memRead l := by
  cases l <;> rfl

/-- A location none of the words listed is stored at reads as before. -/
theorem Block.storeAll_memRead_of_notMem {s : Block W} {ws : List (Loc × Word W)} {l : Loc}
    (hws : StoresWords s.order ws) (hl : l.inRange s.order = true) (hnot : ∀ v, (l, v) ∉ ws) :
    (s.storeAll ws).memRead l = s.memRead l := by
  by_cases hclosed : l = .closed
  · subst hclosed
    rfl
  · have hread : Mem.read (s.storeAll ws).mem (s.addr l) = Mem.read s.mem (s.addr l) := by
      refine Block.storeAll_read_of_notMem fun m v hm haddr => ?_
      obtain rfl : l = m := offset_inj hl (hws m v hm).1 haddr
      exact hnot v hm
    rw [Block.memRead_of_ne_closed _ hclosed, Block.memRead_of_ne_closed _ hclosed, Block.storeAll_addr, hread]
    rfl

theorem SameBut.memRead_of_notMem {c : Nat} {s t : Block W} {ws : List (Loc × Word W)} {os : List (Output W)}
    (h : SameBut c (s.after ws os) t) (hws : StoresWords s.order ws) {l : Loc} (hl : l.inRange s.order = true)
    (hnot : ∀ v, (l, v) ∉ ws) : t.memRead l = s.memRead l := by
  rw [h.memRead, Block.after_memRead, Block.storeAll_memRead_of_notMem hws hl hnot]

/-- A step of context `c` that stores the words `vs` and produces `ps`, after the words `ws` and the outputs `os`. -/
theorem SameBut.after_leave {c : Nat} {s t : Block W} {ws vs : List (Loc × Word W)} {os ps : List (Output W)}
    (h : SameBut c (s.after ws os) t) (hcur : t.cur = c) (x : Ctx W) :
    SameBut c (s.after (ws ++ vs) (ps ++ os)) ((t.storeAll vs).leave x ps) where
  mem := by
    have haddr (l : Loc) : t.addr l = s.addr l := by rw [Block.addr, Block.addr, h.cfg, h.order]; rfl
    have hmem : t.mem = Mem.writeAll s.mem (ws.map fun w => (s.addr w.1, w.2)) := h.mem
    simp only [Block.leave, Block.after, Block.storeAll, List.map_append, Mem.writeAll_append, haddr, hmem]
  closed := h.closed
  live := h.live
  order := h.order
  cfg := h.cfg
  life := h.life
  out := by
    have hout : t.out = os ++ s.out := h.out
    simp only [Block.leave, Block.after, Block.storeAll_out, hout, List.append_assoc]
  others d hd := by
    subst hcur
    exact (Block.setCtx_ctx_other t x hd).trans (h.others d hd)

/-- The run of `n` steps from `s` answers a next state: context `c` is left as `x` there, the events `rest` are still
to come, the words `ws` have been stored and the outputs `os` produced, and nothing else has changed. -/
def Reaches (n : Nat) (s : Block W) (c : Nat) (rest : List (Event W)) (x : Ctx W) (ws : List (Loc × Word W))
    (os : List (Output W)) : Prop :=
  ∃ t : Block W, Host.Core.run core n ⟨W, s⟩ = .next ⟨W, t⟩ ∧ t.ctx c = some x ∧ t.env = rest ∧
    SameBut c (s.after ws os) t

theorem Reaches.zero {s : Block W} {c : Nat} {rest : List (Event W)} {x : Ctx W} (hctx : s.ctx c = some x)
    (henv : s.env = rest) : Reaches 0 s c rest x [] [] :=
  ⟨s, rfl, hctx, henv, rfl, rfl, rfl, rfl, rfl, rfl, rfl, fun _ _ => rfl⟩

/-- A run whose last step goes on too. -/
theorem core_run_succ_last {n : Nat} {s t u : State} (h : Host.Core.run core n s = .next t) (hstep : step t = .next u) :
    Host.Core.run core (n + 1) s = .next u := by
  induction n generalizing s with
  | zero =>
    obtain rfl := Host.Outcome.next.inj h
    exact core_run_succ hstep
  | succ n ih =>
    simp only [Host.Core.run] at h
    split at h
    · next s' hs' => exact (core_run_succ hs').trans (ih h)
    · cases h
    · cases h

/-- The operation a context runs stays the same while the registers that tell it do. -/
theorem instr_carried {ph ph' : Phase} {x y : Regs W} {i : Instr} (h : Ctx.instr (.busy ph x) = some i)
    (hop : y.op = x.op := by rfl) (harg : y.arg = x.arg := by rfl) (hdrv : y.drv = x.drv := by rfl) :
    Ctx.instr (.busy ph' y) = some i :=
  (instr_congr hop harg hdrv).trans h

section Step

variable {n : Nat} {s : Block W} {c : Nat} {rest : List (Event W)} {x : Ctx W} {ws vs : List (Loc × Word W)}
  {os ps : List (Output W)} {i : Instr}

/-- The block as it is when a packet presented to context `c` is accepted. -/
def Block.presented (s : Block W) (c : Nat) (rest : List (Event W)) : Block W := { s with env := rest, cur := c }

/-- A packet presented to an idle context, and accepted. -/
theorem Reaches.of_accepted {p : Packet W} {ph : Phase} {y : Regs W} (henv : s.env = .present c p :: rest)
    (hidle : s.ctx c = some .idle) (hdec : decode p = .ok i)
    (hstep : blockExec i (s.presented c rest) = goto ph y (s.presented c rest)) :
    Reaches 1 s c rest (.busy ph y) [] [] := by
  refine ⟨_, core_run_succ ((step_of_fetch_run (fetch_presented_idle henv hidle hdec)).trans (exec_next.2 hstep)), ?_,
    rfl, rfl, rfl, rfl, rfl, rfl, rfl, rfl, fun d hd => ?_⟩
  · exact Block.setCtx_ctx_self s _ hidle
  · exact Block.setCtx_ctx_other s _ hd

/-- A step granted to a busy context, by what its phase does in the block that runs it. -/
theorem Reaches.step {ok : Bool} {ph : Phase} {y : Regs W}
    (h : Reaches n s c (.run c ok :: rest) (.busy ph y) ws os) (hinstr : Ctx.instr (.busy ph y) = some i)
    (hstep : ∀ t : Block W, SameBut c (s.after ws os) t → t.cur = c → t.running i ph y →
      blockExec i t = .next ((t.storeAll vs).leave x ps)) :
    Reaches (n + 1) s c rest x (ws ++ vs) (ps ++ os) := by
  obtain ⟨t, hrun, hctx, henv, hsame⟩ := h
  have hsame' : SameBut c (s.after ws os) (t.granted c ok rest) := { hsame with }
  have hnext := exec_next.2 (hstep _ hsame' rfl (running_granted hctx hinstr ok rest))
  refine ⟨_, core_run_succ_last hrun ((step_of_granted henv hctx hinstr).trans hnext), ?_, rfl,
    hsame'.after_leave rfl x⟩
  exact Block.setCtx_ctx_self t x hctx

end Step

/-! ### `DUMP` alone (R162) -/

section Dump

variable {s : Block W} {c v n : Nat} {ok : Bool} {rest : List (Event W)} {x : Regs W} {os : List (Output W)}
  (hlive : s.live = true) (horder : s.order + 4 ≤ W)

include hlive horder

/-- The step granted at an index of the value array. -/
theorem Reaches.dumpOne (h : Reaches n s c (.run c ok :: rest) (.busy .u0 x) [] os)
    (hinstr : Ctx.instr (.busy .u0 x) = some (.dump v)) (hdi : x.di.toNat < capOf s.order) :
    Reaches (n + 1) s c rest
      (if x.di.toNat = capOf s.order - 1 then .idle else .busy .u0 { x with di := x.di + 1 }) []
      (dumpOutput s c x.di.toNat :: os) := by
  refine h.step (vs := []) (ps := [_]) hinstr fun t ht hcur hrun => ?_
  have hread : t.memRead (.val x.di.toNat) = s.memRead (.val x.di.toNat) := ht.memRead _
  have hloc : t.hasLoc (.val x.di.toNat) = true :=
    (ht.hasLoc _).trans (Block.hasLoc_of_live (s := s) hlive (decide_eq_true hdi))
  have horder' : t.order = s.order := ht.order
  rw [blockExec, blockDump_of_u0 hrun (horder' ▸ horder) hloc, horder', dumpOutput, hread, hcur]
  rfl

/-- With `m + 1` value words left to answer, `m + 1` granted steps answer them in ascending order. -/
theorem Reaches.dump (m : Nat)
    (h : Reaches n s c (List.replicate (m + 1) (.run c ok) ++ rest) (.busy .u0 x) [] os)
    (hinstr : Ctx.instr (.busy .u0 x) = some (.dump v)) (hdi : x.di.toNat + (m + 1) = capOf s.order) :
    Reaches (n + (m + 1)) s c rest .idle []
      (((List.range' x.di.toNat (m + 1)).map (dumpOutput s c)).reverse ++ os) := by
  induction m generalizing n x os with
  | zero =>
    have hone := h.dumpOne hlive horder hinstr (by omega)
    rwa [if_pos (by omega)] at hone
  | succ m ih =>
    have hcap : capOf s.order ≤ 2 ^ W := Nat.pow_le_pow_right (by decide) (by omega)
    have hnext : (x.di + 1).toNat = x.di.toNat + 1 := by
      simp [BitVec.toNat_add, Nat.mod_eq_of_lt (show x.di.toNat + 1 < 2 ^ W by omega)]
    have hone := h.dumpOne hlive horder hinstr (by omega)
    rw [if_neg (by omega)] at hone
    have hrest := ih hone (instr_carried hinstr) (show (x.di + 1).toNat + (m + 1) = _ by omega)
    rw [hnext, Nat.add_assoc, Nat.add_comm 1] at hrest
    rwa [List.range'_succ, List.map_cons, List.reverse_cons, List.append_assoc]

end Dump

/-- No location is listed twice. -/
theorem oneWordEach_of_nodup {ws : List (Loc × Word W)} (h : (ws.map Prod.fst).Nodup) : OneWordEach ws :=
  fun _ _ _ hv hw => (Prod.mk.inj (List.inj_on_of_nodup_map h hv hw rfl)).2

theorem StoresWords.mono {order : Nat} {ws vs : List (Loc × Word W)} (h : StoresWords order ws) (hvs : vs ⊆ ws) :
    StoresWords order vs := fun l v hl => h l v (hvs hl)

section End

variable {c : Nat} {s t : Block W} {ws : List (Loc × Word W)} {os : List (Output W)}

/-- Each word stored is read at its location. -/
theorem SameBut.memRead_of_mem (h : SameBut c (s.after ws os) t) (hws : StoresWords s.order ws)
    (hone : (ws.map Prod.fst).Nodup) {l : Loc} {v : Word W} (hl : (l, v) ∈ ws) : t.memRead l = v := by
  rw [h.memRead, Block.after_memRead, Block.storeAll_memRead hws (oneWordEach_of_nodup hone) hl]

/-- No other word of the block has changed. -/
theorem SameBut.read_of_notMem (h : SameBut c (s.after ws os) t) {b : Nat}
    (hb : ∀ l ∈ ws.map Prod.fst, b ≠ s.addr l) :
    Mem.read t.mem b = Mem.read s.mem b := by
  rw [h.mem]
  exact Block.storeAll_read_of_notMem fun l v hl => hb l (List.mem_map.2 ⟨(l, v), hl, rfl⟩)

end End

section Accesses

variable {n : Nat} {s : Block W} {c : Nat} {ok : Bool} {rest : List (Event W)} {ph ph' : Phase} {x y : Regs W}
  {ws : List (Loc × Word W)} {os : List (Output W)} {i : Instr}
  (h : Reaches n s c (.run c ok :: rest) (.busy ph x) ws os) (hinstr : Ctx.instr (.busy ph x) = some i)

include h hinstr

/-- A granted step that stores nothing and goes on. -/
theorem Reaches.goes
    (hstep : ∀ t : Block W, SameBut c (s.after ws os) t → t.running i ph x → blockExec i t = goto ph' y t) :
    Reaches (n + 1) s c rest (.busy ph' y) ws os := by
  have hreach := h.step (vs := []) (ps := []) hinstr fun t ht _ hrun => hstep t ht hrun
  rwa [List.append_nil] at hreach

/-- A granted step that stores one word and goes on. -/
theorem Reaches.stores {l : Loc} {v : Word W} (hl : l ≠ .closed)
    (hstep : ∀ t : Block W, SameBut c (s.after ws os) t → t.running i ph x →
      blockExec i t = goto ph' y (t.memWrite l v)) :
    Reaches (n + 1) s c rest (.busy ph' y) (ws ++ [(l, v)]) os := by
  refine h.step (ps := []) hinstr fun t ht _ hrun => ?_
  rw [hstep t ht hrun, Block.storeAll_cons t [] hl]
  rfl

end Accesses

/-! ### The claim of an index alone (41_ring_buffer.md R132 to R136) -/

/-- The slot that a counter of ring `r` stands for. -/
def Block.slotAt (s : Block W) (r : Ring) (n : Word W) : Loc := .slot r (mapPos s.cfg.rot s.k n).toNat

theorem Block.slotAt_inRange (s : Block W) (r : Ring) (n : Word W) : (s.slotAt r n).inRange s.order = true :=
  decide_eq_true (mapPos_lt_nOf s n)

/-- Ring `r` has the entry `w` ready at its head `hd`: the slot holds an index of the head's own traversal, and the
threshold does not report empty. -/
structure ClaimReady (s : Block W) (r : Ring) (hd w : Word W) : Prop where
  live : s.live = true
  threshold : 0 ≤ (s.memRead (.threshold r)).toInt
  head : s.memRead (.head r) = hd
  slot : s.memRead (s.slotAt r hd) = w
  cycle : ecyc s.k w = cyc s.k hd

/-- The words a claim of the entry `w` stores. -/
def claimWords (s : Block W) (r : Ring) (hd w : Word W) : List (Loc × Word W) :=
  [(.head r, hd + 1), (s.slotAt r hd, w ||| ones s.k)]

theorem storesWords_claimWords (s : Block W) (r : Ring) (hd w : Word W) :
    StoresWords s.order (claimWords s r hd w) := by
  intro l v hl
  rcases List.mem_pair.1 hl with hl | hl <;> cases hl
  · exact ⟨rfl, by simp⟩
  · exact ⟨s.slotAt_inRange r hd, by simp [Block.slotAt]⟩

theorem ringOf_of_mem_claimWords {s : Block W} {r : Ring} {hd w : Word W} {l : Loc} {v : Word W}
    (h : (l, v) ∈ claimWords s r hd w) : ringOf l = some r := by
  rcases List.mem_pair.1 h with h | h <;> cases h <;> rfl

/-- The registers `x` with the counter `hd` reserved. -/
def Regs.reservedHead (s : Block W) (x : Regs W) (hd : Word W) : Regs W :=
  { x with
    th := s.memRead (.threshold x.r), h := hd, hcyc := cyc s.k hd, pos := mapPos s.cfg.rot s.k hd, attempt := 0,
    attemptWraps := 0 }

/-- The registers `x` after the entry `w` has been claimed under the counter `hd`. -/
def Regs.claimed (s : Block W) (x : Regs W) (hd w : Word W) : Regs W :=
  { x.reservedHead s hd with entry := w, idx := idxOf s.k w }

theorem Regs.claimed_idx (s : Block W) (x : Regs W) (hd w : Word W) : (x.claimed s hd w).idx = idxOf s.k w := rfl

theorem deqNext_of_cycle {x : Regs W} {s : Block W} (h : ecyc s.k x.entry = x.hcyc) :
    deqNext x s = goto (.deq .d3) x s := if_pos h

section Claim

variable {n : Nat} {s : Block W} {c : Nat} {ok : Bool} {rest : List (Event W)} {x : Regs W} {i : Instr} {ph : Phase}
  {hd w : Word W} (hi : runsDeq i = true) (hready : ClaimReady s x.r hd w)
  (hinstr : Ctx.instr (.busy (.deq .d0) x) = some i)

include hready in
/-- The entry is there, and still the same once the head has moved. -/
theorem ClaimReady.slot_of_reserved {t : Block W} (ht : SameBut c (s.after [(.head x.r, hd + 1)] []) t) :
    t.hasLoc (s.slotAt x.r hd) = true ∧ t.memRead (s.slotAt x.r hd) = w := by
  have hws : StoresWords s.order [(Loc.head x.r, hd + 1)] :=
    (storesWords_claimWords s x.r hd w).mono (by simp [claimWords])
  refine ⟨(ht.hasLoc _).trans (Block.hasLoc_of_live (s := s) hready.live (s.slotAt_inRange _ _)), ?_⟩
  rw [ht.memRead_of_notMem hws (s.slotAt_inRange _ _) (by simp [Block.slotAt]), hready.slot]

include hi hready hinstr

/-- `D0`: the threshold does not report empty. -/
theorem Reaches.claim_d0 (h : Reaches n s c (.run c ok :: rest) (.busy (.deq .d0) x) [] []) :
    Reaches (n + 1) s c rest (.busy (.deq .d1) { x with th := s.memRead (.threshold x.r) }) [] [] := by
  refine h.goes hinstr fun t ht hrun => ?_
  have hth : t.memRead (.threshold x.r) = s.memRead (.threshold x.r) := ht.memRead _
  rw [blockExec_deq hi hrun, tryDeqPhase, phaseD0_of_live (ht.live.trans hready.live), hth,
    if_neg hready.threshold.not_gt]

/-- `D1`: the head is reserved and moves. -/
theorem Reaches.claim_d1
    (h : Reaches n s c (.run c ok :: rest) (.busy (.deq .d1) { x with th := s.memRead (.threshold x.r) }) [] []) :
    Reaches (n + 1) s c rest (.busy (.deq .d2) (x.reservedHead s hd)) [(.head x.r, hd + 1)] [] := by
  refine h.stores (instr_carried hinstr) (by simp) fun t ht hrun => ?_
  have hhead : t.memRead (.head x.r) = hd := (ht.memRead _).trans hready.head
  have hk : t.k = s.k := ht.k
  have hcfg : t.cfg = s.cfg := ht.cfg
  rw [blockExec_deq hi hrun, tryDeqPhase, phaseD1_of_live (ht.live.trans hready.live), hhead, hk, hcfg]
  rfl

/-- `D2`: the entry is of the head's own traversal. -/
theorem Reaches.claim_d2
    (h : Reaches n s c (.run c ok :: rest) (.busy (.deq .d2) (x.reservedHead s hd)) [(.head x.r, hd + 1)] []) :
    Reaches (n + 1) s c rest (.busy (.deq .d3) { x.reservedHead s hd with entry := w }) [(.head x.r, hd + 1)] [] := by
  refine h.goes (instr_carried hinstr) fun t ht hrun => ?_
  obtain ⟨hloc, hread⟩ := hready.slot_of_reserved ht
  have hcycle : ecyc t.k w = cyc s.k hd := (congrArg (ecyc · w) ht.k).trans hready.cycle
  have hload : phaseD2 (x.reservedHead s hd) t =
      deqNext { x.reservedHead s hd with entry := t.memRead (s.slotAt x.r hd) } t := phaseD2_of_hasLoc hloc
  rw [blockExec_deq hi hrun, tryDeqPhase, hload, hread, deqNext_of_cycle hcycle]

/-- `D3`: the slot is emptied, and the claim returns to its caller. -/
theorem Reaches.claim_d3 (hret : ∀ (y : Regs W) (u : Block W), deqReturn i true y u = goto ph y u)
    (h : Reaches n s c (.run c ok :: rest) (.busy (.deq .d3) { x.reservedHead s hd with entry := w })
      [(.head x.r, hd + 1)] []) :
    Reaches (n + 1) s c rest (.busy ph (x.claimed s hd w)) (claimWords s x.r hd w) [] := by
  refine h.stores (instr_carried hinstr) (by simp [Block.slotAt]) fun t ht hrun => ?_
  obtain ⟨hloc, hread⟩ := hready.slot_of_reserved ht
  have hk : t.k = s.k := ht.k
  have hconsume : phaseD3 { x.reservedHead s hd with entry := w } t (deqReturn i) =
      deqReturn i true { x.reservedHead s hd with entry := w, idx := w &&& ones t.k }
        (t.memWrite (s.slotAt x.r hd) (t.memRead (s.slotAt x.r hd) ||| ones t.k)) := phaseD3_of_hasLoc hloc
  rw [blockExec_deq hi hrun, tryDeqPhase, hconsume, hret, hread, hk]
  rfl

/-- Four granted steps claim the entry: the threshold test, the reservation, the load, the consume. -/
theorem Reaches.claim (hret : ∀ (y : Regs W) (u : Block W), deqReturn i true y u = goto ph y u)
    (h : Reaches n s c (List.replicate 4 (.run c ok) ++ rest) (.busy (.deq .d0) x) [] []) :
    Reaches (n + 4) s c rest (.busy ph (x.claimed s hd w)) (claimWords s x.r hd w) [] :=
  Reaches.claim_d3 hi hready hinstr hret
    (Reaches.claim_d2 hi hready hinstr (Reaches.claim_d1 hi hready hinstr (Reaches.claim_d0 hi hready hinstr h)))

end Claim

/-! ### The publication of an index alone (41_ring_buffer.md R124 to R130) -/

/-- Ring `r` can take an index at its tail `tl`: the slot holds a safe empty word `a` of an older traversal, and the
threshold is to be armed again. -/
structure PublishReady (s : Block W) (r : Ring) (tl a : Word W) : Prop where
  live : s.live = true
  threshold : s.memRead (.threshold r) ≠ thresh s.order
  tail : s.memRead (.tail r) = tl
  slot : s.memRead (s.slotAt r tl) = a
  empty : ecyc s.k a = a
  older : scmpLt a (cyc s.k tl) = true

/-- The words a publication of the index `idx` stores. -/
def publishWords (s : Block W) (r : Ring) (tl idx : Word W) : List (Loc × Word W) :=
  [(.tail r, tl + 1), (s.slotAt r tl, pack s.k tl idx), (.threshold r, thresh s.order)]

theorem storesWords_publishWords (s : Block W) (r : Ring) (tl idx : Word W) :
    StoresWords s.order (publishWords s r tl idx) := by
  intro l v hl
  simp only [publishWords, List.mem_cons, Prod.mk.injEq, List.not_mem_nil, or_false] at hl
  rcases hl with ⟨rfl, -⟩ | ⟨rfl, -⟩ | ⟨rfl, -⟩
  · exact ⟨rfl, by simp⟩
  · exact ⟨s.slotAt_inRange r tl, by simp [Block.slotAt]⟩
  · exact ⟨rfl, by simp⟩

/-- The words listed are words of the block outside ring `r`. -/
structure Elsewhere (order : Nat) (r : Ring) (ws : List (Loc × Word W)) : Prop where
  stores : StoresWords order ws
  ring : ∀ l v, (l, v) ∈ ws → ringOf l ≠ some r

/-- Of ring `r` the words stored elsewhere leave everything, and a publication everything it has not stored yet. -/
theorem SameBut.memRead_of_elsewhere {c : Nat} {s t : Block W} {r : Ring} {tl idx : Word W}
    {ws vs : List (Loc × Word W)} {os : List (Output W)} (ht : SameBut c (s.after (ws ++ vs) os) t)
    (hws : Elsewhere s.order r ws) (hvs : vs ⊆ publishWords s r tl idx) {l : Loc} (hl : l.inRange s.order = true)
    (hr : ringOf l = some r) (hnot : ∀ v, (l, v) ∉ vs) : t.memRead l = s.memRead l := by
  refine ht.memRead_of_notMem (hws.stores.append ((storesWords_publishWords s r tl idx).mono hvs)) hl fun v hv => ?_
  rcases List.mem_append.1 hv with hv | hv
  · exact hws.ring l v hv hr
  · exact hnot v hv

/-- A safe empty word of an older traversal is admissible at once (R126). -/
theorem enqNextPhase_of_safe {k : Nat} {tcyc a : Word W} (hempty : ecyc k a = a) (holder : scmpLt a tcyc = true) :
    enqNextPhase k tcyc a = .enq .e3 := if_pos ⟨hempty.symm ▸ holder, hempty.symm⟩

/-- The registers `x` with the counter `tl` reserved. -/
def Regs.reservedTail (s : Block W) (x : Regs W) (tl : Word W) : Regs W :=
  { x with t := tl, tcyc := cyc s.k tl, pos := mapPos s.cfg.rot s.k tl }

section Publish

variable {n : Nat} {s : Block W} {c : Nat} {ok : Bool} {rest : List (Event W)} {x : Regs W} {i : Instr}
  {tl a : Word W} {ws : List (Loc × Word W)} (hi : runsEnq i = true) (hready : PublishReady s x.r tl a)
  (hws : Elsewhere s.order x.r ws) (hinstr : Ctx.instr (.busy (.enq .e0) x) = some i)

include hready hws in
/-- The slot is there, and still the same once the tail has moved. -/
theorem PublishReady.slot_of_reserved {t : Block W} (ht : SameBut c (s.after (ws ++ [(.tail x.r, tl + 1)]) []) t) :
    t.hasLoc (s.slotAt x.r tl) = true ∧ t.memRead (s.slotAt x.r tl) = a := by
  refine ⟨(ht.hasLoc _).trans (Block.hasLoc_of_live (s := s) hready.live (s.slotAt_inRange _ _)), ?_⟩
  rw [ht.memRead_of_elsewhere (tl := tl) (idx := x.vidx) hws (by simp [publishWords]) (s.slotAt_inRange _ _) rfl
    (by simp [Block.slotAt]), hready.slot]

include hi hready hws hinstr

/-- `E0`: the tail is reserved and moves. -/
theorem Reaches.publish_e0 (h : Reaches n s c (.run c ok :: rest) (.busy (.enq .e0) x) ws []) :
    Reaches (n + 1) s c rest (.busy (.enq .e1) (x.reservedTail s tl)) (ws ++ [(.tail x.r, tl + 1)]) [] := by
  refine h.stores hinstr (by simp) fun t ht hrun => ?_
  have htail : t.memRead (.tail x.r) = tl :=
    (ht.memRead_of_notMem hws.stores rfl fun v hv => hws.ring _ v hv rfl).trans hready.tail
  have hk : t.k = s.k := ht.k
  have hcfg : t.cfg = s.cfg := ht.cfg
  rw [blockExec_enq hi hrun, tryEnqPhase, phaseE0_of_live (ht.live.trans hready.live), htail, hk, hcfg]
  rfl

/-- `E1`: the slot is admissible. -/
theorem Reaches.publish_e1
    (h : Reaches n s c (.run c ok :: rest) (.busy (.enq .e1) (x.reservedTail s tl)) (ws ++ [(.tail x.r, tl + 1)]) []) :
    Reaches (n + 1) s c rest (.busy (.enq .e3) { x.reservedTail s tl with entry := a })
      (ws ++ [(.tail x.r, tl + 1)]) [] := by
  refine h.goes (instr_carried hinstr) fun t ht hrun => ?_
  obtain ⟨hloc, hread⟩ := hready.slot_of_reserved hws ht
  have hk : t.k = s.k := ht.k
  have hload : phaseE1 (x.reservedTail s tl) t =
      goto (enqNextPhase t.k (cyc s.k tl) (t.memRead (s.slotAt x.r tl)))
        { x.reservedTail s tl with entry := t.memRead (s.slotAt x.r tl) } t := phaseE1_of_hasLoc hloc
  rw [blockExec_enq hi hrun, tryEnqPhase, hload, hread, hk, enqNextPhase_of_safe hready.empty hready.older]

/-- `E3`: the slot still holds what `E1` read, so the word is installed. -/
theorem Reaches.publish_e3 (hhint : x.hint = false)
    (h : Reaches n s c (.run c ok :: rest) (.busy (.enq .e3) { x.reservedTail s tl with entry := a })
      (ws ++ [(.tail x.r, tl + 1)]) []) :
    Reaches (n + 1) s c rest (.busy (.enq .e4) { x.reservedTail s tl with entry := a })
      (ws ++ [(.tail x.r, tl + 1), (s.slotAt x.r tl, pack s.k tl x.vidx)]) [] := by
  have hstores := h.stores (y := { x.reservedTail s tl with entry := a }) (ph' := .enq .e4) (l := s.slotAt x.r tl)
    (v := pack s.k tl x.vidx) (instr_carried hinstr) (by simp [Block.slotAt]) fun t ht hrun => ?_
  · rwa [List.append_assoc] at hstores
  obtain ⟨hloc, hread⟩ := hready.slot_of_reserved hws ht
  have hk : t.k = s.k := ht.k
  have hinstall : phaseE3 { x.reservedTail s tl with entry := a } t (enqReturn i) =
      if x.hint then enqReturn i _ _
      else goto (.enq .e4) { x.reservedTail s tl with entry := a }
        (t.memWrite (s.slotAt x.r tl) (pack t.k tl x.vidx)) := phaseE3_of_eq hloc hread
  rw [blockExec_enq hi hrun, tryEnqPhase, hinstall, hhint, if_neg Bool.false_ne_true, hk]

/-- `E4`: the threshold is not armed. -/
theorem Reaches.publish_e4
    (h : Reaches n s c (.run c ok :: rest) (.busy (.enq .e4) { x.reservedTail s tl with entry := a })
      (ws ++ [(.tail x.r, tl + 1), (s.slotAt x.r tl, pack s.k tl x.vidx)]) []) :
    Reaches (n + 1) s c rest
      (.busy (.enq .e5) { x.reservedTail s tl with entry := a, th := s.memRead (.threshold x.r) })
      (ws ++ [(.tail x.r, tl + 1), (s.slotAt x.r tl, pack s.k tl x.vidx)]) [] := by
  refine h.goes (instr_carried hinstr) fun t ht hrun => ?_
  have horder : t.order = s.order := ht.order
  have hth : t.memRead (.threshold x.r) = s.memRead (.threshold x.r) :=
    ht.memRead_of_elsewhere (tl := tl) (idx := x.vidx) hws (by simp [publishWords]) rfl rfl (by simp [Block.slotAt])
  have hne : t.memRead (.threshold x.r) ≠ thresh t.order := by
    rw [hth, horder]
    exact hready.threshold
  rw [blockExec_enq hi hrun, tryEnqPhase, ← hth]
  exact (phaseE4_of_live (ht.live.trans hready.live)).trans (if_neg hne)

omit hws in
/-- `E5`: the threshold is armed, and the publication returns to its caller. -/
theorem Reaches.publish_e5
    (h : Reaches n s c (.run c ok :: rest)
      (.busy (.enq .e5) { x.reservedTail s tl with entry := a, th := s.memRead (.threshold x.r) })
      (ws ++ [(.tail x.r, tl + 1), (s.slotAt x.r tl, pack s.k tl x.vidx)]) []) :
    Reaches (n + 1) s c rest .idle (ws ++ publishWords s x.r tl x.vidx) [enqOutput c x i] := by
  have hends := h.step (x := .idle) (vs := [(.threshold x.r, thresh s.order)]) (ps := [enqOutput c x i])
    (instr_carried hinstr) fun t ht hcur hrun => ?_
  · rwa [List.append_assoc] at hends
  have horder : t.order = s.order := ht.order
  rw [blockExec_enq hi hrun, tryEnqPhase, phaseE5_of_live (ht.live.trans hready.live), enqReturn_eq_leave,
    Block.memWrite_cur, hcur, horder, enqOutput_congr (x := x) rfl]
  rfl

/-- Five granted steps publish the index and return: the reservation, the load, the install, the threshold test, the
threshold armed. -/
theorem Reaches.publish (hhint : x.hint = false)
    (h : Reaches n s c (List.replicate 5 (.run c ok) ++ rest) (.busy (.enq .e0) x) ws []) :
    Reaches (n + 5) s c rest .idle (ws ++ publishWords s x.r tl x.vidx) [enqOutput c x i] :=
  have he1 := Reaches.publish_e1 hi hready hws hinstr (Reaches.publish_e0 hi hready hws hinstr h)
  have he3 := Reaches.publish_e3 hi hready hws hinstr hhint he1
  Reaches.publish_e5 hi hready hinstr (Reaches.publish_e4 hi hready hws hinstr he3)

end Publish

/-! ### `ENQUEUE` and `DEQUEUE` alone (R151 to R159) -/

theorem elsewhere_claimWords (s : Block W) {r r' : Ring} (hr : r' ≠ r) (hd w : Word W) :
    Elsewhere s.order r (claimWords s r' hd w) where
  stores := storesWords_claimWords s r' hd w
  ring _ _ hl heq := hr (Option.some.inj ((ringOf_of_mem_claimWords hl).symm.trans heq))

/-- A value word is in no ring. -/
theorem Elsewhere.append_val {order : Nat} {r : Ring} {ws : List (Loc × Word W)} (h : Elsewhere order r ws) {i : Nat}
    (hi : i < capOf order) (v : Word W) : Elsewhere order r (ws ++ [(.val i, v)]) where
  stores := h.stores.append fun l u hl => by
    cases List.mem_singleton.1 hl
    exact ⟨decide_eq_true hi, by simp⟩
  ring l u hl := by
    rcases List.mem_append.1 hl with hl | hl
    · exact h.ring l u hl
    · cases List.mem_singleton.1 hl
      simp [ringOf]

/-- The words an `ENQUEUE` of `v` alone stores, the index of the entry `w` being free. -/
def enqueueWords (s : Block W) (hd w tl v : Word W) : List (Loc × Word W) :=
  claimWords s .fq hd w ++ [(.val (idxOf s.k w).toNat, v)] ++ publishWords s .aq tl (idxOf s.k w)

/-- The words a `DEQUEUE` of the entry `w` alone stores. -/
def dequeueWords (s : Block W) (hd w tl : Word W) : List (Loc × Word W) :=
  claimWords s .aq hd w ++ publishWords s .fq tl (idxOf s.k w)

theorem nodup_enqueueWords (s : Block W) (hd w tl v : Word W) : ((enqueueWords s hd w tl v).map Prod.fst).Nodup := by
  simp [enqueueWords, claimWords, publishWords, Block.slotAt]

theorem nodup_dequeueWords (s : Block W) (hd w tl : Word W) : ((dequeueWords s hd w tl).map Prod.fst).Nodup := by
  simp [dequeueWords, claimWords, publishWords, Block.slotAt]

section Alone

variable {s : Block W} {c : Nat} {ok : Bool} {rest : List (Event W)} {v hd tl w a : Word W}
  (hidx : (idxOf s.k w).toNat < capOf s.order)

include hidx in
theorem elsewhere_enqueueWords (hd v : Word W) :
    Elsewhere s.order .aq (claimWords s .fq hd w ++ [(.val (idxOf s.k w).toNat, v)]) :=
  (elsewhere_claimWords s (by decide) hd w).append_val hidx v

include hidx in
theorem storesWords_enqueueWords (hd tl v : Word W) : StoresWords s.order (enqueueWords s hd w tl v) :=
  (elsewhere_enqueueWords hidx hd v).stores.append (storesWords_publishWords s .aq tl _)

theorem storesWords_dequeueWords (s : Block W) (hd w tl : Word W) : StoresWords s.order (dequeueWords s hd w tl) :=
  (storesWords_claimWords s .aq hd w).append (storesWords_publishWords s .fq tl _)

variable (hhint : s.cfg.fqHint = false) (hidle : s.ctx c = some .idle)
  (hquiet : ∀ d ph y, s.ctx d = some (.busy ph y) → ph ≠ .x0 ∧ ph ≠ .y0)

include hhint hidle hquiet hidx

/-- The acceptance of `ENQUEUE`, the test of `CLOSED`, the claim of an index in `FQ`, the store of the value, and the
publication of the index in `AQ`. -/
theorem reaches_of_enqueue (hopen : s.closed = 0) (hclaim : ClaimReady s .fq hd w) (hpublish : PublishReady s .aq tl a)
    (henv : s.env = .present c (.q (qWord 1 v)) :: (List.replicate 11 (.run c ok) ++ rest)) :
    Reaches 12 s c rest .idle (enqueueWords s hd w tl v) [.response c ⟨.ok, none⟩] := by
  have hinstr : Ctx.instr (.busy .q0 (acceptedRegs 1 v)) = some (.enqueue v.toNat) := instr_of_decodeOp rfl rfl
  have hstarted : Reaches 1 s c (List.replicate 11 (.run c ok) ++ rest) (.busy .q0 (acceptedRegs 1 v)) [] [] :=
    .of_accepted (i := .enqueue v.toNat) henv hidle (decode_qWord 1 v)
      (blockEnqueue_accepts (s := s.presented c _) hidle hclaim.live hquiet v)
  have hq0 : Reaches 2 s c (List.replicate 10 (.run c ok) ++ rest)
      (.busy (.deq .d0) { acceptedRegs 1 v with cl := 0, r := .fq, hint := false }) [] [] := by
    refine hstarted.goes hinstr fun t ht hrun => ?_
    have hclosed : t.closed = 0 := ht.closed.trans hopen
    have hcfg : t.cfg.fqHint = false := (congrArg Params.fqHint ht.cfg).trans hhint
    rw [blockExec, blockEnqueue_of_q0 hrun (ht.live.trans hclaim.live), if_pos hclosed, hclosed, hcfg]
    rfl
  have hclaimed := Reaches.claim (i := .enqueue v.toNat) rfl hclaim (instr_carried hinstr) (fun _ _ => rfl) hq0
  have hq1 := hclaimed.stores (instr_carried hinstr) (l := .val (idxOf s.k w).toNat) (v := v) (by simp)
    fun t ht hrun => blockEnqueue_of_q1_inRange hrun
      ((ht.hasLoc _).trans (Block.hasLoc_of_live (s := s) hclaim.live (decide_eq_true hidx)))
  exact Reaches.publish (i := .enqueue v.toNat) rfl hpublish (elsewhere_enqueueWords hidx hd v) (instr_carried hinstr)
    rfl hq1

/-- The acceptance of `DEQUEUE`, the claim of an entry in `AQ`, the load of its value, and the publication of the index
in `FQ`. -/
theorem reaches_of_dequeue (hclaim : ClaimReady s .aq hd w) (hpublish : PublishReady s .fq tl a)
    (henv : s.env = .present c (.q (qWord 2 v)) :: (List.replicate 10 (.run c ok) ++ rest)) :
    Reaches 11 s c rest .idle (dequeueWords s hd w tl)
      [.response c ⟨.ok, some (s.memRead (.val (idxOf s.k w).toNat))⟩] := by
  have hinstr : Ctx.instr (.busy (.deq .d0) { acceptedRegs 2 v with r := .aq, hint := false }) =
      some (.dequeue v.toNat) := instr_of_decodeOp rfl rfl
  have hstarted : Reaches 1 s c (List.replicate 10 (.run c ok) ++ rest)
      (.busy (.deq .d0) { acceptedRegs 2 v with r := .aq, hint := false }) [] [] :=
    .of_accepted (i := .dequeue v.toNat) henv hidle (decode_qWord 2 v)
      (blockDequeue_accepts (s := s.presented c _) hidle hclaim.live hquiet v)
  have hclaimed := Reaches.claim (i := .dequeue v.toNat) (ph := .p1) rfl hclaim hinstr (fun _ _ => rfl) hstarted
  have hp1 : Reaches 6 s c (List.replicate 5 (.run c ok) ++ rest)
      (.busy (.enq .e0)
        { Regs.claimed s { acceptedRegs 2 v with r := .aq, hint := false } hd w with
          val := s.memRead (.val (idxOf s.k w).toNat), r := .fq, hint := false, vidx := idxOf s.k w })
      (claimWords s .aq hd w) [] := by
    refine hclaimed.goes (instr_carried hinstr) fun t ht hrun => ?_
    have hcfg : t.cfg.fqHint = false := (congrArg Params.fqHint ht.cfg).trans hhint
    have hval : t.memRead (.val (idxOf s.k w).toNat) = s.memRead (.val (idxOf s.k w).toNat) :=
      ht.memRead_of_notMem (storesWords_claimWords s .aq hd w) (decide_eq_true hidx) fun _ hl => by
        cases ringOf_of_mem_claimWords hl
    have hloc : t.hasLoc (.val (idxOf s.k w).toNat) = true :=
      (ht.hasLoc _).trans (Block.hasLoc_of_live (s := s) hclaim.live (decide_eq_true hidx))
    rw [blockExec, blockDequeue_of_p1_inRange hrun hloc, Regs.claimed_idx, hval, hcfg]
    rfl
  have helsewhere : Elsewhere s.order .fq (claimWords s .aq hd w) := elsewhere_claimWords s (by decide) hd w
  exact Reaches.publish (i := .dequeue v.toNat) rfl hpublish helsewhere (instr_carried hinstr) rfl hp1

end Alone

end Runs

/-! ### The statements about one step -/

/-- Settles O49: `X0` answers and does nothing else. -/
theorem createCanFail : Obligations.CreateCanFail := by
  intro W v x s hrun halloc
  obtain ⟨t, hexec, ⟨hidle, hout⟩, hframe, -⟩ :=
    yields_of_respond (i := .create v) hrun.1 (.refl s []) (blockCreate_of_not_allocOk hrun halloc)
  exact ⟨t, hexec, hidle, hout, hframe⟩

/-- Settles O50, by whether `CLOSED` is 0. -/
theorem enqueueTestsClosedFirst : Obligations.EnqueueTestsClosedFirst := by
  intro W v x s hrun hlive
  have hstep : blockExec (.enqueue v) s = _ := blockEnqueue_of_q0 hrun hlive
  by_cases hopen : s.closed = 0
  · obtain ⟨t, hexec, hat, hframe, -⟩ := yields_of_goto hrun.1 (.refl s []) (hstep.trans (if_pos hopen))
    rw [hopen, apply_ite Phase.deq] at hat
    exact ⟨t, hexec, hframe, fun hne => absurd hopen hne, fun _ => hat⟩
  · obtain ⟨t, hexec, hanswer, hframe, -⟩ := yields_of_respond hrun.1 (.refl s []) (hstep.trans (if_neg hopen))
    exact ⟨t, hexec, hframe, fun _ => hanswer, fun h => absurd h hopen⟩

/-- Settles O51: the store, and the start of the publication. -/
theorem enqueueStoresValue : Obligations.EnqueueStoresValue := by
  intro W v x s hrun hlive hidx
  have hloc : s.hasLoc (.val x.idx.toNat) = true := Block.hasLoc_of_live hlive (decide_eq_true hidx)
  obtain ⟨t, hexec, hat, hframe, hread⟩ :=
    yields_of_goto (i := .enqueue v) hrun.1 (.memWrite hloc _) (blockEnqueue_of_q1_inRange hrun hloc)
  exact ⟨t, hexec, by rw [hread, Block.memRead_memWrite_same], hat, hframe⟩

/-- Settles O52, by whether `CLOSED` is 0. -/
theorem dequeueReportsEmptyOrClosed : Obligations.DequeueReportsEmptyOrClosed := by
  intro W v x s hrun hlive
  obtain ⟨t, hexec, ⟨hidle, hout⟩, hframe, -⟩ :=
    yields_of_respond (i := .dequeue v) hrun.1 (.refl s []) (blockDequeue_of_p0 hrun hlive)
  exact ⟨t, hexec, hidle, hframe, fun hclosed => by rw [hout, if_neg hclosed],
    fun hopen => by rw [hout, if_pos hopen]⟩

/-- Settles O53: the load, and the start of the release. -/
theorem dequeueReadsValue : Obligations.DequeueReadsValue := by
  intro W v x s hrun hlive hidx
  have hloc : s.hasLoc (.val x.idx.toNat) = true := Block.hasLoc_of_live hlive (decide_eq_true hidx)
  obtain ⟨t, hexec, hat, hframe, -⟩ :=
    yields_of_goto (i := .dequeue v) hrun.1 (.refl s []) (blockDequeue_of_p1_inRange hrun hloc)
  exact ⟨t, hexec, hat, hframe⟩

/-- Settles O54: the word of `CLOSED` goes up by one, as a word does. -/
theorem closeCounts : Obligations.CloseCounts := by
  intro W v x s hrun hlive
  have hclosed : s.hasLoc .closed = true := Block.hasLoc_of_live hlive rfl
  obtain ⟨t, hexec, ⟨hidle, hout⟩, hframe, hread⟩ :=
    yields_of_respond (i := .close v) hrun.1 (.memWrite hclosed _) (blockClose_of_k0 hrun hlive)
  have hcount : t.closed = s.closed + 1 := hread .closed
  refine ⟨t, hexec, ?_, hidle, hout, hframe⟩
  rw [hcount, BitVec.toNat_add]
  exact Nat.add_mod_mod _ _ _

/-- Settles O55: nothing is left of the queue, so no location exists. -/
theorem destroyReleases : Obligations.DestroyReleases := by
  intro W v x s hrun
  have hstep : blockExec (.destroy v) s = .next (s.release.leave .idle [.response s.cur ⟨.ok, none⟩]) :=
    blockDestroy_of_y0 hrun
  refine ⟨_, exec_next.2 hstep, rfl, rfl, fun _ => rfl, ?_, fun d hd => ?_, rfl, rfl, rfl⟩
  · exact Block.setCtx_ctx_self s .idle hrun.1
  · exact Block.setCtx_ctx_other s .idle hd

/-- Settles O56: the response, and the context left as the index says. -/
theorem dumpAnswersOneWord : Obligations.DumpAnswersOneWord := by
  intro W v x s hrun hlive horder hdi
  have hstep : blockExec (.dump v) s = _ :=
    blockDump_of_u0 hrun horder (Block.hasLoc_of_live hlive (decide_eq_true hdi))
  refine ⟨_, exec_next.2 hstep, (s.leave_left _ _).frame [], rfl, fun hlast => ?_, fun hlast => ?_⟩
  · exact (Block.setCtx_ctx_self s _ hrun.1).trans (congrArg some (if_pos hlast))
  · exact (Block.setCtx_ctx_self s _ hrun.1).trans (congrArg some (if_neg hlast))

/-! ### The statements about whole operations -/

/-- Settles O57, by the run that answers the words left, from the first index. -/
theorem dumpStreamsValues : Obligations.DumpStreamsValues := by
  intro W v x s c ok rest hctx hinstr hdi hlive horder henv
  have hzero : x.di.toNat = 0 := by rw [hdi]; rfl
  obtain ⟨m, hm⟩ : ∃ m, capOf s.order = m + 1 := Nat.exists_eq_add_one.2 (Nat.two_pow_pos s.order)
  rw [hm] at henv
  obtain ⟨t, hrun, hidle, hrest, hsame⟩ :=
    Reaches.dump hlive horder m (.zero hctx henv) hinstr (by rw [hzero, hm, Nat.zero_add])
  rw [Nat.zero_add, ← hm] at hrun
  rw [hzero, ← List.range_eq_range', List.append_nil, ← hm] at hsame
  exact ⟨t, hrun, hidle, hsame.out, hsame.mem, hsame.closed, hsame.live, hsame.order, hrest, hsame.others⟩

/-- Settles O59: the words stored are those of the claim, the value, and those of the publication. -/
theorem enqueueAloneSucceeds : Obligations.EnqueueAloneSucceeds := by
  intro W v s c ok rest _ _ hhint hlive hopen hidle hquiet hthF hthA hd tl w a hhead htail hw ha hcycle hidx hempty
    holder henv
  have hclaim : ClaimReady s .fq hd w := ⟨hlive, hthF, hhead, hw, hcycle⟩
  have hpublish : PublishReady s .aq tl a := ⟨hlive, hthA, htail, ha, hempty, holder⟩
  obtain ⟨t, hrun, hdone, hrest, hsame⟩ := reaches_of_enqueue hidx hhint hidle hquiet hopen hclaim hpublish henv
  have hread {l : Loc} {u : Word W} (hl : (l, u) ∈ enqueueWords s hd w tl v) : t.memRead l = u :=
    hsame.memRead_of_mem (storesWords_enqueueWords hidx hd tl v) (nodup_enqueueWords s hd w tl v) hl
  refine ⟨t, hrun, hdone, hsame.out, hrest, hread ?_, hread ?_, hread ?_, hread ?_, hread ?_, hread ?_,
    hsame.closed.trans hopen, fun b hb => hsame.read_of_notMem fun l hl => hb l ?_⟩
  case refine_7 =>
    simp only [enqueueWords, claimWords, publishWords, Block.slotAt, List.map_append, List.map_cons, List.map_nil,
      List.mem_append, List.mem_cons] at hl ⊢
    tauto
  all_goals simp [enqueueWords, claimWords, publishWords, Block.slotAt]

/-- Settles O60: the words stored are those of the claim and those of the publication. -/
theorem dequeueAloneReturnsValue : Obligations.DequeueAloneReturnsValue := by
  intro W v s c ok rest _ _ hhint hlive hidle hquiet hthA hthF hd tl w a hhead htail hw ha hcycle hidx hempty
    holder henv
  have hclaim : ClaimReady s .aq hd w := ⟨hlive, hthA, hhead, hw, hcycle⟩
  have hpublish : PublishReady s .fq tl a := ⟨hlive, hthF, htail, ha, hempty, holder⟩
  obtain ⟨t, hrun, hdone, hrest, hsame⟩ := reaches_of_dequeue hidx hhint hidle hquiet hclaim hpublish henv
  have hread {l : Loc} {u : Word W} (hl : (l, u) ∈ dequeueWords s hd w tl) : t.memRead l = u :=
    hsame.memRead_of_mem (storesWords_dequeueWords s hd w tl) (nodup_dequeueWords s hd w tl) hl
  refine ⟨t, hrun, hdone, hsame.out, hrest, hread ?_, hread ?_, hread ?_, hread ?_, hread ?_, hsame.closed,
    fun b hb => hsame.read_of_notMem fun l hl => hb l ?_⟩
  case refine_6 =>
    simp only [dequeueWords, claimWords, publishWords, Block.slotAt, List.map_append, List.map_cons, List.map_nil,
      List.mem_append, List.mem_cons] at hl ⊢
    tauto
  all_goals simp [dequeueWords, claimWords, publishWords, Block.slotAt]

end Sys2Proof.Machine

/-! PROOFS. What a step granted to a context leaves alone, and the commands that are refused: the statements of
60_exceptions.md. -/

namespace Sys2Proof.Machine

section Exceptions

variable {W : Nat}

/-! ### A step writes its own context only (60_exceptions.md R181) -/

/-- No operation writes the context of another: an initialisation and a primitive write none at all. -/
theorem blockExec_ctx_other {i : Instr} {s t : Block W} (h : blockExec i s = .next t) {d : Nat} (hd : d ≠ s.cur) :
    t.ctx d = s.ctx d := by
  cases blockExec_next h with
  | context h =>
    obtain ⟨ls, -, hf⟩ := h.frame
    exact hf.others d hd
  | created _ _ h =>
    obtain ⟨a, x, hrun, rfl⟩ := h
    have hothers := (createdQueue_ctx x.arg.toNat hrun.1).2 d hd
    rwa [createdQueue, Block.emit_ctx] at hothers
  | destroyed _ _ h =>
    obtain ⟨a, x, -, rfl⟩ := h
    exact Block.setCtx_ctx_other s.release .idle hd
  | ringInit h =>
    obtain ⟨-, ws, o, -, rfl⟩ := h
    rfl
  | primitive h =>
    obtain ⟨u, o, hu, rfl⟩ := h
    exact (hu.frame s.cur).others d hd

/-- A step granted to a context takes the event and nothing else, or goes on with what the context is running. -/
theorem blockStep_granted_next {s t : Block W} {c : Nat} {ok : Bool} {rest : List (Event W)}
    (henv : s.env = .run c ok :: rest) (h : blockStep s = .next t) :
    t = { s with env := rest } ∨ ∃ i, blockExec i (s.granted c ok rest) = .next t := by
  rcases blockStep_next h with ⟨he, -⟩ | ⟨_, he, -⟩ | ⟨_, _, _, he, -, ht⟩ | ⟨_, _, _, _, he, -⟩ |
    ⟨_, _, _, _, i, _, he, -, -, hstep⟩ <;> cases henv.symm.trans he
  · exact .inl ht
  · exact .inr ⟨i, hstep⟩

/-! ### Commands whose preconditions are violated (60_exceptions.md R171) -/

theorem Block.any_ctxs {s : Block W} {p : Ctx W → Bool} {c : Nat} {y : Ctx W} (hc : s.ctx c = some y)
    (hy : p y = true) : s.ctxs.any p = true :=
  List.any_eq_true.2 ⟨y, List.mem_of_getElem? hc, hy⟩

theorem needNoLifecycle_of_pending {s : Block W}
    (h : ∃ c x, s.ctx c = some (.busy .x0 x) ∨ s.ctx c = some (.busy .y0 x)) (r : Res W) :
    needNoLifecycle s r = .refused .lifecyclePending := by
  obtain ⟨c, x, hc | hc⟩ := h
  · exact if_pos (Block.any_ctxs hc rfl)
  · exact if_pos (Block.any_ctxs hc rfl)

theorem needQuiescent_of_busy {s : Block W} (h : ∃ c ph x, s.ctx c = some (.busy ph x)) (r : Res W) :
    needQuiescent s r = .refused .notQuiescent := by
  obtain ⟨c, ph, x, hc⟩ := h
  exact if_pos (Block.any_ctxs hc rfl)

section Refusals

variable {s : Block W} (hidle : s.ctx s.cur = some .idle) {i : Instr} {resume : Phase → Regs W → Res W}

include hidle

/-- Every command that needs a live queue tests `LIVE` first. -/
theorem onContext_needLive_of_dead (hdead : s.live = false) (r : Res W) :
    onContext i s (needLive s r) resume = .refused .noQueue := by
  rw [onContext_of_idle hidle, needLive, if_neg (Bool.eq_false_iff.1 hdead)]

/-- The commands that may overlap others do not overlap `X0` and `Y0`. -/
theorem onContext_needNoLifecycle_of_pending (hlive : s.live = true)
    (hpending : ∃ c x, s.ctx c = some (.busy .x0 x) ∨ s.ctx c = some (.busy .y0 x)) (r : Res W) :
    onContext i s (needLive s (needNoLifecycle s r)) resume = .refused .lifecyclePending := by
  rw [onContext_of_idle hidle, needLive_of_live hlive, needNoLifecycle_of_pending hpending]

theorem blockCreate_of_live (hlive : s.live = true) (v : Nat) : blockCreate v s = .refused .queueLive := by
  rw [blockCreate, onContext_of_idle hidle, if_pos hlive]

theorem blockCreate_of_order_gt (hdead : s.live = false) {v : Nat} (horder : s.cfg.orderMax < v) :
    blockCreate v s = .refused .orderTooLarge := by
  rw [blockCreate, onContext_of_idle hidle, if_neg (Bool.eq_false_iff.1 hdead), if_pos horder]

theorem blockCreate_of_busy (hbusy : ∃ c ph x, s.ctx c = some (.busy ph x)) (hdead : s.live = false) {v : Nat}
    (horder : v ≤ s.cfg.orderMax) : blockCreate v s = .refused .notQuiescent := by
  rw [blockCreate, onContext_of_idle hidle, if_neg (Bool.eq_false_iff.1 hdead), if_neg (Nat.not_lt.2 horder),
    needQuiescent_of_busy hbusy]

theorem blockDestroy_of_busy (hbusy : ∃ c ph x, s.ctx c = some (.busy ph x)) (hlive : s.live = true) (v : Nat) :
    blockDestroy v s = .refused .notQuiescent := by
  rw [blockDestroy, onContext_of_idle hidle, needLive_of_live hlive, needQuiescent_of_busy hbusy]

end Refusals

end Exceptions

/-! ### The statements -/

/-- Settles O12: the step is nothing, or one of an operation in the context it is granted to. -/
theorem contextsArePrivate : Obligations.ContextsArePrivate := by
  intro W s t c d ok rest henv h hd
  rcases blockStep_granted_next henv (step_next_block.1 h) with rfl | ⟨i, hstep⟩
  · rfl
  · exact blockExec_ctx_other hstep hd

/-- Settles O47, from the first test of each acceptance that fails. -/
theorem violationsAreRefused : Obligations.ViolationsAreRefused := by
  intro W s v hidle
  refine ⟨fun hdead => ?noQueue, fun hlive => exec_refused.2 (blockCreate_of_live hidle hlive v),
    fun hdead horder => exec_refused.2 (blockCreate_of_order_gt hidle hdead horder),
    fun hbusy => ⟨fun hdead horder => exec_refused.2 (blockCreate_of_busy hidle hbusy hdead horder),
      fun hlive => exec_refused.2 (blockDestroy_of_busy hidle hbusy hlive v)⟩,
    fun hlive hpending => ?pending⟩
  case noQueue =>
    refine ⟨?_, ?_, ?_, ?_, ?_⟩
    all_goals exact exec_refused.2 (onContext_needLive_of_dead hidle hdead _)
  case pending =>
    refine ⟨?_, ?_, ?_, ?_⟩
    all_goals exact exec_refused.2 (onContext_needNoLifecycle_of_pending hidle hlive hpending _)

end Sys2Proof.Machine

/-! PROOFS. No step takes a value from a word of a live queue, and `X0` gives one to every control word and slot: the
statement of 70_reset_and_hazards.md. -/

namespace Sys2Proof.Machine

section Initialised

variable {W : Nat}

/-! ### Stores take no value away -/

/-- The offsets that hold a value after many stores: those that did before, and those stored to. -/
theorem Mem.read_writeAll_ne_none {m : Mem W} {cs : List (Nat × Word W)} {a : Nat} :
    Mem.read (Mem.writeAll m cs) a ≠ none ↔ Mem.read m a ≠ none ∨ ∃ v, (a, v) ∈ cs := by
  induction cs using List.reverseRecOn with
  | nil => simp [Mem.writeAll]
  | append_singleton cs c ih =>
    obtain ⟨b, w⟩ := c
    rw [Mem.writeAll_concat, Mem.read_write]
    split
    · next hab => simp [hab]
    · next hab => simpa [hab] using ih

/-- The words of the block that hold a value in `s` do so in `t`, at the same locations. -/
structure KeepsValues (s t : Block W) : Prop where
  cfg : t.cfg = s.cfg
  live : t.live = s.live
  order : t.order = s.order
  read : ∀ a, Mem.read s.mem a ≠ none → Mem.read t.mem a ≠ none

theorem KeepsValues.initialised {s t : Block W} (h : KeepsValues s t) (hs : s.Initialised) : t.Initialised := by
  intro l hl hc hv
  have haddr : t.addr l = s.addr l := by simp only [Block.addr, h.cfg, h.order]
  have hloc : s.hasLoc l = true := by simpa only [Block.hasLoc, h.live, h.order] using hl
  rw [haddr]
  exact h.read _ (hs l hloc hc hv)

theorem KeepsValues.trans {s t u : Block W} (h : KeepsValues s t) (g : KeepsValues t u) : KeepsValues s u :=
  ⟨g.cfg.trans h.cfg, g.live.trans h.live, g.order.trans h.order, fun a ha => g.read a (h.read a ha)⟩

/-- A change of contexts, environment and outputs touches no word. -/
theorem KeepsValues.of_mem_eq {s t : Block W} (hcfg : t.cfg = s.cfg := by rfl) (hlive : t.live = s.live := by rfl)
    (horder : t.order = s.order := by rfl) (hmem : t.mem = s.mem := by rfl) : KeepsValues s t :=
  ⟨hcfg, hlive, horder, fun _ ha => hmem ▸ ha⟩

theorem KeepsValues.storeAll (s : Block W) (ws : List (Loc × Word W)) : KeepsValues s (s.storeAll ws) :=
  ⟨rfl, rfl, rfl, fun _ ha => Mem.read_writeAll_ne_none.2 (.inl ha)⟩

theorem KeepsValues.memWrite (s : Block W) (l : Loc) (v : Word W) : KeepsValues s (s.memWrite l v) := by
  by_cases hc : l = .closed
  · subst hc
    exact .of_mem_eq
  · have heq : s.memWrite l v = s.storeAll [(l, v)] := (Block.storeAll_cons s (w := (l, v)) [] hc).symm
    exact heq ▸ .storeAll s [(l, v)]

theorem Touched.keepsValues {s u : Block W} {ls : List Loc} (h : Touched s ls u) : KeepsValues s u := by
  rcases h with rfl | ⟨l, -, -, v, rfl⟩
  · exact .of_mem_eq
  · exact .memWrite s l v

theorem Left.keepsValues {u t : Block W} {c : Ctx W} (h : Left u t c) : KeepsValues u t := by
  obtain ⟨os, rfl⟩ := h
  exact .of_mem_eq

theorem KeepsValues.finish_emit (s : Block W) (o : Output W) : KeepsValues s (s.finish.emit o) :=
  Left.keepsValues ⟨[o], rfl⟩

/-! ### `X0` writes every control word and slot -/

/-- The words of the block other than `VAL` are the rings'. -/
theorem ringOf_of_ne_val {l : Loc} (hc : l ≠ .closed) (hv : ∀ i, l ≠ .val i) : ∃ r, ringOf l = some r := by
  cases l with
  | val i => exact absurd rfl (hv i)
  | closed => exact absurd rfl hc
  | _ => exact ⟨_, rfl⟩

theorem exists_mem_emptyWords {order : Nat} {r : Ring} {l : Loc} (hl : l.inRange order = true)
    (hr : ringOf l = some r) : ∃ v : Word W, (l, v) ∈ emptyWords order r := by
  cases l <;> cases hr
  case slot p => exact ⟨_, mem_emptyWords.2 (.inl ⟨p, of_decide_eq_true hl, rfl, rfl⟩)⟩
  all_goals simp [mem_emptyWords, mem_controlWords]

/-- `map` reaches every slot, so none is left out. -/
theorem exists_mem_fillWords (rot : Nat) {order : Nat} (hk : kOf order ≤ W) {r : Ring} (start fin : Nat) {l : Loc}
    (hl : l.inRange order = true) (hr : ringOf l = some r) :
    ∃ v : Word W, (l, v) ∈ fillWords rot order r start fin := by
  cases l <;> cases hr
  case slot p =>
    have hp : p < 2 ^ kOf order := of_decide_eq_true hl
    have hpW : (BitVec.ofNat W p).toNat = p := by
      rw [BitVec.toNat_ofNat, Nat.mod_eq_of_lt (hp.trans_le (Nat.pow_le_pow_right (by decide) hk))]
    obtain ⟨c, hc, hmap⟩ := mapPos_surj rot hk (p := BitVec.ofNat W p) (hpW.symm ▸ hp)
    exact ⟨_, mem_fillWords.2 (.inl ⟨c.toNat, hc, by simp [hmap, hpW], rfl⟩)⟩
  all_goals simp [mem_fillWords, mem_controlWords]

theorem exists_mem_createWords (rot : Nat) {order : Nat} (hk : kOf order ≤ W) {r : Ring} {l : Loc}
    (hl : l.inRange order = true) (hr : ringOf l = some r) : ∃ v : Word W, (l, v) ∈ createWords rot order := by
  cases r with
  | aq =>
    obtain ⟨v, hv⟩ := exists_mem_emptyWords hl hr
    exact ⟨v, List.mem_append_right _ hv⟩
  | fq =>
    obtain ⟨v, hv⟩ := exists_mem_fillWords rot hk 0 (capOf order) hl hr
    exact ⟨v, List.mem_append_left _ hv⟩

/-- The queue `X0` builds is initialised, whatever was held before (42_bounded_queue.md R150). -/
theorem Block.create_initialised (s : Block W) {order : Nat} (hk : kOf order ≤ W) :
    (s.create order).Initialised := by
  intro l hl hc hv
  obtain ⟨r, hr⟩ := ringOf_of_ne_val hc hv
  have hrange : l.inRange order = true := by simpa [Block.hasLoc] using hl
  obtain ⟨v, hmem⟩ := exists_mem_createWords (W := W) s.cfg.rot hk hrange hr
  rw [Block.create_eq]
  exact Mem.read_writeAll_ne_none.2 (.inr ⟨v, List.mem_map.2 ⟨(l, v), hmem, rfl⟩⟩)

/-! ### Every step -/

/-- While no queue is live there is no location. -/
theorem Block.Initialised.of_dead {s : Block W} (h : s.live = false) : s.Initialised := by
  intro l hl
  simp [Block.hasLoc, h] at hl

theorem Created.initialised {s t : Block W} (h : Created s t) (hs : s.Inv) : t.Initialised := by
  obtain ⟨a, x, hrun, rfl⟩ := h
  have hmax : s.cfg.orderMax + 4 ≤ W := of_decide_eq_true (Bool.and_eq_true_iff.1 hs.params).1
  have harg : x.arg.toNat ≤ s.cfg.orderMax := (hs.ctx_ok _ _ _ hrun.1).order rfl
  exact (KeepsValues.finish_emit _ _).initialised (s.create_initialised (by unfold kOf; omega))

theorem blockExec_keeps_initialised {i : Instr} {s t : Block W} (hs : s.Inv) (hinit : s.Initialised)
    (h : blockExec i s = .next t) : t.Initialised := by
  cases blockExec_next h with
  | context h =>
    obtain ⟨ls, u, c, -, hu, ht, -⟩ := h
    exact (hu.keepsValues.trans ht.keepsValues).initialised hinit
  | created _ _ h => exact h.initialised hs
  | destroyed _ _ h =>
    obtain ⟨a, x, -, rfl⟩ := h
    exact .of_dead rfl
  | ringInit h =>
    obtain ⟨-, ws, o, -, rfl⟩ := h
    exact ((KeepsValues.storeAll s ws).trans .of_mem_eq).initialised hinit
  | primitive h =>
    obtain ⟨u, o, hu, rfl⟩ := h
    exact (hu.keepsValues.trans .of_mem_eq).initialised hinit

theorem blockStep_keeps_initialised {s t : Block W} (hs : s.Inv) (hinit : s.Initialised)
    (h : blockStep s = .next t) : t.Initialised := by
  rcases blockStep_exec h with ⟨rest, rfl⟩ | ⟨rest, rfl⟩ | ⟨i, rest, c, ok, h⟩
  · exact KeepsValues.initialised .of_mem_eq hinit
  · exact .of_dead rfl
  · exact blockExec_keeps_initialised (hs.withEnv rest c ok) (KeepsValues.initialised .of_mem_eq hinit) h

end Initialised

/-! ### The statement -/

/-- Settles O10: a step takes no value from a word, destroys the queue, or is `X0`, which writes every one. -/
theorem stepKeepsInitialised : Obligations.StepKeepsInitialised := fun _ _ _ hs hinit h =>
  blockStep_keeps_initialised hs hinit (step_next_block.1 h)

end Sys2Proof.Machine
